-- ==== Sys2Proof/Word.lean ====
section
/-! DEFINITION. The byte and the byte sequence: the only word types the block has (00_scope.md R10, R13). -/

namespace Sys2Proof

/-- `u8`: a byte is 8 bits in every space (20_memory.md R50). -/
abbrev Byte := BitVec 8

/-- `bytes`: a finite sequence of `u8`, index 0 first (00_scope.md R10, R13). -/
abbrev Bytes := List Byte

/-- `zeros(n)`: the sequence of `n` bytes `0x00` (00_scope.md R10). -/
abbrev zeros (n : Nat) : Bytes := List.replicate n 0

end Sys2Proof
end

