-- ==== Sys2Proof/Machine/Bytes.lean ====
section
/-! DEFINITION. Byte order, decided once: the little-endian bytes of a number and the number they spell
(20_memory.md R53, 00_scope.md R12). Decode.lean uses the same two functions for the operand bytes. -/

namespace Sys2Proof.Machine

/-- The `n` low bytes of `v`, lowest first: byte `i` is `(v >> (8*i)) & 0xFF` (00_scope.md R12 `MemWrite`). -/
def leBytes : Nat → Nat → Bytes
  | 0, _ => []
  | n + 1, v => BitVec.ofNat 8 v :: leBytes n (v / 256)

/-- The unsigned number the bytes spell, lowest first: `sum of b[i] * 256^i` (00_scope.md R12 `MemRead`). -/
def leNat : Bytes → Nat
  | [] => 0
  | b :: bs => b.toNat + 256 * leNat bs

end Sys2Proof.Machine
end

