-- ==== Sys2Proof/Config.lean ====
section
/-! DEFINITION. The constants of 00_scope.md R7 and R8. The two parameters of R9 that the source leaves open, the
catalog and the capacity of the carry-over buffer, are fields of State (Machine/State.lean): they belong to one
instance, and a statement about every state is then a statement about every catalog. -/

namespace Sys2Proof.Config

/-- `MAGIC`, the frame start marker at frame offset 0 (R7). -/
abbrev magic : Byte := 0xFD
/-- `HDR_LEN`, frame offsets 0 to 9 (R7). -/
abbrev hdrLen : Nat := 10
/-- `CRC_LEN` (R7). -/
abbrev crcLen : Nat := 2
/-- `MIN_FRAME = HDR_LEN + CRC_LEN` (R7). -/
abbrev minFrame : Nat := 12
/-- `INCOMPAT`, what the packer writes at frame offset 2 (R7). -/
abbrev incompat : Byte := 0x00
/-- `COMPAT`, what the packer writes at frame offset 3 (R7). -/
abbrev compat : Byte := 0x00
/-- `CRC_INIT`, the accumulator before the first byte (R7). -/
abbrev crcInit : BitVec 16 := 0xFFFF
/-- `CRC_POLY`, the generator polynomial, used reflected (R7). -/
abbrev crcPoly : BitVec 16 := 0x1021
/-- `CRC_POLY_REFLECTED`, the 16-bit reversal of `CRC_POLY` (R8). -/
abbrev crcPolyReflected : BitVec 16 := 0x8408
/-- `MSGID_BYTES` (R7). -/
abbrev msgIdBytes : Nat := 3
/-- `MAX_PAYLOAD`, the largest value of the one-byte `payload_len` (R8). -/
abbrev maxPayload : Nat := 255
/-- `MAX_FRAME = HDR_LEN + MAX_PAYLOAD + CRC_LEN` (R8). -/
abbrev maxFrame : Nat := 267
/-- `2^24`, one more than `MSGID_MAX` (R8). -/
abbrev msgIdSpace : Nat := 16777216

end Sys2Proof.Config
end

