-- ==== Sys2Proof/Syntax.lean ====
section
/-! DEFINITION. The values that cross the block's boundary (00_scope.md R13) and the 52 operations of
30_encoding.md R100, one constructor of `Instr` each, every operand a value (10_state.md R22). -/

namespace Sys2Proof

/-- The closed set of eleven primitive kinds (30_encoding.md R86). -/
inductive Kind where
  | u8 | i8 | u16 | i16 | u32 | i32 | u64 | i64 | f32 | f64 | text
  deriving DecidableEq, Repr

/-- A field descriptor (30_encoding.md R85). `arrayLength = 0` is a scalar. `name` and `isExtension` are carried and
read by no operation. -/
structure Desc where
  name : String
  kind : Kind
  isExtension : Bool
  arrayLength : Nat
  deriving DecidableEq, Repr

/-- A catalog entry: the descriptor list in wire order and the one-byte checksum seed (30_encoding.md R93). -/
structure Entry where
  descs : List Desc
  seed : Byte
  deriving DecidableEq, Repr

/-- A scalar at the block's boundary (45_catalog_and_facade.md R275): any integer for the eight integer kinds
(41_field_codec_write.md R141), a bit pattern for `F32` and `F64` (30_encoding.md R90). -/
inductive Scalar where
  | int (v : Int)
  | b32 (p : BitVec 32)
  | b64 (p : BitVec 64)
  deriving DecidableEq, Repr

/-- A `Value` (00_scope.md R13): a scalar, a byte sequence for a text field, a list of scalars for an array field. -/
inductive Value where
  | scalar (x : Scalar)
  | text (t : Bytes)
  | list (xs : List Scalar)
  deriving DecidableEq, Repr

/-- A message (00_scope.md R13, 30_encoding.md R94). The header values are numbers of any size: one wider than its
field is reduced to the field's width on packing (D8). -/
structure Msg where
  messageId : Nat
  systemId : Nat
  componentId : Nat
  sequence : Nat
  values : List Value
  deriving DecidableEq, Repr

/-- The operations (30_encoding.md R100). -/
inductive Instr where
  /-- `FC.WR.U8 B, o, v`, `op = 0x00` (41_field_codec_write.md R142). -/
  | fcWrU8 (B : Bytes) (o : Nat) (v : Int)
  /-- `FC.WR.I8 B, o, v`, `op = 0x01` (41_field_codec_write.md R143). -/
  | fcWrI8 (B : Bytes) (o : Nat) (v : Int)
  /-- `FC.WR.U16 B, o, v`, `op = 0x02` (41_field_codec_write.md R144). -/
  | fcWrU16 (B : Bytes) (o : Nat) (v : Int)
  /-- `FC.WR.I16 B, o, v`, `op = 0x03` (41_field_codec_write.md R145). -/
  | fcWrI16 (B : Bytes) (o : Nat) (v : Int)
  /-- `FC.WR.U32 B, o, v`, `op = 0x04` (41_field_codec_write.md R146). -/
  | fcWrU32 (B : Bytes) (o : Nat) (v : Int)
  /-- `FC.WR.I32 B, o, v`, `op = 0x05` (41_field_codec_write.md R147). -/
  | fcWrI32 (B : Bytes) (o : Nat) (v : Int)
  /-- `FC.WR.U64 B, o, v`, `op = 0x06` (41_field_codec_write.md R148). -/
  | fcWrU64 (B : Bytes) (o : Nat) (v : Int)
  /-- `FC.WR.I64 B, o, v`, `op = 0x07` (41_field_codec_write.md R149). -/
  | fcWrI64 (B : Bytes) (o : Nat) (v : Int)
  /-- `FC.WR.F32 B, o, v`, `op = 0x08` (41_field_codec_write.md R150). -/
  | fcWrF32 (B : Bytes) (o : Nat) (v : BitVec 32)
  /-- `FC.WR.F64 B, o, v`, `op = 0x09` (41_field_codec_write.md R151). -/
  | fcWrF64 (B : Bytes) (o : Nat) (v : BitVec 64)
  /-- `FC.WR.TEXT B, o, N, s`, `op = 0x0A` (R152). -/
  | fcWrTEXT (B : Bytes) (o N : Nat) (t : Bytes)
  /-- `FC.RD.U8 B, o`, `op = 0x10` (42_field_codec_read.md R172). -/
  | fcRdU8 (B : Bytes) (o : Nat)
  /-- `FC.RD.I8 B, o`, `op = 0x11` (42_field_codec_read.md R173). -/
  | fcRdI8 (B : Bytes) (o : Nat)
  /-- `FC.RD.U16 B, o`, `op = 0x12` (42_field_codec_read.md R174). -/
  | fcRdU16 (B : Bytes) (o : Nat)
  /-- `FC.RD.I16 B, o`, `op = 0x13` (42_field_codec_read.md R175). -/
  | fcRdI16 (B : Bytes) (o : Nat)
  /-- `FC.RD.U32 B, o`, `op = 0x14` (42_field_codec_read.md R176). -/
  | fcRdU32 (B : Bytes) (o : Nat)
  /-- `FC.RD.I32 B, o`, `op = 0x15` (42_field_codec_read.md R177). -/
  | fcRdI32 (B : Bytes) (o : Nat)
  /-- `FC.RD.U64 B, o`, `op = 0x16` (42_field_codec_read.md R178). -/
  | fcRdU64 (B : Bytes) (o : Nat)
  /-- `FC.RD.I64 B, o`, `op = 0x17` (42_field_codec_read.md R179). -/
  | fcRdI64 (B : Bytes) (o : Nat)
  /-- `FC.RD.F32 B, o`, `op = 0x18` (42_field_codec_read.md R180). -/
  | fcRdF32 (B : Bytes) (o : Nat)
  /-- `FC.RD.F64 B, o`, `op = 0x19` (42_field_codec_read.md R181). -/
  | fcRdF64 (B : Bytes) (o : Nat)
  /-- `FC.RD.TEXT B, o, N`, `op = 0x1A` (R182). -/
  | fcRdTEXT (B : Bytes) (o N : Nat)
  /-- `FC.WRA.U8 B, o, n, vs`, `op = 0x20` (41_field_codec_write.md R153). -/
  | fcWraU8 (B : Bytes) (o n : Nat) (vs : List Int)
  /-- `FC.WRA.I8 B, o, n, vs`, `op = 0x21` (41_field_codec_write.md R154). -/
  | fcWraI8 (B : Bytes) (o n : Nat) (vs : List Int)
  /-- `FC.WRA.U16 B, o, n, vs`, `op = 0x22` (41_field_codec_write.md R155). -/
  | fcWraU16 (B : Bytes) (o n : Nat) (vs : List Int)
  /-- `FC.WRA.I16 B, o, n, vs`, `op = 0x23` (41_field_codec_write.md R156). -/
  | fcWraI16 (B : Bytes) (o n : Nat) (vs : List Int)
  /-- `FC.WRA.U32 B, o, n, vs`, `op = 0x24` (41_field_codec_write.md R157). -/
  | fcWraU32 (B : Bytes) (o n : Nat) (vs : List Int)
  /-- `FC.WRA.I32 B, o, n, vs`, `op = 0x25` (41_field_codec_write.md R158). -/
  | fcWraI32 (B : Bytes) (o n : Nat) (vs : List Int)
  /-- `FC.WRA.U64 B, o, n, vs`, `op = 0x26` (41_field_codec_write.md R159). -/
  | fcWraU64 (B : Bytes) (o n : Nat) (vs : List Int)
  /-- `FC.WRA.I64 B, o, n, vs`, `op = 0x27` (41_field_codec_write.md R160). -/
  | fcWraI64 (B : Bytes) (o n : Nat) (vs : List Int)
  /-- `FC.WRA.F32 B, o, n, vs`, `op = 0x28` (41_field_codec_write.md R161). -/
  | fcWraF32 (B : Bytes) (o n : Nat) (vs : List (BitVec 32))
  /-- `FC.WRA.F64 B, o, n, vs`, `op = 0x29` (41_field_codec_write.md R162). -/
  | fcWraF64 (B : Bytes) (o n : Nat) (vs : List (BitVec 64))
  /-- `FC.RDA.U8 B, o, n`, `op = 0x30` (42_field_codec_read.md R183). -/
  | fcRdaU8 (B : Bytes) (o n : Nat)
  /-- `FC.RDA.I8 B, o, n`, `op = 0x31` (42_field_codec_read.md R184). -/
  | fcRdaI8 (B : Bytes) (o n : Nat)
  /-- `FC.RDA.U16 B, o, n`, `op = 0x32` (42_field_codec_read.md R185). -/
  | fcRdaU16 (B : Bytes) (o n : Nat)
  /-- `FC.RDA.I16 B, o, n`, `op = 0x33` (42_field_codec_read.md R186). -/
  | fcRdaI16 (B : Bytes) (o n : Nat)
  /-- `FC.RDA.U32 B, o, n`, `op = 0x34` (42_field_codec_read.md R187). -/
  | fcRdaU32 (B : Bytes) (o n : Nat)
  /-- `FC.RDA.I32 B, o, n`, `op = 0x35` (42_field_codec_read.md R188). -/
  | fcRdaI32 (B : Bytes) (o n : Nat)
  /-- `FC.RDA.U64 B, o, n`, `op = 0x36` (42_field_codec_read.md R189). -/
  | fcRdaU64 (B : Bytes) (o n : Nat)
  /-- `FC.RDA.I64 B, o, n`, `op = 0x37` (42_field_codec_read.md R190). -/
  | fcRdaI64 (B : Bytes) (o n : Nat)
  /-- `FC.RDA.F32 B, o, n`, `op = 0x38` (42_field_codec_read.md R191). -/
  | fcRdaF32 (B : Bytes) (o n : Nat)
  /-- `FC.RDA.F64 B, o, n`, `op = 0x39` (42_field_codec_read.md R192). -/
  | fcRdaF64 (B : Bytes) (o n : Nat)
  /-- `CRC.INIT`, `op = 0x40` (40_checksum.md R123). -/
  | crcINIT
  /-- `CRC.ACC acc, b`, `op = 0x41` (R121). -/
  | crcACC (acc : BitVec 16) (b : Byte)
  /-- `CRC.BLOCK acc, B`, `op = 0x42` (R124). -/
  | crcBLOCK (acc : BitVec 16) (B : Bytes)
  /-- `CRC.FRAME seed, B`, `op = 0x43` (R125). A seed operand wider than 8 bits is used as `seed[7:0]` (D5). -/
  | crcFRAME (seed : Nat) (B : Bytes)
  /-- `PK.PACK m`, `op = 0x50` (43_packer.md R208). -/
  | pkPACK (m : Msg)
  /-- `PK.BATCH ms`, `op = 0x51` (R209). -/
  | pkBATCH (ms : List Msg)
  /-- `PS.FEED chunk`, `op = 0x60` (44_parser.md R240). -/
  | psFEED (chunk : Bytes)
  /-- `PS.PUSH b`, `op = 0x61` (R241). -/
  | psPUSH (b : Byte)
  /-- `PS.STATE`, `op = 0x62` (R247). -/
  | psSTATE
  /-- `CAT.LOOKUP id`, `op = 0x70` (45_catalog_and_facade.md R270). -/
  | catLOOKUP (id : BitVec 24)
  deriving DecidableEq, Repr

end Sys2Proof
end

