-- ==== Sys2Proof/WellFormed.lean ====
section
/-! DEFINITION. What an operation's operands must satisfy as syntax: the `array_length` operand of a text or an array
operation is greater than 0 (41_field_codec_write.md R152, R153; 42_field_codec_read.md R182, R183). Everything else
the spec asks of operands depends on buffers, values or the catalog and is the meanings' business. -/

namespace Sys2Proof

/-- `N > 0`, `n > 0`: the operand is the `array_length` of a text or an array field. -/
abbrev arrayLengthOk (n : Nat) : Bool := decide (0 < n)

/-- The check, one arm per operation. -/
def Instr.wf : Instr → Bool
  | .fcWrU8 _ _ _ => true
  | .fcWrI8 _ _ _ => true
  | .fcWrU16 _ _ _ => true
  | .fcWrI16 _ _ _ => true
  | .fcWrU32 _ _ _ => true
  | .fcWrI32 _ _ _ => true
  | .fcWrU64 _ _ _ => true
  | .fcWrI64 _ _ _ => true
  | .fcWrF32 _ _ _ => true
  | .fcWrF64 _ _ _ => true
  | .fcWrTEXT _ _ N _ => arrayLengthOk N
  | .fcRdU8 _ _ => true
  | .fcRdI8 _ _ => true
  | .fcRdU16 _ _ => true
  | .fcRdI16 _ _ => true
  | .fcRdU32 _ _ => true
  | .fcRdI32 _ _ => true
  | .fcRdU64 _ _ => true
  | .fcRdI64 _ _ => true
  | .fcRdF32 _ _ => true
  | .fcRdF64 _ _ => true
  | .fcRdTEXT _ _ N => arrayLengthOk N
  | .fcWraU8 _ _ n _ => arrayLengthOk n
  | .fcWraI8 _ _ n _ => arrayLengthOk n
  | .fcWraU16 _ _ n _ => arrayLengthOk n
  | .fcWraI16 _ _ n _ => arrayLengthOk n
  | .fcWraU32 _ _ n _ => arrayLengthOk n
  | .fcWraI32 _ _ n _ => arrayLengthOk n
  | .fcWraU64 _ _ n _ => arrayLengthOk n
  | .fcWraI64 _ _ n _ => arrayLengthOk n
  | .fcWraF32 _ _ n _ => arrayLengthOk n
  | .fcWraF64 _ _ n _ => arrayLengthOk n
  | .fcRdaU8 _ _ n => arrayLengthOk n
  | .fcRdaI8 _ _ n => arrayLengthOk n
  | .fcRdaU16 _ _ n => arrayLengthOk n
  | .fcRdaI16 _ _ n => arrayLengthOk n
  | .fcRdaU32 _ _ n => arrayLengthOk n
  | .fcRdaI32 _ _ n => arrayLengthOk n
  | .fcRdaU64 _ _ n => arrayLengthOk n
  | .fcRdaI64 _ _ n => arrayLengthOk n
  | .fcRdaF32 _ _ n => arrayLengthOk n
  | .fcRdaF64 _ _ n => arrayLengthOk n
  | .crcINIT => true
  | .crcACC _ _ => true
  | .crcBLOCK _ _ => true
  | .crcFRAME _ _ => true
  | .pkPACK _ => true
  | .pkBATCH _ => true
  | .psFEED _ => true
  | .psPUSH _ => true
  | .psSTATE => true
  | .catLOOKUP _ => true

/-- `i` is an operation as the spec writes it. -/
abbrev WellFormed (i : Instr) : Prop := i.wf = true

end Sys2Proof
end

