-- ==== Sys2Proof/Decode.lean ====
section
/-! DEFINITION. Numeric codes and bytes. The operation code is one byte (30_encoding.md R100, D2): `op[7:4]` the group,
`op[3:0]` the kind code of R86 in the field-codec groups. The spec gives the operands no bits: the operand bytes that
follow the code on the host's port are this model's own (assumption log 1 and 2). `decode` is total on any bytes and
rejects by name; `encode` is written from the same layout. The 16-bit descriptor word of R95 has its own pair. -/

namespace Sys2Proof

open Machine (leBytes leNat)

/-! ### Kinds and the descriptor word (R86, R95) -/

/-- The kind code of 30_encoding.md R86 (D3). -/
def Kind.code : Kind → Nat
  | .u8 => 0 | .i8 => 1 | .u16 => 2 | .i16 => 3 | .u32 => 4 | .i32 => 5
  | .u64 => 6 | .i64 => 7 | .f32 => 8 | .f64 => 9 | .text => 10

/-- Codes 11 to 15 are reserved and name no kind (R96 a). -/
def Kind.ofCode : Nat → Option Kind
  | 0 => some .u8 | 1 => some .i8 | 2 => some .u16 | 3 => some .i16 | 4 => some .u32 | 5 => some .i32
  | 6 => some .u64 | 7 => some .i64 | 8 => some .f32 | 9 => some .f64 | 10 => some .text
  | _ => none

/-- The source's string key of a kind (R86). -/
def Kind.key : Kind → String
  | .u8 => "uint8" | .i8 => "int8" | .u16 => "uint16" | .i16 => "int16" | .u32 => "uint32" | .i32 => "int32"
  | .u64 => "uint64" | .i64 => "int64" | .f32 => "float" | .f64 => "double" | .text => "char"

/-- The descriptor word of R95: `desc[3:0]` kind code, `desc[4]` `is_extension`, `desc[7:5]` zero, `desc[15:8]`
`array_length`. A longer array has no word. The name takes no part in it. -/
def Desc.word (d : Desc) : Option (BitVec 16) :=
  if d.arrayLength < 256 then
    some (BitVec.ofNat 16 (d.kind.code + 16 * d.isExtension.toNat + 256 * d.arrayLength))
  else none

/-- The descriptor a word of R95 stands for, under a given name: none for a reserved kind code or a non-zero
`desc[7:5]`. -/
def Desc.ofWord (name : String) (w : BitVec 16) : Option Desc :=
  if w.toNat / 32 % 8 = 0 then
    (Kind.ofCode (w.toNat % 16)).map fun k =>
      { name := name, kind := k, isExtension := w.toNat / 16 % 2 == 1, arrayLength := w.toNat / 256 }
  else none

/-- The operation code the dispatch of R101 selects for writing: `op = (0b00, n > 0 and K != Text, 0b0, K)`; none for
`(Text, 0)`. -/
def Desc.writeOp (d : Desc) : Option Byte :=
  if d.kind = .text ∧ d.arrayLength = 0 then none
  else some (BitVec.ofNat 8 ((if 0 < d.arrayLength ∧ d.kind ≠ .text then 32 else 0) + d.kind.code))

/-- For reading: the same with `op[4]` set (R101). -/
def Desc.readOp (d : Desc) : Option Byte := d.writeOp.map (· ||| 0x10)

/-! ### Operand bytes (the model's own layout, assumption log 1 and 2) -/

/-- A reader of operand bytes: the operand and the bytes after it, or none where the bytes give none. -/
abbrev Take (α : Type) := Bytes → Option (α × Bytes)

/-- `f` of one operand. -/
def take1 {α β : Type} (f : α → β) (a : Take α) : Take β := fun bs =>
  match a bs with
  | none => none
  | some (x, rest) => some (f x, rest)

/-- `f` of an operand and of what the next reader gives. -/
def takeThen {α β : Type} (a : Take α) (f : α → Take β) : Take β := fun bs =>
  match a bs with
  | none => none
  | some (x, rest) => f x rest

/-- `fuel + 1` digits of 7 bits at most, lowest first, bit 7 set on every byte but the last. -/
def encodeDigits : Nat → Nat → Bytes
  | 0, n => [BitVec.ofNat 8 n]
  | k + 1, n => if n < 128 then [BitVec.ofNat 8 n] else BitVec.ofNat 8 (128 + n % 128) :: encodeDigits k (n / 128)

/-- A number of any size. -/
def encodeNat (n : Nat) : Bytes := encodeDigits n.log2 n

/-- The number `encodeNat` wrote. -/
def takeNat : Take Nat
  | [] => none
  | b :: bs =>
    if b.toNat < 128 then some (b.toNat, bs)
    else match takeNat bs with
      | none => none
      | some (n, rest) => some (b.toNat - 128 + 128 * n, rest)

/-- An integer of any size and sign: even codes are the numbers from 0 up, odd codes the numbers from -1 down. -/
def encodeInt (v : Int) : Bytes :=
  match v with
  | .ofNat n => encodeNat (2 * n)
  | .negSucc n => encodeNat (2 * n + 1)

/-- The integer `encodeInt` wrote. -/
def takeInt : Take Int := take1 (fun n => if n % 2 = 0 then Int.ofNat (n / 2) else Int.negSucc (n / 2)) takeNat

/-- An `array_length` operand, greater than 0 (WellFormed.lean), stored less one. -/
def encodeCount (n : Nat) : Bytes := encodeNat (n - 1)

/-- The `array_length` that `encodeCount` wrote. -/
def takeCount : Take Nat := take1 (· + 1) takeNat

/-- One byte. -/
def takeByte : Take Byte
  | [] => none
  | b :: bs => some (b, bs)

/-- `n` bytes as they stand. -/
def takeRaw (n : Nat) : Take Bytes := fun bs =>
  if n ≤ bs.length then some (bs.take n, bs.drop n) else none

/-- A bit pattern of `8 * n` bits as `n` bytes, lowest first. -/
def encodeBits (n : Nat) {w : Nat} (v : BitVec w) : Bytes := leBytes n v.toNat

/-- A 16-bit operand. -/
def takeBits16 : Take (BitVec 16) := take1 (fun b => BitVec.ofNat 16 (leNat b)) (takeRaw 2)
/-- A 24-bit operand. -/
def takeBits24 : Take (BitVec 24) := take1 (fun b => BitVec.ofNat 24 (leNat b)) (takeRaw 3)
/-- A `b32` operand. -/
def takeBits32 : Take (BitVec 32) := take1 (fun b => BitVec.ofNat 32 (leNat b)) (takeRaw 4)
/-- A `b64` operand. -/
def takeBits64 : Take (BitVec 64) := take1 (fun b => BitVec.ofNat 64 (leNat b)) (takeRaw 8)

/-- A byte sequence: its length, then its bytes. -/
def encodeBytes (b : Bytes) : Bytes := encodeNat b.length ++ b

/-- The byte sequence `encodeBytes` wrote. -/
def takeBytes : Take Bytes := takeThen takeNat takeRaw

/-- The buffer operand `B` of a field operation: as `encodeBytes`, but with bit 3 of the length inverted, so that
operand bytes of zeros name a buffer of eight zero bytes, which holds one field of every scalar kind (log 2). -/
def encodeBuffer (b : Bytes) : Bytes := encodeNat (b.length ^^^ 8) ++ b

/-- The buffer `encodeBuffer` wrote. -/
def takeBuffer : Take Bytes := takeThen takeNat fun n => takeRaw (n ^^^ 8)

/-- `n` operands of one sort, one after another. -/
def takeMany {α : Type} (t : Take α) : Nat → Take (List α)
  | 0 => fun bs => some ([], bs)
  | n + 1 => takeThen t fun x => take1 (x :: ·) (takeMany t n)

/-- A list: how many, then each. -/
def encodeList {α : Type} (e : α → Bytes) (xs : List α) : Bytes := encodeNat xs.length ++ xs.flatMap e

/-- The list `encodeList` wrote. -/
def takeList {α : Type} (t : Take α) : Take (List α) := takeThen takeNat (takeMany t)

/-- A scalar: a tag byte, then the integer or the pattern. -/
def encodeScalar : Scalar → Bytes
  | .int v => 0 :: encodeInt v
  | .b32 p => 1 :: encodeBits 4 p
  | .b64 p => 2 :: encodeBits 8 p

/-- The scalar `encodeScalar` wrote. -/
def takeScalar : Take Scalar
  | [] => none
  | tag :: bs =>
    match tag.toNat with
    | 0 => take1 .int takeInt bs
    | 1 => take1 .b32 takeBits32 bs
    | 2 => take1 .b64 takeBits64 bs
    | _ => none

/-- A field value: a tag byte, then the scalar, the text or the list. -/
def encodeValue : Value → Bytes
  | .scalar x => 0 :: encodeScalar x
  | .text t => 1 :: encodeBytes t
  | .list xs => 2 :: encodeList encodeScalar xs

/-- The value `encodeValue` wrote. -/
def takeValue : Take Value
  | [] => none
  | tag :: bs =>
    match tag.toNat with
    | 0 => take1 .scalar takeScalar bs
    | 1 => take1 .text takeBytes bs
    | 2 => take1 .list (takeList takeScalar) bs
    | _ => none

/-- A message: its four header numbers, then its values. -/
def encodeMsg (m : Msg) : Bytes :=
  encodeNat m.messageId ++ (encodeNat m.systemId ++ (encodeNat m.componentId ++ (encodeNat m.sequence ++
    encodeList encodeValue m.values)))

/-- The message `encodeMsg` wrote. -/
def takeMsg : Take Msg :=
  takeThen takeNat fun id => takeThen takeNat fun sys => takeThen takeNat fun comp => takeThen takeNat fun seq =>
    take1 (fun vs => { messageId := id, systemId := sys, componentId := comp, sequence := seq, values := vs })
      (takeList takeValue)

/-! ### Operations -/

/-- Why bytes are no operation. -/
inductive DecodeError where
  /-- there are no bytes -/
  | empty
  /-- the code names no operation (30_encoding.md R96 g, U19) -/
  | noOperation (op : Byte)
  /-- the operand bytes of a code that names an operation give no operands (the model's own layout) -/
  | malformedOperands (op : Byte)
  deriving DecidableEq, Repr

/-- The reader of the operands a code asks for; none for a code that names no operation (R96 g). -/
def takeOperands : Nat → Option (Take Instr)
  | 0x00 => some (takeThen takeBuffer fun B => takeThen takeNat fun o => take1 (fun v => .fcWrU8 B o v) takeInt)
  | 0x01 => some (takeThen takeBuffer fun B => takeThen takeNat fun o => take1 (fun v => .fcWrI8 B o v) takeInt)
  | 0x02 => some (takeThen takeBuffer fun B => takeThen takeNat fun o => take1 (fun v => .fcWrU16 B o v) takeInt)
  | 0x03 => some (takeThen takeBuffer fun B => takeThen takeNat fun o => take1 (fun v => .fcWrI16 B o v) takeInt)
  | 0x04 => some (takeThen takeBuffer fun B => takeThen takeNat fun o => take1 (fun v => .fcWrU32 B o v) takeInt)
  | 0x05 => some (takeThen takeBuffer fun B => takeThen takeNat fun o => take1 (fun v => .fcWrI32 B o v) takeInt)
  | 0x06 => some (takeThen takeBuffer fun B => takeThen takeNat fun o => take1 (fun v => .fcWrU64 B o v) takeInt)
  | 0x07 => some (takeThen takeBuffer fun B => takeThen takeNat fun o => take1 (fun v => .fcWrI64 B o v) takeInt)
  | 0x08 => some (takeThen takeBuffer fun B => takeThen takeNat fun o => take1 (fun v => .fcWrF32 B o v) takeBits32)
  | 0x09 => some (takeThen takeBuffer fun B => takeThen takeNat fun o => take1 (fun v => .fcWrF64 B o v) takeBits64)
  | 0x0A => some (takeThen takeBuffer fun B => takeThen takeNat fun o => takeThen takeCount fun N =>
      take1 (fun t => .fcWrTEXT B o N t) takeBytes)
  | 0x10 => some (takeThen takeBuffer fun B => take1 (fun o => .fcRdU8 B o) takeNat)
  | 0x11 => some (takeThen takeBuffer fun B => take1 (fun o => .fcRdI8 B o) takeNat)
  | 0x12 => some (takeThen takeBuffer fun B => take1 (fun o => .fcRdU16 B o) takeNat)
  | 0x13 => some (takeThen takeBuffer fun B => take1 (fun o => .fcRdI16 B o) takeNat)
  | 0x14 => some (takeThen takeBuffer fun B => take1 (fun o => .fcRdU32 B o) takeNat)
  | 0x15 => some (takeThen takeBuffer fun B => take1 (fun o => .fcRdI32 B o) takeNat)
  | 0x16 => some (takeThen takeBuffer fun B => take1 (fun o => .fcRdU64 B o) takeNat)
  | 0x17 => some (takeThen takeBuffer fun B => take1 (fun o => .fcRdI64 B o) takeNat)
  | 0x18 => some (takeThen takeBuffer fun B => take1 (fun o => .fcRdF32 B o) takeNat)
  | 0x19 => some (takeThen takeBuffer fun B => take1 (fun o => .fcRdF64 B o) takeNat)
  | 0x1A => some (takeThen takeBuffer fun B => takeThen takeNat fun o => take1 (fun N => .fcRdTEXT B o N) takeCount)
  | 0x20 => some (takeThen takeBuffer fun B => takeThen takeNat fun o => takeThen takeCount fun n =>
      take1 (fun vs => .fcWraU8 B o n vs) (takeList takeInt))
  | 0x21 => some (takeThen takeBuffer fun B => takeThen takeNat fun o => takeThen takeCount fun n =>
      take1 (fun vs => .fcWraI8 B o n vs) (takeList takeInt))
  | 0x22 => some (takeThen takeBuffer fun B => takeThen takeNat fun o => takeThen takeCount fun n =>
      take1 (fun vs => .fcWraU16 B o n vs) (takeList takeInt))
  | 0x23 => some (takeThen takeBuffer fun B => takeThen takeNat fun o => takeThen takeCount fun n =>
      take1 (fun vs => .fcWraI16 B o n vs) (takeList takeInt))
  | 0x24 => some (takeThen takeBuffer fun B => takeThen takeNat fun o => takeThen takeCount fun n =>
      take1 (fun vs => .fcWraU32 B o n vs) (takeList takeInt))
  | 0x25 => some (takeThen takeBuffer fun B => takeThen takeNat fun o => takeThen takeCount fun n =>
      take1 (fun vs => .fcWraI32 B o n vs) (takeList takeInt))
  | 0x26 => some (takeThen takeBuffer fun B => takeThen takeNat fun o => takeThen takeCount fun n =>
      take1 (fun vs => .fcWraU64 B o n vs) (takeList takeInt))
  | 0x27 => some (takeThen takeBuffer fun B => takeThen takeNat fun o => takeThen takeCount fun n =>
      take1 (fun vs => .fcWraI64 B o n vs) (takeList takeInt))
  | 0x28 => some (takeThen takeBuffer fun B => takeThen takeNat fun o => takeThen takeCount fun n =>
      take1 (fun vs => .fcWraF32 B o n vs) (takeList takeBits32))
  | 0x29 => some (takeThen takeBuffer fun B => takeThen takeNat fun o => takeThen takeCount fun n =>
      take1 (fun vs => .fcWraF64 B o n vs) (takeList takeBits64))
  | 0x30 => some (takeThen takeBuffer fun B => takeThen takeNat fun o => take1 (fun n => .fcRdaU8 B o n) takeCount)
  | 0x31 => some (takeThen takeBuffer fun B => takeThen takeNat fun o => take1 (fun n => .fcRdaI8 B o n) takeCount)
  | 0x32 => some (takeThen takeBuffer fun B => takeThen takeNat fun o => take1 (fun n => .fcRdaU16 B o n) takeCount)
  | 0x33 => some (takeThen takeBuffer fun B => takeThen takeNat fun o => take1 (fun n => .fcRdaI16 B o n) takeCount)
  | 0x34 => some (takeThen takeBuffer fun B => takeThen takeNat fun o => take1 (fun n => .fcRdaU32 B o n) takeCount)
  | 0x35 => some (takeThen takeBuffer fun B => takeThen takeNat fun o => take1 (fun n => .fcRdaI32 B o n) takeCount)
  | 0x36 => some (takeThen takeBuffer fun B => takeThen takeNat fun o => take1 (fun n => .fcRdaU64 B o n) takeCount)
  | 0x37 => some (takeThen takeBuffer fun B => takeThen takeNat fun o => take1 (fun n => .fcRdaI64 B o n) takeCount)
  | 0x38 => some (takeThen takeBuffer fun B => takeThen takeNat fun o => take1 (fun n => .fcRdaF32 B o n) takeCount)
  | 0x39 => some (takeThen takeBuffer fun B => takeThen takeNat fun o => take1 (fun n => .fcRdaF64 B o n) takeCount)
  | 0x40 => some (fun bs => some (.crcINIT, bs))
  | 0x41 => some (takeThen takeBits16 fun acc => take1 (fun b => .crcACC acc b) takeByte)
  | 0x42 => some (takeThen takeBits16 fun acc => take1 (fun B => .crcBLOCK acc B) takeBytes)
  | 0x43 => some (takeThen takeNat fun seed => take1 (fun B => .crcFRAME seed B) takeBytes)
  | 0x50 => some (take1 (fun m => .pkPACK m) takeMsg)
  | 0x51 => some (take1 (fun ms => .pkBATCH ms) (takeList takeMsg))
  | 0x60 => some (take1 (fun chunk => .psFEED chunk) takeBytes)
  | 0x61 => some (take1 (fun b => .psPUSH b) takeByte)
  | 0x62 => some (fun bs => some (.psSTATE, bs))
  | 0x70 => some (take1 (fun id => .catLOOKUP id) takeBits24)
  | _ => none

/-- The first operation of the bytes and the bytes after it. Total on any bytes. -/
def decode : Bytes → Except DecodeError (Instr × Bytes)
  | [] => .error .empty
  | op :: bs =>
    match takeOperands op.toNat with
    | none => .error (.noOperation op)
    | some t =>
      match t bs with
      | none => .error (.malformedOperands op)
      | some r => .ok r

/-- The operation code of 30_encoding.md R100. -/
def Instr.op : Instr → Byte
  | .fcWrU8 _ _ _ => 0x00
  | .fcWrI8 _ _ _ => 0x01
  | .fcWrU16 _ _ _ => 0x02
  | .fcWrI16 _ _ _ => 0x03
  | .fcWrU32 _ _ _ => 0x04
  | .fcWrI32 _ _ _ => 0x05
  | .fcWrU64 _ _ _ => 0x06
  | .fcWrI64 _ _ _ => 0x07
  | .fcWrF32 _ _ _ => 0x08
  | .fcWrF64 _ _ _ => 0x09
  | .fcWrTEXT _ _ _ _ => 0x0A
  | .fcRdU8 _ _ => 0x10
  | .fcRdI8 _ _ => 0x11
  | .fcRdU16 _ _ => 0x12
  | .fcRdI16 _ _ => 0x13
  | .fcRdU32 _ _ => 0x14
  | .fcRdI32 _ _ => 0x15
  | .fcRdU64 _ _ => 0x16
  | .fcRdI64 _ _ => 0x17
  | .fcRdF32 _ _ => 0x18
  | .fcRdF64 _ _ => 0x19
  | .fcRdTEXT _ _ _ => 0x1A
  | .fcWraU8 _ _ _ _ => 0x20
  | .fcWraI8 _ _ _ _ => 0x21
  | .fcWraU16 _ _ _ _ => 0x22
  | .fcWraI16 _ _ _ _ => 0x23
  | .fcWraU32 _ _ _ _ => 0x24
  | .fcWraI32 _ _ _ _ => 0x25
  | .fcWraU64 _ _ _ _ => 0x26
  | .fcWraI64 _ _ _ _ => 0x27
  | .fcWraF32 _ _ _ _ => 0x28
  | .fcWraF64 _ _ _ _ => 0x29
  | .fcRdaU8 _ _ _ => 0x30
  | .fcRdaI8 _ _ _ => 0x31
  | .fcRdaU16 _ _ _ => 0x32
  | .fcRdaI16 _ _ _ => 0x33
  | .fcRdaU32 _ _ _ => 0x34
  | .fcRdaI32 _ _ _ => 0x35
  | .fcRdaU64 _ _ _ => 0x36
  | .fcRdaI64 _ _ _ => 0x37
  | .fcRdaF32 _ _ _ => 0x38
  | .fcRdaF64 _ _ _ => 0x39
  | .crcINIT => 0x40
  | .crcACC _ _ => 0x41
  | .crcBLOCK _ _ => 0x42
  | .crcFRAME _ _ => 0x43
  | .pkPACK _ => 0x50
  | .pkBATCH _ => 0x51
  | .psFEED _ => 0x60
  | .psPUSH _ => 0x61
  | .psSTATE => 0x62
  | .catLOOKUP _ => 0x70

/-- The operand bytes of an operation, its operands in the order of R100. -/
def Instr.operands : Instr → Bytes
  | .fcWrU8 B o v => encodeBuffer B ++ (encodeNat o ++ encodeInt v)
  | .fcWrI8 B o v => encodeBuffer B ++ (encodeNat o ++ encodeInt v)
  | .fcWrU16 B o v => encodeBuffer B ++ (encodeNat o ++ encodeInt v)
  | .fcWrI16 B o v => encodeBuffer B ++ (encodeNat o ++ encodeInt v)
  | .fcWrU32 B o v => encodeBuffer B ++ (encodeNat o ++ encodeInt v)
  | .fcWrI32 B o v => encodeBuffer B ++ (encodeNat o ++ encodeInt v)
  | .fcWrU64 B o v => encodeBuffer B ++ (encodeNat o ++ encodeInt v)
  | .fcWrI64 B o v => encodeBuffer B ++ (encodeNat o ++ encodeInt v)
  | .fcWrF32 B o v => encodeBuffer B ++ (encodeNat o ++ (encodeBits 4) v)
  | .fcWrF64 B o v => encodeBuffer B ++ (encodeNat o ++ (encodeBits 8) v)
  | .fcWrTEXT B o N t => encodeBuffer B ++ (encodeNat o ++ (encodeCount N ++ encodeBytes t))
  | .fcRdU8 B o => encodeBuffer B ++ encodeNat o
  | .fcRdI8 B o => encodeBuffer B ++ encodeNat o
  | .fcRdU16 B o => encodeBuffer B ++ encodeNat o
  | .fcRdI16 B o => encodeBuffer B ++ encodeNat o
  | .fcRdU32 B o => encodeBuffer B ++ encodeNat o
  | .fcRdI32 B o => encodeBuffer B ++ encodeNat o
  | .fcRdU64 B o => encodeBuffer B ++ encodeNat o
  | .fcRdI64 B o => encodeBuffer B ++ encodeNat o
  | .fcRdF32 B o => encodeBuffer B ++ encodeNat o
  | .fcRdF64 B o => encodeBuffer B ++ encodeNat o
  | .fcRdTEXT B o N => encodeBuffer B ++ (encodeNat o ++ encodeCount N)
  | .fcWraU8 B o n vs => encodeBuffer B ++ (encodeNat o ++ (encodeCount n ++ encodeList encodeInt vs))
  | .fcWraI8 B o n vs => encodeBuffer B ++ (encodeNat o ++ (encodeCount n ++ encodeList encodeInt vs))
  | .fcWraU16 B o n vs => encodeBuffer B ++ (encodeNat o ++ (encodeCount n ++ encodeList encodeInt vs))
  | .fcWraI16 B o n vs => encodeBuffer B ++ (encodeNat o ++ (encodeCount n ++ encodeList encodeInt vs))
  | .fcWraU32 B o n vs => encodeBuffer B ++ (encodeNat o ++ (encodeCount n ++ encodeList encodeInt vs))
  | .fcWraI32 B o n vs => encodeBuffer B ++ (encodeNat o ++ (encodeCount n ++ encodeList encodeInt vs))
  | .fcWraU64 B o n vs => encodeBuffer B ++ (encodeNat o ++ (encodeCount n ++ encodeList encodeInt vs))
  | .fcWraI64 B o n vs => encodeBuffer B ++ (encodeNat o ++ (encodeCount n ++ encodeList encodeInt vs))
  | .fcWraF32 B o n vs => encodeBuffer B ++ (encodeNat o ++ (encodeCount n ++ encodeList (encodeBits 4) vs))
  | .fcWraF64 B o n vs => encodeBuffer B ++ (encodeNat o ++ (encodeCount n ++ encodeList (encodeBits 8) vs))
  | .fcRdaU8 B o n => encodeBuffer B ++ (encodeNat o ++ encodeCount n)
  | .fcRdaI8 B o n => encodeBuffer B ++ (encodeNat o ++ encodeCount n)
  | .fcRdaU16 B o n => encodeBuffer B ++ (encodeNat o ++ encodeCount n)
  | .fcRdaI16 B o n => encodeBuffer B ++ (encodeNat o ++ encodeCount n)
  | .fcRdaU32 B o n => encodeBuffer B ++ (encodeNat o ++ encodeCount n)
  | .fcRdaI32 B o n => encodeBuffer B ++ (encodeNat o ++ encodeCount n)
  | .fcRdaU64 B o n => encodeBuffer B ++ (encodeNat o ++ encodeCount n)
  | .fcRdaI64 B o n => encodeBuffer B ++ (encodeNat o ++ encodeCount n)
  | .fcRdaF32 B o n => encodeBuffer B ++ (encodeNat o ++ encodeCount n)
  | .fcRdaF64 B o n => encodeBuffer B ++ (encodeNat o ++ encodeCount n)
  | .crcINIT => []
  | .crcACC acc b => encodeBits 2 acc ++ [b]
  | .crcBLOCK acc B => encodeBits 2 acc ++ encodeBytes B
  | .crcFRAME seed B => encodeNat seed ++ encodeBytes B
  | .pkPACK m => encodeMsg m
  | .pkBATCH ms => encodeList encodeMsg ms
  | .psFEED chunk => encodeBytes chunk
  | .psPUSH b => [b]
  | .psSTATE => []
  | .catLOOKUP id => encodeBits 3 id

/-- The bytes of a well-formed operation: its code, then its operands. -/
def encode (i : Instr) : Bytes := i.op :: i.operands

/-! ### The table's words -/

/-- The bytes of an operation whose bits are `w`, numbered from bit 0 of the first byte: `nbits / 8` bytes of `w`, lowest
first, then operand bytes of zeros. The longest operation whose operand bytes are all zeros is `FC.WR.F64`, 19 bytes. -/
def tableBytes (nbits w : Nat) : Bytes := leBytes (nbits / 8) w ++ zeros 64

/-- The operation the decoder reads from a word of spec/opcode_table.json. -/
def decodeTableWord (nbits w : Nat) : Option Instr :=
  match decode (tableBytes nbits w) with
  | .ok (i, _) => some i
  | .error _ => none

/-- The bytes of exactly the operation `decodeTableWord` reads; all of `tableBytes` where it reads none. -/
def fetchBytes (nbits w : Nat) : Bytes :=
  match decode (tableBytes nbits w) with
  | .ok (_, rest) => (tableBytes nbits w).take ((tableBytes nbits w).length - rest.length)
  | .error _ => tableBytes nbits w

end Sys2Proof
end

