-- ==== Sys2Proof/Machine/State.lean ====
section
/-! DEFINITION. The state of one instance of the block: the parser's tuple `ps` (10_state.md R20, R24 to R27), the
instance's parameters (00_scope.md R9), and the model's own port, results and trace (assumption log 3, 8, 9). Plain
data throughout. -/

namespace Sys2Proof.Machine

/-- `ps.st`, the scan state (10_state.md R24). -/
inductive ScanState where
  /-- `WaitingForMagicByte` -/
  | magic
  /-- `WaitingForHeaderComplete` -/
  | header
  /-- `WaitingForPayloadComplete` -/
  | payload
  /-- `WaitingForChecksumComplete` -/
  | checksum
  deriving DecidableEq, Repr

/-- The parser's tuple `ps = (st, buf, len, msgid)` (10_state.md R20): the block's only persistent state. -/
structure Parser where
  /-- the scan state (R24) -/
  st : ScanState
  /-- the carry-over buffer, index 0 the oldest byte retained (R25) -/
  buf : Bytes
  /-- the latched payload length (R26) -/
  len : BitVec 8
  /-- the latched message identifier (R27) -/
  msgid : BitVec 24
  deriving DecidableEq, Repr

/-- The Message Catalog `CAT` as data: entries by id, the first with an id is that id's, an id not listed is
`not_found` (45_catalog_and_facade.md R270, R271). -/
abbrev Catalog := List (Nat × Entry)

/-- The canonical form of a catalog: ids strictly rising and of 24 bits, so that equal catalogs are equal data
(assumption log 7). -/
def Catalog.wf (c : Catalog) : Bool :=
  decide (c.Pairwise (fun a b => a.1 < b.1)) && c.all (fun a => decide (a.1 < Config.msgIdSpace))

/-- The five anomalies (60_exceptions.md R291): labels for a model's trace, carried by no port of the block. -/
inductive Anomaly where
  /-- `GARBAGE_PREFIX`, R292 -/
  | garbagePrefix
  /-- `INCOMPLETE`, R293 -/
  | incomplete
  /-- `UNKNOWN_ID`, R294 -/
  | unknownId
  /-- `CRC_MISMATCH`, R295 -/
  | crcMismatch
  /-- `VALUE_RANGE`, R296 -/
  | valueRange
  deriving DecidableEq, Repr

/-- What an operation returns to the host (30_encoding.md R100, the column "result"). -/
inductive Result where
  /-- `B` updated: `FC.WR.*`, `FC.WRA.*` -/
  | buffer (B : Bytes)
  /-- `v`, `s` or `vs`: `FC.RD.*`, `FC.RDA.*` -/
  | value (v : Value)
  /-- `acc` or `c`: `CRC.*` -/
  | crc (acc : BitVec 16)
  /-- the frame or frames: `PK.*` -/
  | frames (F : Bytes)
  /-- the messages emitted, in frame order: `PS.FEED`, `PS.PUSH` -/
  | messages (ms : List Msg)
  /-- the state code: `PS.STATE` -/
  | scanCode (code : BitVec 2)
  /-- `Entry` or `not_found`: `CAT.LOOKUP` -/
  | entry (e : Option Entry)
  deriving DecidableEq, Repr

/-- The reasons the block stops with a fault: there are none. "No operation of the block faults, traps, throws or
returns an error value" (60_exceptions.md R290). -/
inductive Fault where
  deriving DecidableEq, Repr

/-- The reasons the model gives an operation no result: the spec's `refuse` (00_scope.md R12), each under its own name.
Every one is safe: the model stops where a real implementation might go on, so no false claim becomes provable. -/
inductive Refusal where
  /-- raised by an arm of exec whose operation has no meaning yet; safe -/
  | notModelled (mnemonic : String)
  /-- raised by step: the code on the port names no operation (30_encoding.md R96 g, U19); safe -/
  | noOperation (op : Byte)
  /-- raised by step: the port's bytes after a code are no operands in the model's own layout (log 1); safe -/
  | malformedOperands (op : Byte)
  /-- raised by every FC operation: the field's byte range does not lie inside the buffer (41_field_codec_write.md R140,
  42_field_codec_read.md R170, D20); safe -/
  | rangeOutsideBuffer
  /-- raised by FC.WR.TEXT, FC.WRA.*, FC.RD.TEXT and FC.RDA.*: the array_length operand is 0 where the spec has it
  greater than 0 (R152, R153, R182, R183; log 10); safe -/
  | arrayLengthZero
  /-- raised by PK.PACK and PK.BATCH: the catalog does not know the id (43_packer.md R211 a, D18); safe -/
  | unknownId
  /-- raised by PK.PACK, PK.BATCH, PS.FEED and PS.PUSH: the catalog entry is not well-formed (30_encoding.md R93, D9,
  D10); safe -/
  | entryNotWellFormed
  /-- raised by PK.PACK and PK.BATCH: the number of values is not the number of descriptors (R211 c, D20); safe -/
  | valueCount
  /-- raised by PK.PACK and PK.BATCH: a value has the wrong shape for its descriptor (R211 c, D20); safe -/
  | valueShape
  /-- raised by PS.FEED and PS.PUSH: the buffer and the chunk together exceed BUF_CAP (U4, D13; log 6); safe -/
  | bufferOverCapacity
  deriving DecidableEq, Repr

/-- One instance of the block. -/
structure State where
  /-- the parser's tuple (10_state.md R20) -/
  ps : Parser
  /-- `CAT`, fixed for the life of the instance (00_scope.md R9, 45_catalog_and_facade.md R271) -/
  cat : Catalog
  /-- `BUF_CAP`, none where the buffer has no bound (00_scope.md R9, D13) -/
  bufCap : Option Nat
  /-- the model's own: the operations the host has issued and the block has not begun (log 3) -/
  port : Bytes
  /-- the model's own: what the operations so far returned to the host, oldest first (log 8) -/
  results : List Result
  /-- the model's own: the anomalies so far, oldest first (log 9) -/
  trace : List Anomaly
  deriving DecidableEq, Repr

/-- What a meaning answers. -/
abbrev Outcome := Host.Outcome State Fault Refusal

/-- The parser right after the creation of an instance (10_state.md R36, 70_reset_and_hazards.md R320). The two latches
have no reset value in the spec and are 0 here: DESIGN CHOICE, assumption log 5. -/
def Parser.reset : Parser := { st := .magic, buf := [], len := 0, msgid := 0 }

/-- The creation of an instance with a catalog, the block's only reset (45_catalog_and_facade.md R279,
70_reset_and_hazards.md R320, R322). The buffer has no bound (00_scope.md R9). -/
def State.create (cat : Catalog) : State :=
  { ps := Parser.reset, cat := cat, bufCap := none, port := [], results := [], trace := [] }

/-- The machine right after reset: an instance created with the empty catalog (DESIGN CHOICE, assumption log 4: the
spec leaves the catalog open). -/
def State.reset : State := State.create []

end Sys2Proof.Machine
end

