-- ==== Sys2Proof/Machine/Operands.lean ====
section
/-! DEFINITION. The operand forms: kinds and their widths, the bit pattern a scalar writes and the scalar a pattern
reads as, the size of a descriptor and of an entry, well-formedness of an entry. -/

namespace Sys2Proof

/-- The width of a kind in bytes; a text field has one byte a character (30_encoding.md R86). -/
def Kind.width : Kind → Nat
  | .u8 | .i8 | .text => 1
  | .u16 | .i16 => 2
  | .u32 | .i32 | .f32 => 4
  | .u64 | .i64 | .f64 => 8

/-- The four signed kinds (30_encoding.md R86). -/
def Kind.signed : Kind → Bool
  | .i8 | .i16 | .i32 | .i64 => true
  | .u8 | .u16 | .u32 | .u64 | .f32 | .f64 | .text => false

/-- `sext` of a `W`-bit pattern (00_scope.md R11). -/
def sext (W v : Nat) : Int := if v < 2 ^ (W - 1) then (v : Int) else (v : Int) - 2 ^ W

/-- The number whose `width` little-endian bytes a write stores: `v mod 2^(8w)` for the eight integer kinds
(41_field_codec_write.md R141), the pattern itself for `F32` and `F64` (R150, R151); none where the scalar is not of the
kind's type (R211 c). -/
def Kind.pattern : Kind → Scalar → Option Nat
  | .u8, .int v | .i8, .int v => some (v % 2 ^ 8).toNat
  | .u16, .int v | .i16, .int v => some (v % 2 ^ 16).toNat
  | .u32, .int v | .i32, .int v => some (v % 2 ^ 32).toNat
  | .u64, .int v | .i64, .int v => some (v % 2 ^ 64).toNat
  | .f32, .b32 p => some p.toNat
  | .f64, .b64 p => some p.toNat
  | _, _ => none

/-- The scalar a pattern of the kind's width reads as (42_field_codec_read.md R172 to R181). -/
def Kind.scalarOf : Kind → Nat → Scalar
  | .u8, v | .u16, v | .u32, v | .u64, v => .int v
  | .i8, v => .int (sext 8 v)
  | .i16, v => .int (sext 16 v)
  | .i32, v => .int (sext 32 v)
  | .i64, v => .int (sext 64 v)
  | .f32, v => .b32 (BitVec.ofNat 32 v)
  | .f64, v => .b64 (BitVec.ofNat 64 v)
  | .text, v => .int v

/-- `size(d)` (43_packer.md R201). -/
def Desc.size (d : Desc) : Nat :=
  if d.arrayLength = 0 then d.kind.width else d.kind.width * d.arrayLength

/-- The sum of the sizes of a descriptor list (43_packer.md R201). -/
def sizes : List Desc → Nat
  | [] => 0
  | d :: ds => d.size + sizes ds

/-- `maxlen(e)` (43_packer.md R201). -/
def Entry.maxlen (e : Entry) : Nat := sizes e.descs

/-- Not a scalar `char`, for which the source gives neither a write nor a read rule (D10). -/
def Desc.wf (d : Desc) : Bool := !(decide (d.kind = .text) && decide (d.arrayLength = 0))

/-- A well-formed entry: no `(Text, 0)` descriptor and `maxlen(e) <= 255` (30_encoding.md R93; that every kind is one of
the eleven is the type `Kind`). -/
def Entry.wf (e : Entry) : Bool := e.descs.all Desc.wf && decide (e.maxlen ≤ Config.maxPayload)

end Sys2Proof

namespace Sys2Proof.Machine

/-- The state code of 10_state.md R24. -/
def ScanState.code : ScanState → BitVec 2
  | .magic => 0
  | .header => 1
  | .payload => 2
  | .checksum => 3

/-- The anomaly code of 60_exceptions.md R291. -/
def Anomaly.code : Anomaly → Nat
  | .garbagePrefix => 0
  | .incomplete => 1
  | .unknownId => 2
  | .crcMismatch => 3
  | .valueRange => 4

/-- `CAT(id)` (45_catalog_and_facade.md R270): the entry, or none for `not_found`. -/
def Catalog.lookup (c : Catalog) (id : BitVec 24) : Option Entry :=
  (c.find? (fun a => a.1 == id.toNat)).map (·.2)

end Sys2Proof.Machine
end

