-- ==== Sys2Proof/Machine/Flags.lean ====
section
/-! DEFINITION. The block has no flags (10_state.md R34). What stands in their place is the one label an operation's
operands decide, VALUE_RANGE (60_exceptions.md R291, R296): whether a value lies outside its field. It changes no
result; the value wraps or is cut all the same. -/

namespace Sys2Proof

/-- The scalar lies inside the kind's range (30_encoding.md R87). A pattern always does. -/
def Kind.holds (k : Kind) : Scalar → Bool
  | .int v => if k.signed then decide (-2 ^ (8 * k.width - 1) ≤ v ∧ v < 2 ^ (8 * k.width - 1))
      else decide (0 ≤ v ∧ v < 2 ^ (8 * k.width))
  | .b32 _ => true
  | .b64 _ => true

end Sys2Proof

namespace Sys2Proof.Machine

/-- One VALUE_RANGE label where the value does not fit, none where it does (log 9). -/
def rangeLabel (fits : Bool) : List Anomaly := if fits then [] else [.valueRange]

/-- A scalar field: its value lies in the kind's range. -/
def scalarLabel (k : Kind) (x : Scalar) : List Anomaly := rangeLabel (k.holds x)

/-- A text field: at most `N` bytes (R296 counts the cut of R152). -/
def textLabel (N : Nat) (t : Bytes) : List Anomaly := rangeLabel (decide (t.length ≤ N))

/-- An array field: at most `n` elements, each in the kind's range (R296 counts the cut of R153). -/
def arrayLabel (k : Kind) (n : Nat) (xs : List Scalar) : List Anomaly :=
  rangeLabel (decide (xs.length ≤ n) && xs.all (k.holds ·))

end Sys2Proof.Machine
end

