-- ==== Sys2Proof/Machine/Ops.lean ====
section
/-! DEFINITION. The named operations every meaning is built from: reading and writing a byte space, the answer to the
host, the checksum, the field codec's writes and reads, the drop. Each is written from one rule or a few. -/

namespace Sys2Proof.Machine

/-! ### Byte spaces (00_scope.md R12, 20_memory.md R50 to R58) -/

/-- `B[a:b]` (00_scope.md R10). -/
def slice (B : Bytes) (a b : Nat) : Bytes := (B.take b).drop a

/-- `MemRead(B, off, n)` (R12). -/
def memRead (B : Bytes) (off n : Nat) : Nat := leNat (slice B off (off + n))

/-- `MemWrite(B, off, n, v)` (R12): the `n` bytes from `off` become the little-endian bytes of `v`, every other byte
stays (41_field_codec_write.md R140). It is used where `off + n <= |B|`. -/
def memWrite (B : Bytes) (off n v : Nat) : Bytes := B.take off ++ leBytes n v ++ B.drop (off + n)

/-- The bytes `t` written from `off` on, every other byte stays. -/
def putBytes (B : Bytes) (off : Nat) (t : Bytes) : Bytes := B.take off ++ t ++ B.drop (off + t.length)

/-- The byte range `o .. o + size - 1` lies inside `B` (R140, 42_field_codec_read.md R170). -/
abbrev inside (B : Bytes) (o size : Nat) : Bool := decide (o + size ≤ B.length)

/-! ### The answer to the host -/

/-- The state after an operation that returns `r` and raises the labels `tr`; nothing else changes. -/
def State.answer (s : State) (r : Result) (tr : List Anomaly) : State :=
  { s with results := s.results ++ [r], trace := s.trace ++ tr }

/-- An operation that leaves the block as it is: the result it computed goes to the host, or the model refuses. -/
def answer {α : Type} (f : α → Result) (s : State) : Except Refusal (α × List Anomaly) → Outcome
  | .ok r => .next (s.answer (f r.1) r.2)
  | .error e => .refused e

/-! ### The checksum (40_checksum.md) -/

/-- One of the eight shifts of R121. -/
def crcShift (x : BitVec 16) : BitVec 16 :=
  if x.getLsbD 0 then (x >>> 1) ^^^ Config.crcPolyReflected else x >>> 1

/-- The accumulator after one byte, bit by bit (R121). -/
def crcAcc (acc : BitVec 16) (b : Byte) : BitVec 16 :=
  Nat.repeat crcShift 8 (acc ^^^ b.setWidth 16)

/-- The table-free form of R122: three lines on bytes. -/
def crcAccRotate (acc : BitVec 16) (b : Byte) : BitVec 16 :=
  let t : Byte := b ^^^ acc.setWidth 8
  let t : Byte := t ^^^ (t <<< 4)
  (acc >>> 8) ^^^ (t.setWidth 16 <<< 8) ^^^ (t.setWidth 16 <<< 3) ^^^ (t.setWidth 16 >>> 4)

/-- The accumulator after a byte sequence, in rising index order (R124). -/
def crcBlock (acc : BitVec 16) : Bytes → BitVec 16
  | [] => acc
  | b :: bs => crcBlock (crcAcc acc b) bs

/-- The checksum of a frame body: start `0xFFFF`, the body, the seed byte last, no final exclusive-or (R125, R126). -/
def crcFrame (seed : Byte) (B : Bytes) : BitVec 16 := crcAcc (crcBlock Config.crcInit B) seed

/-! ### The field codec's writes (41_field_codec_write.md) -/

/-- The patterns of the scalars of a list; none where one is not of the kind's type. -/
def patterns (k : Kind) : List Scalar → Option (List Nat)
  | [] => some []
  | x :: xs =>
    match k.pattern x, patterns k xs with
    | some p, some ps => some (p :: ps)
    | _, _ => none

/-- Elements of `w` bytes written one after another from `o` on (R153). -/
def putElements (w : Nat) : List Nat → Bytes → Nat → Bytes
  | [], B, _ => B
  | p :: ps, B, o => putElements w ps (memWrite B o w p) (o + w)

/-- A scalar write `FC.WR.<K>` (R142 to R151). -/
def writeScalar (k : Kind) (B : Bytes) (o : Nat) (x : Scalar) : Except Refusal (Bytes × List Anomaly) :=
  match k.pattern x with
  | none => .error .valueShape
  | some p =>
    if inside B o k.width then .ok (memWrite B o k.width p, scalarLabel k x) else .error .rangeOutsideBuffer

/-- `FC.WR.TEXT` (R152): the first `min(N, |t|)` bytes, the rest of the field is not written. -/
def writeText (B : Bytes) (o N : Nat) (t : Bytes) : Except Refusal (Bytes × List Anomaly) :=
  if N = 0 then .error .arrayLengthZero
  else if inside B o N then .ok (putBytes B o (t.take N), textLabel N t) else .error .rangeOutsideBuffer

/-- An array write `FC.WRA.<K>` (R153 to R162): the first `min(n, |xs|)` elements, the rest of the field is not
written. The range is the whole field's, `n` elements (R140). -/
def writeArray (k : Kind) (B : Bytes) (o n : Nat) (xs : List Scalar) : Except Refusal (Bytes × List Anomaly) :=
  match patterns k xs with
  | none => .error .valueShape
  | some ps =>
    if n = 0 then .error .arrayLengthZero
    else if inside B o (k.width * n) then .ok (putElements k.width (ps.take n) B o, arrayLabel k n xs)
    else .error .rangeOutsideBuffer

/-- `FC.WRITE d, B, o, v` (30_encoding.md R101, R103): the one write the descriptor selects. -/
def writeField (d : Desc) (B : Bytes) (o : Nat) (v : Value) : Except Refusal (Bytes × List Anomaly) :=
  if d.arrayLength = 0 then
    match d.kind, v with
    | .text, _ => .error .entryNotWellFormed
    | k, .scalar x => writeScalar k B o x
    | _, _ => .error .valueShape
  else
    match d.kind, v with
    | .text, .text t => writeText B o d.arrayLength t
    | .text, _ => .error .valueShape
    | k, .list xs => writeArray k B o d.arrayLength xs
    | _, _ => .error .valueShape

/-! ### The field codec's reads (42_field_codec_read.md) -/

/-- The scalar at `o` (R172 to R181). -/
def scalarAt (k : Kind) (B : Bytes) (o : Nat) : Scalar := k.scalarOf (memRead B o k.width)

/-- `raw` without its trailing zero bytes (R182, D7). -/
def stripZeros (raw : Bytes) : Bytes := raw.rdropWhile (· == 0)

/-- The text in the `N` bytes at `o` (R182). -/
def textAt (B : Bytes) (o N : Nat) : Bytes := stripZeros (slice B o (o + N))

/-- The `n` elements at `o`, element `i` at `o + w*i` (R183 to R192). -/
def arrayAt (k : Kind) (B : Bytes) (o n : Nat) : List Scalar :=
  (List.range n).map fun i => scalarAt k B (o + k.width * i)

/-- A scalar read `FC.RD.<K>`. -/
def readScalar (k : Kind) (B : Bytes) (o : Nat) : Except Refusal (Value × List Anomaly) :=
  if inside B o k.width then .ok (.scalar (scalarAt k B o), []) else .error .rangeOutsideBuffer

/-- `FC.RD.TEXT`. -/
def readText (B : Bytes) (o N : Nat) : Except Refusal (Value × List Anomaly) :=
  if N = 0 then .error .arrayLengthZero
  else if inside B o N then .ok (.text (textAt B o N), []) else .error .rangeOutsideBuffer

/-- An array read `FC.RDA.<K>`. -/
def readArray (k : Kind) (B : Bytes) (o n : Nat) : Except Refusal (Value × List Anomaly) :=
  if n = 0 then .error .arrayLengthZero
  else if inside B o (k.width * n) then .ok (.list (arrayAt k B o n), []) else .error .rangeOutsideBuffer

/-- `FC.READ d, B, o` (30_encoding.md R101, R103) on a buffer that holds the field, as the parser's payload image
always does (42_field_codec_read.md R170): the one read the descriptor of a well-formed entry selects. -/
def fieldAt (d : Desc) (B : Bytes) (o : Nat) : Value :=
  if d.arrayLength = 0 then .scalar (scalarAt d.kind B o)
  else if d.kind = .text then .text (textAt B o d.arrayLength)
  else .list (arrayAt d.kind B o d.arrayLength)

/-! ### The drop (60_exceptions.md R297) -/

/-- `raise Drop(cause)`, the block's only trap-like action: the candidate's magic byte leaves the buffer, the state is
`MAGIC`, the latches keep their values. It saves nothing and has no return. -/
def dropCandidate (p : Parser) : Parser := { p with buf := p.buf.drop 1, st := .magic }

end Sys2Proof.Machine
end

