-- ==== Sys2Proof/Machine/Checksum.lean ====
section
/-! DEFINITION. The meanings of the CRC unit's four operations (40_checksum.md) and of the catalog lookup
(45_catalog_and_facade.md R270). None reads or writes any state of the block (R120, R271). -/

namespace Sys2Proof.Machine

/-- `CRC.INIT` (40_checksum.md R123). -/
def execCrcINIT (s : State) : Outcome := .next (s.answer (.crc Config.crcInit) [])

/-- `CRC.ACC acc, b` (R121). -/
def execCrcACC (acc : BitVec 16) (b : Byte) (s : State) : Outcome := .next (s.answer (.crc (crcAcc acc b)) [])

/-- `CRC.BLOCK acc, B` (R124). -/
def execCrcBLOCK (acc : BitVec 16) (B : Bytes) (s : State) : Outcome := .next (s.answer (.crc (crcBlock acc B)) [])

/-- `CRC.FRAME seed, B` (R125); the seed operand is used as `seed[7:0]` (D5). -/
def execCrcFRAME (seed : Nat) (B : Bytes) (s : State) : Outcome :=
  .next (s.answer (.crc (crcFrame (BitVec.ofNat 8 seed) B)) [])

/-- `CAT.LOOKUP id` (45_catalog_and_facade.md R270): the answer of the catalog; a lookup changes nothing (R271).
DESIGN CHOICE (log 14): the host may issue it, and an entry that is not well-formed is returned like any other; the
refusal of such an entry (30_encoding.md R93, D9) is the packer's and the parser's, after their lookup. -/
def execCatLOOKUP (id : BitVec 24) (s : State) : Outcome := .next (s.answer (.entry (s.cat.lookup id)) [])

end Sys2Proof.Machine
end

