-- ==== Sys2Proof/Machine/FieldRead.lean ====
section
/-! DEFINITION. The meanings of the field codec's reads (42_field_codec_read.md): each returns the field's value and
leaves the block as it is (R170). -/

namespace Sys2Proof.Machine

/-- `FC.RD.U8 B, o` (42_field_codec_read.md R172). -/
def execFcRdU8 (B : Bytes) (o : Nat) (s : State) : Outcome := answer .value s (readScalar .u8 B o)

/-- `FC.RD.I8 B, o` (42_field_codec_read.md R173). -/
def execFcRdI8 (B : Bytes) (o : Nat) (s : State) : Outcome := answer .value s (readScalar .i8 B o)

/-- `FC.RD.U16 B, o` (42_field_codec_read.md R174). -/
def execFcRdU16 (B : Bytes) (o : Nat) (s : State) : Outcome := answer .value s (readScalar .u16 B o)

/-- `FC.RD.I16 B, o` (42_field_codec_read.md R175). -/
def execFcRdI16 (B : Bytes) (o : Nat) (s : State) : Outcome := answer .value s (readScalar .i16 B o)

/-- `FC.RD.U32 B, o` (42_field_codec_read.md R176). -/
def execFcRdU32 (B : Bytes) (o : Nat) (s : State) : Outcome := answer .value s (readScalar .u32 B o)

/-- `FC.RD.I32 B, o` (42_field_codec_read.md R177). -/
def execFcRdI32 (B : Bytes) (o : Nat) (s : State) : Outcome := answer .value s (readScalar .i32 B o)

/-- `FC.RD.U64 B, o` (42_field_codec_read.md R178). -/
def execFcRdU64 (B : Bytes) (o : Nat) (s : State) : Outcome := answer .value s (readScalar .u64 B o)

/-- `FC.RD.I64 B, o` (42_field_codec_read.md R179). -/
def execFcRdI64 (B : Bytes) (o : Nat) (s : State) : Outcome := answer .value s (readScalar .i64 B o)

/-- `FC.RD.F32 B, o` (42_field_codec_read.md R180). -/
def execFcRdF32 (B : Bytes) (o : Nat) (s : State) : Outcome := answer .value s (readScalar .f32 B o)

/-- `FC.RD.F64 B, o` (42_field_codec_read.md R181). -/
def execFcRdF64 (B : Bytes) (o : Nat) (s : State) : Outcome := answer .value s (readScalar .f64 B o)

/-- `FC.RD.TEXT B, o, N` (42_field_codec_read.md R182). -/
def execFcRdTEXT (B : Bytes) (o N : Nat) (s : State) : Outcome := answer .value s (readText B o N)

/-- `FC.RDA.U8 B, o, n` (42_field_codec_read.md R183). -/
def execFcRdaU8 (B : Bytes) (o n : Nat) (s : State) : Outcome := answer .value s (readArray .u8 B o n)

/-- `FC.RDA.I8 B, o, n` (42_field_codec_read.md R184). -/
def execFcRdaI8 (B : Bytes) (o n : Nat) (s : State) : Outcome := answer .value s (readArray .i8 B o n)

/-- `FC.RDA.U16 B, o, n` (42_field_codec_read.md R185). -/
def execFcRdaU16 (B : Bytes) (o n : Nat) (s : State) : Outcome := answer .value s (readArray .u16 B o n)

/-- `FC.RDA.I16 B, o, n` (42_field_codec_read.md R186). -/
def execFcRdaI16 (B : Bytes) (o n : Nat) (s : State) : Outcome := answer .value s (readArray .i16 B o n)

/-- `FC.RDA.U32 B, o, n` (42_field_codec_read.md R187). -/
def execFcRdaU32 (B : Bytes) (o n : Nat) (s : State) : Outcome := answer .value s (readArray .u32 B o n)

/-- `FC.RDA.I32 B, o, n` (42_field_codec_read.md R188). -/
def execFcRdaI32 (B : Bytes) (o n : Nat) (s : State) : Outcome := answer .value s (readArray .i32 B o n)

/-- `FC.RDA.U64 B, o, n` (42_field_codec_read.md R189). -/
def execFcRdaU64 (B : Bytes) (o n : Nat) (s : State) : Outcome := answer .value s (readArray .u64 B o n)

/-- `FC.RDA.I64 B, o, n` (42_field_codec_read.md R190). -/
def execFcRdaI64 (B : Bytes) (o n : Nat) (s : State) : Outcome := answer .value s (readArray .i64 B o n)

/-- `FC.RDA.F32 B, o, n` (42_field_codec_read.md R191). -/
def execFcRdaF32 (B : Bytes) (o n : Nat) (s : State) : Outcome := answer .value s (readArray .f32 B o n)

/-- `FC.RDA.F64 B, o, n` (42_field_codec_read.md R192). -/
def execFcRdaF64 (B : Bytes) (o n : Nat) (s : State) : Outcome := answer .value s (readArray .f64 B o n)

end Sys2Proof.Machine
end

