-- ==== Sys2Proof/Machine/FieldWrite.lean ====
section
/-! DEFINITION. The meanings of the field codec's writes (41_field_codec_write.md): each returns the buffer updated and
leaves the block as it is (R140). -/

namespace Sys2Proof.Machine

/-- `FC.WR.U8 B, o, v` (41_field_codec_write.md R142). -/
def execFcWrU8 (B : Bytes) (o : Nat) (v : Int) (s : State) : Outcome :=
  answer .buffer s (writeScalar .u8 B o (.int v))

/-- `FC.WR.I8 B, o, v` (41_field_codec_write.md R143). -/
def execFcWrI8 (B : Bytes) (o : Nat) (v : Int) (s : State) : Outcome :=
  answer .buffer s (writeScalar .i8 B o (.int v))

/-- `FC.WR.U16 B, o, v` (41_field_codec_write.md R144). -/
def execFcWrU16 (B : Bytes) (o : Nat) (v : Int) (s : State) : Outcome :=
  answer .buffer s (writeScalar .u16 B o (.int v))

/-- `FC.WR.I16 B, o, v` (41_field_codec_write.md R145). -/
def execFcWrI16 (B : Bytes) (o : Nat) (v : Int) (s : State) : Outcome :=
  answer .buffer s (writeScalar .i16 B o (.int v))

/-- `FC.WR.U32 B, o, v` (41_field_codec_write.md R146). -/
def execFcWrU32 (B : Bytes) (o : Nat) (v : Int) (s : State) : Outcome :=
  answer .buffer s (writeScalar .u32 B o (.int v))

/-- `FC.WR.I32 B, o, v` (41_field_codec_write.md R147). -/
def execFcWrI32 (B : Bytes) (o : Nat) (v : Int) (s : State) : Outcome :=
  answer .buffer s (writeScalar .i32 B o (.int v))

/-- `FC.WR.U64 B, o, v` (41_field_codec_write.md R148). -/
def execFcWrU64 (B : Bytes) (o : Nat) (v : Int) (s : State) : Outcome :=
  answer .buffer s (writeScalar .u64 B o (.int v))

/-- `FC.WR.I64 B, o, v` (41_field_codec_write.md R149). -/
def execFcWrI64 (B : Bytes) (o : Nat) (v : Int) (s : State) : Outcome :=
  answer .buffer s (writeScalar .i64 B o (.int v))

/-- `FC.WR.F32 B, o, v` (41_field_codec_write.md R150). -/
def execFcWrF32 (B : Bytes) (o : Nat) (v : BitVec 32) (s : State) : Outcome :=
  answer .buffer s (writeScalar .f32 B o (.b32 v))

/-- `FC.WR.F64 B, o, v` (41_field_codec_write.md R151). -/
def execFcWrF64 (B : Bytes) (o : Nat) (v : BitVec 64) (s : State) : Outcome :=
  answer .buffer s (writeScalar .f64 B o (.b64 v))

/-- `FC.WR.TEXT B, o, N, t` (41_field_codec_write.md R152). -/
def execFcWrTEXT (B : Bytes) (o N : Nat) (t : Bytes) (s : State) : Outcome := answer .buffer s (writeText B o N t)

/-- `FC.WRA.U8 B, o, n, vs` (41_field_codec_write.md R153). -/
def execFcWraU8 (B : Bytes) (o n : Nat) (vs : List Int) (s : State) : Outcome :=
  answer .buffer s (writeArray .u8 B o n (vs.map Scalar.int))

/-- `FC.WRA.I8 B, o, n, vs` (41_field_codec_write.md R154). -/
def execFcWraI8 (B : Bytes) (o n : Nat) (vs : List Int) (s : State) : Outcome :=
  answer .buffer s (writeArray .i8 B o n (vs.map Scalar.int))

/-- `FC.WRA.U16 B, o, n, vs` (41_field_codec_write.md R155). -/
def execFcWraU16 (B : Bytes) (o n : Nat) (vs : List Int) (s : State) : Outcome :=
  answer .buffer s (writeArray .u16 B o n (vs.map Scalar.int))

/-- `FC.WRA.I16 B, o, n, vs` (41_field_codec_write.md R156). -/
def execFcWraI16 (B : Bytes) (o n : Nat) (vs : List Int) (s : State) : Outcome :=
  answer .buffer s (writeArray .i16 B o n (vs.map Scalar.int))

/-- `FC.WRA.U32 B, o, n, vs` (41_field_codec_write.md R157). -/
def execFcWraU32 (B : Bytes) (o n : Nat) (vs : List Int) (s : State) : Outcome :=
  answer .buffer s (writeArray .u32 B o n (vs.map Scalar.int))

/-- `FC.WRA.I32 B, o, n, vs` (41_field_codec_write.md R158). -/
def execFcWraI32 (B : Bytes) (o n : Nat) (vs : List Int) (s : State) : Outcome :=
  answer .buffer s (writeArray .i32 B o n (vs.map Scalar.int))

/-- `FC.WRA.U64 B, o, n, vs` (41_field_codec_write.md R159). -/
def execFcWraU64 (B : Bytes) (o n : Nat) (vs : List Int) (s : State) : Outcome :=
  answer .buffer s (writeArray .u64 B o n (vs.map Scalar.int))

/-- `FC.WRA.I64 B, o, n, vs` (41_field_codec_write.md R160). -/
def execFcWraI64 (B : Bytes) (o n : Nat) (vs : List Int) (s : State) : Outcome :=
  answer .buffer s (writeArray .i64 B o n (vs.map Scalar.int))

/-- `FC.WRA.F32 B, o, n, vs` (41_field_codec_write.md R161). -/
def execFcWraF32 (B : Bytes) (o n : Nat) (vs : List (BitVec 32)) (s : State) : Outcome :=
  answer .buffer s (writeArray .f32 B o n (vs.map Scalar.b32))

/-- `FC.WRA.F64 B, o, n, vs` (41_field_codec_write.md R162). -/
def execFcWraF64 (B : Bytes) (o n : Nat) (vs : List (BitVec 64)) (s : State) : Outcome :=
  answer .buffer s (writeArray .f64 B o n (vs.map Scalar.b64))

end Sys2Proof.Machine
end

