-- ==== Sys2Proof/Machine/Packer.lean ====
section
/-! DEFINITION. The packer: the six steps of PK.PACK, one function each in the source's order (43_packer.md R202 to
R207), PK.PACK (R208) and PK.BATCH (R209) as functions of the catalog and the messages alone (R210). -/

namespace Sys2Proof.Machine

/-- Step 1, allocate: a zero buffer for the header, the longest payload and the checksum (R202). -/
def packAllocate (e : Entry) : Bytes := zeros (Config.minFrame + e.maxlen)

/-- Step 2, the ten header bytes with the provisional length; the header values are reduced to their widths (R203,
D8). -/
def packHeader (e : Entry) (m : Msg) (F : Bytes) : Bytes :=
  memWrite
    (putBytes F 0 [Config.magic, BitVec.ofNat 8 e.maxlen, Config.incompat, Config.compat,
      BitVec.ofNat 8 m.sequence, BitVec.ofNat 8 m.systemId, BitVec.ofNat 8 m.componentId])
    7 Config.msgIdBytes (m.messageId % Config.msgIdSpace)

/-- Step 3, the field walk: each value at the running payload offset, which advances by the field's full size (R204). -/
def packFields : List Desc → List Value → Bytes → Nat → Except Refusal (Bytes × List Anomaly)
  | [], [], F, _ => .ok (F, [])
  | d :: ds, v :: vs, F, off =>
    match writeField d F (Config.hdrLen + off) v with
    | .error r => .error r
    | .ok (F', tr) =>
      match packFields ds vs F' (off + d.size) with
      | .error r => .error r
      | .ok (F'', tr') => .ok (F'', tr ++ tr')
  | _, _, _, _ => .error .valueCount

/-- Step 4, trailing-zero truncation: the effective payload length, counted down from `n` while the last remaining
payload byte is zero (R205). -/
def packTruncate (F : Bytes) : Nat → Nat
  | 0 => 0
  | n + 1 => if F.getD (Config.hdrLen + n) 0 = 0 then packTruncate F n else n + 1

/-- Step 5, re-slice and rewrite the length byte (R206). -/
def packSlice (F : Bytes) (len : Nat) : Bytes :=
  putBytes (F.take (Config.minFrame + len)) 1 [BitVec.ofNat 8 len]

/-- Step 6, the checksum over the frame body, low byte first (R207). -/
def packSeal (seed : Byte) (F : Bytes) (len : Nat) : Bytes :=
  memWrite F (Config.hdrLen + len) Config.crcLen (crcFrame seed (slice F 1 (Config.hdrLen + len))).toNat

/-- Steps 5 and 6 on the buffer the field walk left, with the length step 4 finds. -/
def packFinish (e : Entry) (F : Bytes) : Bytes :=
  let len := packTruncate F e.maxlen
  packSeal e.seed (packSlice F len) len

/-- `PK.PACK m` (R208). The catalog is asked for the id as the header carries it, reduced to 24 bits (log 11). -/
def pack (cat : Catalog) (m : Msg) : Except Refusal (Bytes × List Anomaly) :=
  match cat.lookup (BitVec.ofNat 24 m.messageId) with
  | none => .error .unknownId
  | some e =>
    if !e.wf then .error .entryNotWellFormed
    else if m.values.length ≠ e.descs.length then .error .valueCount
    else
      match packFields e.descs m.values (packHeader e m (packAllocate e)) 0 with
      | .error r => .error r
      | .ok (F, tr) => .ok (packFinish e F, tr)

/-- `PK.BATCH ms` (R209): the frames one after another, in list order; refused where one of them is (D18). -/
def packBatch (cat : Catalog) : List Msg → Except Refusal (Bytes × List Anomaly)
  | [] => .ok ([], [])
  | m :: ms =>
    match pack cat m with
    | .error r => .error r
    | .ok (F, tr) =>
      match packBatch cat ms with
      | .error r => .error r
      | .ok (Fs, tr') => .ok (F ++ Fs, tr ++ tr')

/-- `PK.PACK m` (43_packer.md R208). -/
def execPkPACK (m : Msg) (s : State) : Outcome := answer .frames s (pack s.cat m)

/-- `PK.BATCH ms` (43_packer.md R209), the facade's `pack` (45_catalog_and_facade.md R276). -/
def execPkBATCH (ms : List Msg) (s : State) : Outcome := answer .frames s (packBatch s.cat ms)

end Sys2Proof.Machine
end

