-- ==== Sys2Proof/Machine/Scanner.lean ====
section
/-! DEFINITION. The parser: one function per transition (44_parser.md R232 to R238), the scan loop (R239, R240), PS.FEED,
PS.PUSH and PS.STATE. -/

namespace Sys2Proof.Machine

/-- What one pass of the scan loop does. -/
inductive Pass where
  /-- the invocation ends here, with the labels of the pass -/
  | stop (p : Parser) (tr : List Anomaly)
  /-- scanning goes on from `p`, with the messages and the labels of the pass -/
  | go (p : Parser) (out : List Msg) (tr : List Anomaly)
  /-- the spec gives no meaning (30_encoding.md R93) -/
  | refuse (r : Refusal)
  deriving DecidableEq, Repr

/-- The bytes from the first magic byte on (R232). -/
def fromMagic (B : Bytes) : Bytes := B.dropWhile (· != Config.magic)

/-- State `MAGIC` (R232). GARBAGE_PREFIX is raised where at least one byte is discarded (R292; log 9). -/
def passMagic (p : Parser) : Pass :=
  let B := fromMagic p.buf
  let tr := if B.length < p.buf.length then [Anomaly.garbagePrefix] else []
  match B with
  | [] => .stop { p with buf := [] } tr
  | _ :: _ => .go { p with buf := B, st := .header } [] tr

/-- State `HEADER` (R233): with ten bytes there, the length and the id are latched. -/
def passHeader (p : Parser) : Pass :=
  if p.buf.length < Config.hdrLen then .stop p [.incomplete]
  else .go { p with len := p.buf.getD 1 0, msgid := BitVec.ofNat 24 (memRead p.buf 7 3), st := .payload } [] []

/-- State `PAYLOAD` (R234). -/
def passPayload (p : Parser) : Pass :=
  if p.buf.length < Config.hdrLen + p.len.toNat then .stop p [.incomplete]
  else .go { p with st := .checksum } [] []

/-- The payload image: the transmitted bytes, cut or extended with zeros to `L` (42_field_codec_read.md R171). -/
def payloadImage (Y : Bytes) (L : Nat) : Bytes := Y.take L ++ zeros (L - Y.length)

/-- The fields of a payload image in catalog order, from a running offset (R238). -/
def decodeFields : List Desc → Bytes → Nat → List Value
  | [], _, _ => []
  | d :: ds, Pz, off => fieldAt d Pz off :: decodeFields ds Pz (off + d.size)

/-- The message a complete candidate decodes to (R238). -/
def decodeMessage (e : Entry) (p : Parser) : Msg :=
  { messageId := p.msgid.toNat
    systemId := (p.buf.getD 5 0).toNat
    componentId := (p.buf.getD 6 0).toNat
    sequence := (p.buf.getD 4 0).toNat
    values := decodeFields e.descs
      (payloadImage (slice p.buf Config.hdrLen (Config.hdrLen + p.len.toNat)) e.maxlen) 0 }

/-- The checksum computed over the candidate's body (R237). -/
def candidateCrc (seed : Byte) (p : Parser) : BitVec 16 :=
  crcFrame seed (slice p.buf 1 (Config.hdrLen + p.len.toNat))

/-- The checksum received (R237). -/
def receivedCrc (p : Parser) : Nat := memRead p.buf (Config.hdrLen + p.len.toNat) Config.crcLen

/-- State `CHECKSUM` (R235 to R238): wait for the last byte; then the catalog, then the checksum, then decode and
emit. An entry that is not well-formed is refused as soon as it is looked up (R240, log 13). -/
def passChecksum (cat : Catalog) (p : Parser) : Pass :=
  if p.buf.length < Config.minFrame + p.len.toNat then .stop p [.incomplete]
  else
    match cat.lookup p.msgid with
    | none => .go (dropCandidate p) [] [.unknownId]
    | some e =>
      if !e.wf then .refuse .entryNotWellFormed
      else if (candidateCrc e.seed p).toNat ≠ receivedCrc p then .go (dropCandidate p) [] [.crcMismatch]
      else .go { p with buf := p.buf.drop (Config.minFrame + p.len.toNat), st := .magic } [decodeMessage e p] []

/-- One pass: the transition of the present state (R239). -/
def scanPass (cat : Catalog) (p : Parser) : Pass :=
  match p.st with
  | .magic => passMagic p
  | .header => passHeader p
  | .payload => passPayload p
  | .checksum => passChecksum cat p

/-- The loop of R240, at most `fuel` passes: the state it stops in, the messages and the labels in order. -/
def scanLoop (cat : Catalog) : Nat → Parser → Except Refusal (Parser × List Msg × List Anomaly)
  | 0, p => .ok (p, [], [])
  | k + 1, p =>
    match scanPass cat p with
    | .stop p' tr => .ok (p', [], tr)
    | .refuse r => .error r
    | .go p' out tr =>
      match scanLoop cat k p' with
      | .error r => .error r
      | .ok (p'', out', tr') => .ok (p'', out ++ out', tr ++ tr')

/-- Passes that always suffice (R243, log 12): four states, and a return to `MAGIC` removes a byte. -/
def scanFuel (p : Parser) : Nat := 4 * p.buf.length + 4

/-- The append, first of all (R231). -/
def appendChunk (p : Parser) (chunk : Bytes) : Parser := { p with buf := p.buf ++ chunk }

/-- `PS.FEED chunk` on the parser's tuple (R240). -/
def feed (cat : Catalog) (p : Parser) (chunk : Bytes) : Except Refusal (Parser × List Msg × List Anomaly) :=
  scanLoop cat (scanFuel (appendChunk p chunk)) (appendChunk p chunk)

/-- The buffer with the chunk appended fits its capacity (00_scope.md R9, U4). -/
def withinCapacity (s : State) (chunk : Bytes) : Bool :=
  match s.bufCap with
  | none => true
  | some cap => decide (s.ps.buf.length + chunk.length ≤ cap)

/-- A feed of the instance's parser, answered to the host. -/
def feedState (chunk : Bytes) (s : State) : Outcome :=
  if withinCapacity s chunk then
    match feed s.cat s.ps chunk with
    | .error r => .refused r
    | .ok (p, out, tr) => .next (State.answer { s with ps := p } (.messages out) tr)
  else .refused .bufferOverCapacity

/-- `PS.FEED chunk` (44_parser.md R240), the facade's `parse` (45_catalog_and_facade.md R277). -/
def execPsFEED (chunk : Bytes) (s : State) : Outcome := feedState chunk s

/-- `PS.PUSH b` (44_parser.md R241): a feed of one byte. -/
def execPsPUSH (b : Byte) (s : State) : Outcome := feedState [b] s

/-- `PS.STATE` (44_parser.md R247). -/
def execPsSTATE (s : State) : Outcome := .next (s.answer (.scanCode s.ps.st.code) [])

end Sys2Proof.Machine
end

