-- ==== Sys2Proof/Machine/Dispatch.lean ====
section
/-! DEFINITION. One arm per operation: the meaning each calls. -/

namespace Sys2Proof.Machine

-- 30_encoding.md R100
def exec (i : Instr) (s : State) : Host.Outcome State Fault Refusal :=
  match i with
  | .fcWrU8 B o v => Sys2Proof.Machine.execFcWrU8 B o v s
  | .fcWrI8 B o v => Sys2Proof.Machine.execFcWrI8 B o v s
  | .fcWrU16 B o v => Sys2Proof.Machine.execFcWrU16 B o v s
  | .fcWrI16 B o v => Sys2Proof.Machine.execFcWrI16 B o v s
  | .fcWrU32 B o v => Sys2Proof.Machine.execFcWrU32 B o v s
  | .fcWrI32 B o v => Sys2Proof.Machine.execFcWrI32 B o v s
  | .fcWrU64 B o v => Sys2Proof.Machine.execFcWrU64 B o v s
  | .fcWrI64 B o v => Sys2Proof.Machine.execFcWrI64 B o v s
  | .fcWrF32 B o v => Sys2Proof.Machine.execFcWrF32 B o v s
  | .fcWrF64 B o v => Sys2Proof.Machine.execFcWrF64 B o v s
  | .fcWrTEXT B o N t => Sys2Proof.Machine.execFcWrTEXT B o N t s
  | .fcRdU8 B o => Sys2Proof.Machine.execFcRdU8 B o s
  | .fcRdI8 B o => Sys2Proof.Machine.execFcRdI8 B o s
  | .fcRdU16 B o => Sys2Proof.Machine.execFcRdU16 B o s
  | .fcRdI16 B o => Sys2Proof.Machine.execFcRdI16 B o s
  | .fcRdU32 B o => Sys2Proof.Machine.execFcRdU32 B o s
  | .fcRdI32 B o => Sys2Proof.Machine.execFcRdI32 B o s
  | .fcRdU64 B o => Sys2Proof.Machine.execFcRdU64 B o s
  | .fcRdI64 B o => Sys2Proof.Machine.execFcRdI64 B o s
  | .fcRdF32 B o => Sys2Proof.Machine.execFcRdF32 B o s
  | .fcRdF64 B o => Sys2Proof.Machine.execFcRdF64 B o s
  | .fcRdTEXT B o N => Sys2Proof.Machine.execFcRdTEXT B o N s
  | .fcWraU8 B o n vs => Sys2Proof.Machine.execFcWraU8 B o n vs s
  | .fcWraI8 B o n vs => Sys2Proof.Machine.execFcWraI8 B o n vs s
  | .fcWraU16 B o n vs => Sys2Proof.Machine.execFcWraU16 B o n vs s
  | .fcWraI16 B o n vs => Sys2Proof.Machine.execFcWraI16 B o n vs s
  | .fcWraU32 B o n vs => Sys2Proof.Machine.execFcWraU32 B o n vs s
  | .fcWraI32 B o n vs => Sys2Proof.Machine.execFcWraI32 B o n vs s
  | .fcWraU64 B o n vs => Sys2Proof.Machine.execFcWraU64 B o n vs s
  | .fcWraI64 B o n vs => Sys2Proof.Machine.execFcWraI64 B o n vs s
  | .fcWraF32 B o n vs => Sys2Proof.Machine.execFcWraF32 B o n vs s
  | .fcWraF64 B o n vs => Sys2Proof.Machine.execFcWraF64 B o n vs s
  | .fcRdaU8 B o n => Sys2Proof.Machine.execFcRdaU8 B o n s
  | .fcRdaI8 B o n => Sys2Proof.Machine.execFcRdaI8 B o n s
  | .fcRdaU16 B o n => Sys2Proof.Machine.execFcRdaU16 B o n s
  | .fcRdaI16 B o n => Sys2Proof.Machine.execFcRdaI16 B o n s
  | .fcRdaU32 B o n => Sys2Proof.Machine.execFcRdaU32 B o n s
  | .fcRdaI32 B o n => Sys2Proof.Machine.execFcRdaI32 B o n s
  | .fcRdaU64 B o n => Sys2Proof.Machine.execFcRdaU64 B o n s
  | .fcRdaI64 B o n => Sys2Proof.Machine.execFcRdaI64 B o n s
  | .fcRdaF32 B o n => Sys2Proof.Machine.execFcRdaF32 B o n s
  | .fcRdaF64 B o n => Sys2Proof.Machine.execFcRdaF64 B o n s
  | .crcINIT => Sys2Proof.Machine.execCrcINIT s
  | .crcACC acc b => Sys2Proof.Machine.execCrcACC acc b s
  | .crcBLOCK acc B => Sys2Proof.Machine.execCrcBLOCK acc B s
  | .crcFRAME seed B => Sys2Proof.Machine.execCrcFRAME seed B s
  | .pkPACK m => Sys2Proof.Machine.execPkPACK m s
  | .pkBATCH ms => Sys2Proof.Machine.execPkBATCH ms s
  | .psFEED chunk => Sys2Proof.Machine.execPsFEED chunk s
  | .psPUSH b => Sys2Proof.Machine.execPsPUSH b s
  | .psSTATE => Sys2Proof.Machine.execPsSTATE s
  | .catLOOKUP id => Sys2Proof.Machine.execCatLOOKUP id s

end Sys2Proof.Machine
end

