-- ==== Sys2Proof/Machine/Step.lean ====
section
/-! DEFINITION. One step: the block takes the first operation off the host's port and executes it, whole
(10_state.md R20, 20_memory.md R60, D1). With nothing on the port nothing happens (60_exceptions.md R301). -/

namespace Sys2Proof.Machine

/-- The refusal of bytes that are no operation. Only a port with bytes on it reaches it. -/
def refusalOf : DecodeError → Refusal
  | .empty => .malformedOperands 0
  | .noOperation op => .noOperation op
  | .malformedOperands op => .malformedOperands op

/-- One step. -/
def step (s : State) : Host.Outcome State Fault Refusal :=
  match s.port with
  | [] => .next s
  | _ :: _ =>
    match decode s.port with
    | .error e => .refused (refusalOf e)
    | .ok (i, rest) => exec i { s with port := rest }

/-- The operation of a table word issued by the host ahead of everything else on the port. -/
def State.withFetchWord (s : State) (nbits w : Nat) : State := { s with port := fetchBytes nbits w ++ s.port }

end Sys2Proof.Machine
end

