-- ==== Sys2Proof/Machine/Instances.lean ====
section
/-! DEFINITION. Several instances side by side (60_exceptions.md R308): a list, one entry a parser or packer instance with
its own catalog, and how far each has come: its present state, or the fault or refusal that ended its run. They share
nothing (20_memory.md R61), so one of them taking a step, or ending in a refusal, is that one's affair alone. -/

namespace Sys2Proof.Machine

/-- An instance after one more step; one whose run has ended stays as it ended. -/
def advance : Outcome → Outcome
  | .next s => step s
  | .fault f => .fault f
  | .refused r => .refused r

/-- The instances after instance `k` takes a step; the others are untouched. A number that no instance has moves none. -/
def stepInstance (k : Nat) (sys : List Outcome) : List Outcome := sys.modify k advance

/-- The instances after a schedule of such steps, the instance numbers in the order in which they step. -/
def runSchedule : List Nat → List Outcome → List Outcome
  | [], sys => sys
  | k :: ks, sys => runSchedule ks (stepInstance k sys)

/-- One instance alone, `n` steps. -/
def runAlone : Nat → Outcome → Outcome
  | 0, o => o
  | n + 1, o => runAlone n (advance o)

end Sys2Proof.Machine
end

