-- ==== Sys2Proof/Machine/Pseudo.lean ====
section
/-! DEFINITION. The pseudo-operations and the source's own names (30_encoding.md R101 to R103): each stands for
operations of R100 and adds nothing to them. -/

namespace Sys2Proof.Machine

/-- The integers of a list of scalars; none where one is a pattern. -/
def intsOf : List Scalar → Option (List Int)
  | [] => some []
  | .int v :: xs => (intsOf xs).map (v :: ·)
  | _ :: _ => none

/-- The `b32` patterns of a list of scalars. -/
def b32sOf : List Scalar → Option (List (BitVec 32))
  | [] => some []
  | .b32 p :: xs => (b32sOf xs).map (p :: ·)
  | _ :: _ => none

/-- The `b64` patterns of a list of scalars. -/
def b64sOf : List Scalar → Option (List (BitVec 64))
  | [] => some []
  | .b64 p :: xs => (b64sOf xs).map (p :: ·)
  | _ :: _ => none

/-- `FC.WR.<K> B, o, x`; none where the scalar is not of the kind's type. -/
def scalarWriteInstr (k : Kind) (B : Bytes) (o : Nat) (x : Scalar) : Option Instr :=
  match k, x with
  | .u8, .int v => some (.fcWrU8 B o v)
  | .i8, .int v => some (.fcWrI8 B o v)
  | .u16, .int v => some (.fcWrU16 B o v)
  | .i16, .int v => some (.fcWrI16 B o v)
  | .u32, .int v => some (.fcWrU32 B o v)
  | .i32, .int v => some (.fcWrI32 B o v)
  | .u64, .int v => some (.fcWrU64 B o v)
  | .i64, .int v => some (.fcWrI64 B o v)
  | .f32, .b32 p => some (.fcWrF32 B o p)
  | .f64, .b64 p => some (.fcWrF64 B o p)
  | _, _ => none

/-- `FC.WRA.<K> B, o, n, xs`; none where an element is not of the kind's type. -/
def arrayWriteInstr (k : Kind) (B : Bytes) (o n : Nat) (xs : List Scalar) : Option Instr :=
  match k with
  | .u8 => (intsOf xs).map (.fcWraU8 B o n)
  | .i8 => (intsOf xs).map (.fcWraI8 B o n)
  | .u16 => (intsOf xs).map (.fcWraU16 B o n)
  | .i16 => (intsOf xs).map (.fcWraI16 B o n)
  | .u32 => (intsOf xs).map (.fcWraU32 B o n)
  | .i32 => (intsOf xs).map (.fcWraI32 B o n)
  | .u64 => (intsOf xs).map (.fcWraU64 B o n)
  | .i64 => (intsOf xs).map (.fcWraI64 B o n)
  | .f32 => (b32sOf xs).map (.fcWraF32 B o n)
  | .f64 => (b64sOf xs).map (.fcWraF64 B o n)
  | .text => none

/-- `FC.WRITE d, B, o, v`: the one operation the descriptor selects (R101, R103). None for `(Text, 0)`, which is
`refuse` (D10), and for a value of the wrong shape (43_packer.md R211 c). -/
def fcWrite (d : Desc) (B : Bytes) (o : Nat) (v : Value) : Option Instr :=
  match v with
  | .scalar x => if d.arrayLength = 0 then scalarWriteInstr d.kind B o x else none
  | .text t => if d.kind = .text ∧ 0 < d.arrayLength then some (.fcWrTEXT B o d.arrayLength t) else none
  | .list xs => if 0 < d.arrayLength then arrayWriteInstr d.kind B o d.arrayLength xs else none

/-- `FC.READ d, B, o` (R101, R103). None for `(Text, 0)`. -/
def fcRead (d : Desc) (B : Bytes) (o : Nat) : Option Instr :=
  if d.arrayLength = 0 then
    match d.kind with
    | .u8 => some (.fcRdU8 B o)
    | .i8 => some (.fcRdI8 B o)
    | .u16 => some (.fcRdU16 B o)
    | .i16 => some (.fcRdI16 B o)
    | .u32 => some (.fcRdU32 B o)
    | .i32 => some (.fcRdI32 B o)
    | .u64 => some (.fcRdU64 B o)
    | .i64 => some (.fcRdI64 B o)
    | .f32 => some (.fcRdF32 B o)
    | .f64 => some (.fcRdF64 B o)
    | .text => none
  else
    match d.kind with
    | .u8 => some (.fcRdaU8 B o d.arrayLength)
    | .i8 => some (.fcRdaI8 B o d.arrayLength)
    | .u16 => some (.fcRdaU16 B o d.arrayLength)
    | .i16 => some (.fcRdaI16 B o d.arrayLength)
    | .u32 => some (.fcRdaU32 B o d.arrayLength)
    | .i32 => some (.fcRdaI32 B o d.arrayLength)
    | .u64 => some (.fcRdaU64 B o d.arrayLength)
    | .i64 => some (.fcRdaI64 B o d.arrayLength)
    | .f32 => some (.fcRdaF32 B o d.arrayLength)
    | .f64 => some (.fcRdaF64 B o d.arrayLength)
    | .text => some (.fcRdTEXT B o d.arrayLength)

/-- The source's `crc(seed, bytes)` (R102). -/
abbrev crc (seed : Nat) (B : Bytes) : Instr := .crcFRAME seed B

/-- The source's `packBatch(messages[])` and the facade's `pack(messages)` (R102, 45_catalog_and_facade.md R276). -/
abbrev facadePack (ms : List Msg) : Instr := .pkBATCH ms

/-- The parser's `feed(bytes)` and the facade's `parse(bytes)` (R102, 45_catalog_and_facade.md R277). -/
abbrev facadeParse (chunk : Bytes) : Instr := .psFEED chunk

end Sys2Proof.Machine
end

