-- ==== Sys2Proof/Safety.lean ====
section
/-! DEFINITION. What a safe state of the block is: the invariants of 10_state.md R28 between operations, and the catalog
in its canonical form; and what a quiescent parser is (00_scope.md R16). -/

namespace Sys2Proof.Machine

/-- The latches equal the header bytes they were read from (10_state.md R28, item 4). -/
def Parser.latched (p : Parser) : Prop :=
  p.len = p.buf.getD 1 0 ∧ p.msgid.toNat = memRead p.buf 7 3

/-- The invariants 1 to 5 of 10_state.md R28, whenever no parser operation is in progress. -/
def Parser.Inv (p : Parser) : Prop :=
  match p.st with
  | .magic => p.buf = []
  | .header => p.buf.head? = some Config.magic ∧ p.buf.length ≤ 9
  | .payload => p.buf.head? = some Config.magic ∧ p.latched ∧ 1 ≤ p.len.toNat ∧
      10 ≤ p.buf.length ∧ p.buf.length < 10 + p.len.toNat
  | .checksum => p.buf.head? = some Config.magic ∧ p.latched ∧
      10 + p.len.toNat ≤ p.buf.length ∧ p.buf.length < 12 + p.len.toNat

/-- A safe state: the parser's invariants and a catalog in canonical form. -/
def State.Inv (s : State) : Prop := s.ps.Inv ∧ s.cat.wf = true

/-- No transition is enabled until more bytes arrive (00_scope.md R16): the pass of the present state stops and changes
nothing. -/
def Quiescent (cat : Catalog) (p : Parser) : Prop := ∃ tr, scanPass cat p = .stop p tr

/-- Every entry of the catalog is well-formed (30_encoding.md R93): what 70_reset_and_hazards.md R322 asks of the host. -/
def Catalog.entriesWf (c : Catalog) : Prop := ∀ a ∈ c, a.2.wf = true

end Sys2Proof.Machine
end

