-- ==== Sys2Proof/Certificates/Slice0/Obligations.lean ====
section
/-! DEFINITION. The statements about the model, and first the words they are stated in: byte sequences, shapes, frames and
runs written from the spec's own sentences and not from the model's functions. -/

namespace Sys2Proof.Claims
open Sys2Proof.Machine

/-- The low `w` bytes of an integer, lowest first: byte `i` is bits `8i+7 .. 8i` (00_scope.md R11, R12). -/
def intBytes (w : Nat) (v : Int) : Bytes := (List.range w).map fun i => BitVec.ofInt 8 (v / 256 ^ i)

/-- The number in the `w` bytes from `o` on, lowest first: the sum of `B[o+i] * 256^i` (00_scope.md R12). -/
def leSum (B : Bytes) (o w : Nat) : Nat := ((List.range w).map fun i => (B.getD (o + i) 0).toNat * 256 ^ i).sum

/-- The buffer with the bytes `t` in place of those from `o` on. -/
def written (B : Bytes) (o : Nat) (t : Bytes) : Bytes := B.take o ++ t ++ B.drop (o + t.length)

/-- The bytes without their trailing zero bytes. -/
def trimmed (B : Bytes) : Bytes := (B.reverse.dropWhile (· == 0)).reverse

/-- `sext` of a `W`-bit number (00_scope.md R11). -/
def signedOf (W n : Nat) : Int := if n < 2 ^ (W - 1) then (n : Int) else (n : Int) - 2 ^ W

/-- One of the eight steps of 40_checksum.md R121. -/
def crcRound (x : BitVec 16) : BitVec 16 := if x.getLsbD 0 then (x >>> 1) ^^^ 0x8408 else x >>> 1

/-- The operation `i` has the code `op` and, from `s`, answers the next state that only returns `r` to the host: the
parser, the catalog, the capacity and the port of `s` are unchanged (Machine/Ops.lean `State.answer`). -/
def Completes (op : Byte) (i : Instr) (s : State) (r : Result) : Prop :=
  i.op = op ∧ ∃ tr, exec i s = .next (s.answer r tr)

/-- A code of the map of 30_encoding.md R100: by its two hexadecimal digits. -/
def CodeInTable (op : Byte) : Prop :=
  let group := op.toNat / 16
  let low := op.toNat % 16
  (group ≤ 1 ∧ low ≤ 10) ∨ ((group = 2 ∨ group = 3) ∧ low ≤ 9) ∨ (group = 4 ∧ low ≤ 3) ∨ (group = 5 ∧ low ≤ 1) ∨
    (group = 6 ∧ low ≤ 2) ∨ (group = 7 ∧ low = 0)

/-- A scalar of the kind's type (00_scope.md R13). -/
def ScalarOf : Kind → Scalar → Prop
  | .u8, .int _ | .i8, .int _ | .u16, .int _ | .i16, .int _ => True
  | .u32, .int _ | .i32, .int _ | .u64, .int _ | .i64, .int _ => True
  | .f32, .b32 _ => True
  | .f64, .b64 _ => True
  | _, _ => False

/-- A value of the descriptor's shape (30_encoding.md R85, 43_packer.md R211 c). -/
def Fits (d : Desc) : Value → Prop
  | .scalar x => d.arrayLength = 0 ∧ ScalarOf d.kind x
  | .text _ => 0 < d.arrayLength ∧ d.kind = .text
  | .list xs => 0 < d.arrayLength ∧ d.kind ≠ .text ∧ ∀ x ∈ xs, ScalarOf d.kind x

/-- The integer lies in the kind's range (30_encoding.md R87); patterns always do. -/
def ScalarInRange (k : Kind) : Scalar → Prop
  | .int v => if k.signed then -2 ^ (8 * k.width - 1) ≤ v ∧ v < 2 ^ (8 * k.width - 1) else 0 ≤ v ∧ v < 2 ^ (8 * k.width)
  | .b32 _ => True
  | .b64 _ => True

/-- The value fits its field (60_exceptions.md R296). -/
def ValueInRange (d : Desc) : Value → Prop
  | .scalar x => ScalarInRange d.kind x
  | .text t => t.length ≤ d.arrayLength
  | .list xs => xs.length ≤ d.arrayLength ∧ ∀ x ∈ xs, ScalarInRange d.kind x

/-- The bytes of a scalar of `w` bytes. -/
def scalarBytes (w : Nat) : Scalar → Bytes
  | .int v => intBytes w v
  | .b32 p => intBytes w p.toNat
  | .b64 p => intBytes w p.toNat

/-- The bytes a value puts into its field, before padding. -/
def valueBytes (d : Desc) : Value → Bytes
  | .scalar x => scalarBytes d.kind.width x
  | .text t => t.take d.arrayLength
  | .list xs => (xs.take d.arrayLength).flatMap (scalarBytes d.kind.width)

/-- A field on the wire before truncation: its value's bytes, then zeros up to its size (20_memory.md R58). -/
def fieldImage (d : Desc) (v : Value) : Bytes := valueBytes d v ++ zeros (d.size - (valueBytes d v).length)

/-- The frame of a message under an entry (30_encoding.md R80 to R83). -/
def frameOf (e : Entry) (m : Msg) : Bytes :=
  let payload := trimmed (List.zipWith fieldImage e.descs m.values).flatten
  let body := [BitVec.ofNat 8 payload.length, 0, 0, BitVec.ofNat 8 m.sequence, BitVec.ofNat 8 m.systemId,
    BitVec.ofNat 8 m.componentId] ++ intBytes 3 m.messageId ++ payload
  [0xFD] ++ body ++ intBytes 2 (crcFrame e.seed body).toNat

/-- A scalar as it reads back (42_field_codec_read.md R193 a, b). -/
def reduced (k : Kind) : Scalar → Scalar
  | .int v => if k.signed then .int ((v + 2 ^ (8 * k.width - 1)) % 2 ^ (8 * k.width) - 2 ^ (8 * k.width - 1))
      else .int (v % 2 ^ (8 * k.width))
  | .b32 p => .b32 p
  | .b64 p => .b64 p

/-- The scalar a zero field reads as. -/
def zeroOf : Kind → Scalar
  | .f32 => .b32 0
  | .f64 => .b64 0
  | _ => .int 0

/-- A value as it reads back from its field (42_field_codec_read.md R193). -/
def readBack (d : Desc) : Value → Value
  | .scalar x => .scalar (reduced d.kind x)
  | .text t => .text (trimmed (t.take d.arrayLength))
  | .list xs => .list ((xs.take d.arrayLength).map (reduced d.kind) ++
      List.replicate (d.arrayLength - xs.length) (zeroOf d.kind))

/-- The scalar a number of the kind's width reads as (42_field_codec_read.md R172 to R181). -/
def scalarOfNumber (k : Kind) (n : Nat) : Scalar :=
  match k with
  | .f32 => .b32 (BitVec.ofNat 32 n)
  | .f64 => .b64 (BitVec.ofNat 64 n)
  | k => .int (if k.signed then signedOf (8 * k.width) n else n)

/-- The value in the bytes of a field. -/
def readValue (d : Desc) (field : Bytes) : Value :=
  if d.arrayLength = 0 then .scalar (scalarOfNumber d.kind (leSum field 0 d.kind.width))
  else if d.kind = .text then .text (trimmed field)
  else .list ((List.range d.arrayLength).map fun i => scalarOfNumber d.kind (leSum field (d.kind.width * i) d.kind.width))

/-- The values of the fields of a payload image, in catalog order (20_memory.md R52). -/
def readFields : List Desc → Bytes → List Value
  | [], _ => []
  | d :: ds, P => readValue d (P.take d.size) :: readFields ds (P.drop d.size)

/-- The byte sequence `C` is a complete frame the catalog accepts under the entry `e` (44_parser.md R244). -/
def ValidFrame (cat : Catalog) (C : Bytes) (e : Entry) : Prop :=
  C.head? = some 0xFD ∧ C.length = 12 + (C.getD 1 0).toNat ∧
  cat.lookup (BitVec.ofNat 24 (leSum C 7 3)) = some e ∧ e.wf = true ∧
  (crcFrame e.seed ((C.take (10 + (C.getD 1 0).toNat)).drop 1)).toNat = leSum C (10 + (C.getD 1 0).toNat) 2

/-- The message of a frame (44_parser.md R238). -/
def messageOf (e : Entry) (C : Bytes) : Msg :=
  { messageId := leSum C 7 3, systemId := (C.getD 5 0).toNat, componentId := (C.getD 6 0).toNat,
    sequence := (C.getD 4 0).toNat,
    values := readFields e.descs
      (((C.drop 10).take (C.getD 1 0).toNat).take e.maxlen ++ zeros (e.maxlen - (C.getD 1 0).toNat)) }

/-- The buffer with the chunk fits the capacity, if there is one (00_scope.md R9). -/
def HasRoom (s : State) (chunk : Bytes) : Prop := ∀ cap, s.bufCap = some cap → s.ps.buf.length + chunk.length ≤ cap

/-- A run of passes from `p` to the first that stops (44_parser.md R239): where it stops, the messages and labels. -/
inductive ScanRun (cat : Catalog) : Parser → Parser → List Msg → List Anomaly → Prop where
  | stop {p q : Parser} {tr : List Anomaly} : scanPass cat p = .stop q tr → ScanRun cat p q [] tr
  | go {p q r : Parser} {out out' : List Msg} {tr tr' : List Anomaly} : scanPass cat p = .go q out tr →
      ScanRun cat q r out' tr' → ScanRun cat p r (out ++ out') (tr ++ tr')

/-- Passes that go on lead from `p` to `q`. -/
inductive PassesReach (cat : Catalog) : Parser → Parser → Prop where
  | here (p : Parser) : PassesReach cat p p
  | go {p q r : Parser} {out : List Msg} {tr : List Anomaly} : scanPass cat p = .go q out tr →
      PassesReach cat q r → PassesReach cat p r

/-- Passes that go on lead from `p` to a complete candidate whose entry is not well-formed, which is what
70_reset_and_hazards.md R322 asks the host to keep from happening. -/
def ReachesIllFormed (cat : Catalog) (p : Parser) : Prop :=
  ∃ q e, PassesReach cat p q ∧ q.st = .checksum ∧ 12 + q.len.toNat ≤ q.buf.length ∧
    cat.lookup q.msgid = some e ∧ e.wf = false

/-- The chunks fed one after another: the last state and all messages in order. -/
def feedAll (cat : Catalog) : Parser → List Bytes → Except Refusal (Parser × List Msg)
  | p, [] => .ok (p, [])
  | p, c :: cs =>
    match feed cat p c with
    | .error r => .error r
    | .ok (q, out, _) =>
      match feedAll cat q cs with
      | .error r => .error r
      | .ok (q', out') => .ok (q', out ++ out')

end Sys2Proof.Claims

open Sys2Proof Sys2Proof.Machine Sys2Proof.Claims

/-- For every catalog, the instance created with it has ps.st = MAGIC, ps.buf = [], that catalog, an unbounded buffer, and
nothing issued, returned or traced; State.reset is the instance created with the empty catalog (the empty catalog is
the model's choice, log 4; the empty buffer is the spec's decision D13). Derived from 10_state.md section 6 (reset
values, collected), 70_reset_and_hazards.md section 1 (reset). -/
def Obligations.ResetIsAnEmptyParser : Prop :=
  (∀ cat : Catalog, (State.create cat).ps.st = .magic ∧ (State.create cat).ps.buf = [] ∧
    (State.create cat).cat = cat ∧ (State.create cat).bufCap = none ∧ (State.create cat).port = [] ∧
    (State.create cat).results = [] ∧ (State.create cat).trace = []) ∧
  State.reset = State.create []

/-- For every catalog in canonical form (the model's own form, log 7), the instance created with it meets State.Inv, and
so does State.reset. Derived from 10_state.md section 3 (invariants between operations), 10_state.md section 6. -/
def Obligations.ResetMeetsTheInvariant : Prop :=
  (∀ cat : Catalog, cat.wf = true → (State.create cat).Inv) ∧ State.reset.Inv

/-- From every state that meets the invariants 1 to 5 of 10_state.md section 3 (marked by the spec as derived) with a
catalog in canonical form (log 7), a step that answers a next state answers one that meets them. Derived from
10_state.md section 3 (invariants that hold whenever no parser operation is in progress), 44_parser.md section 2. -/
def Obligations.StepKeepsTheInvariant : Prop :=
  ∀ s t : State, s.Inv → step s = .next t → t.Inv

/-- A parser that meets the invariants holds at most 266 bytes, 267 never, and the bound is met by a state with the
invariant; hence a capacity of 266 bytes plus the chunk never refuses a feed for its capacity (D13, the spec's
decision; log 6). Derived from 10_state.md section 3 (invariant 6), 92_eei_decisions.md D13. -/
def Obligations.CarryOverBufferIsBounded : Prop :=
  (∀ p : Parser, p.Inv → p.buf.length ≤ 266) ∧ (∃ p : Parser, p.Inv ∧ p.buf.length = 266) ∧
  (∀ (s : State) (chunk : Bytes) (cap : Nat), s.ps.Inv → s.bufCap = some cap → 266 + chunk.length ≤ cap →
    exec (.psFEED chunk) s ≠ .refused .bufferOverCapacity)

/-- For every well-formed operation and whatever bytes follow its own, the decoder reads exactly that operation and leaves
exactly those bytes (the operation codes are 30_encoding.md R100's, the layout of the operand bytes is the model's
own, log 1 and 2). Derived from 30_encoding.md section 5 (the operations and their codes), 92_eei_decisions.md D2. -/
def Obligations.DecodeOfEncodeIsTheOperation : Prop :=
  ∀ (i : Instr) (rest : Bytes), WellFormed i → decode (encode i ++ rest) = .ok (i, rest)

/-- If the decoder reads an operation from some bytes, the first byte is that operation's code, the operation is well-
formed, and the bytes left are the end of the bytes given, shorter by at least the code byte (log 1). Derived from
30_encoding.md section 5, 92_eei_decisions.md D2. -/
def Obligations.DecodedOperationsAreWellFormed : Prop :=
  ∀ (bs rest : Bytes) (i : Instr), decode bs = .ok (i, rest) →
    bs.head? = some i.op ∧ WellFormed i ∧ ∃ used : Bytes, used ≠ [] ∧ bs = used ++ rest

/-- A code byte whose group and kind digits are none of the 52 of 30_encoding.md section 5 is rejected as naming no
operation, whatever follows, and a step that finds it on the port is refused; each of the 52 codes is read as some
operation (the codes are the spec's decision D2). Derived from 30_encoding.md section 3, item (g), 30_encoding.md
section 5, 93_implementation_defined.md U19. -/
def Obligations.OtherCodesNameNoOperation : Prop :=
  (∀ (op : Byte) (bs : Bytes) (s : State), ¬ CodeInTable op →
    decode (op :: bs) = .error (.noOperation op) ∧
    (s.port = op :: bs → step s = .refused (.noOperation op))) ∧
  (∀ op : Byte, CodeInTable op → ∃ i : Instr, decodeTableWord 8 op.toNat = some i ∧ i.op = op)

/-- Words written out from the map of 30_encoding.md section 5, one or more of each family, with operand bytes of zeros in
the model's layout (log 1, 2), decode to the operations they stand for. Derived from 30_encoding.md section 5 (the map
of operation codes). -/
def Obligations.TableCodesDecode : Prop :=
  decodeTableWord 8 0x00 = some (.fcWrU8 (zeros 8) 0 0) ∧ decodeTableWord 8 0x09 = some (.fcWrF64 (zeros 8) 0 0) ∧
  decodeTableWord 8 0x0A = some (.fcWrTEXT (zeros 8) 0 1 []) ∧ decodeTableWord 8 0x15 = some (.fcRdI32 (zeros 8) 0) ∧
  decodeTableWord 8 0x1A = some (.fcRdTEXT (zeros 8) 0 1) ∧ decodeTableWord 8 0x22 = some (.fcWraU16 (zeros 8) 0 1 []) ∧
  decodeTableWord 8 0x38 = some (.fcRdaF32 (zeros 8) 0 1) ∧ decodeTableWord 8 0x40 = some .crcINIT ∧
  decodeTableWord 8 0x43 = some (.crcFRAME 0 []) ∧ decodeTableWord 8 0x51 = some (.pkBATCH []) ∧
  decodeTableWord 8 0x60 = some (.psFEED []) ∧ decodeTableWord 8 0x62 = some .psSTATE ∧
  decodeTableWord 8 0x70 = some (.catLOOKUP 0) ∧ decodeTableWord 8 0x0B = none

/-- A descriptor with array_length below 256 has a word, and the word under its name is that descriptor; a word gives a
descriptor exactly when its kind code is at most 10 and desc[7:5] is zero, and that descriptor's word is the word it
came from (the word form is the spec's decision D3). Derived from 30_encoding.md section 2 (the 16-bit form of a
descriptor), 30_encoding.md section 3, item (a), 92_eei_decisions.md D3. -/
def Obligations.DescriptorWordRoundTrips : Prop :=
  (∀ d : Desc, d.arrayLength < 256 → ∃ w, d.word = some w ∧ Desc.ofWord d.name w = some d) ∧
  (∀ (name : String) (w : BitVec 16),
    ((w.extractLsb' 0 4).toNat ≤ 10 ∧ w.extractLsb' 5 3 = 0 → ∃ d, Desc.ofWord name w = some d ∧ d.word = some w) ∧
    (¬ ((w.extractLsb' 0 4).toNat ≤ 10 ∧ w.extractLsb' 5 3 = 0) → Desc.ofWord name w = none))

/-- FC.WRITE expands to an operation exactly for a value of the descriptor's shape and FC.READ exactly for a descriptor
that is not (Text, 0) (D10, the spec's decision); the operation has the code the descriptor selects, {0b00, n > 0 and
K != Text, 0b0, K} for writing and the same with op[4] set for reading, and is well-formed. Derived from
30_encoding.md section 5 (dispatch from a descriptor), 92_eei_decisions.md D10. -/
def Obligations.DescriptorSelectsTheOperation : Prop :=
  (∀ (d : Desc) (B : Bytes) (o : Nat) (v : Value), Fits d v ↔ ∃ i, fcWrite d B o v = some i) ∧
  (∀ (d : Desc) (B : Bytes) (o : Nat) (v : Value) (i : Instr), fcWrite d B o v = some i →
    WellFormed i ∧ i.op = (if 0 < d.arrayLength ∧ d.kind ≠ .text then 0x20#8 else 0x00#8) ||| BitVec.ofNat 8 d.kind.code) ∧
  (∀ (d : Desc) (B : Bytes) (o : Nat), (¬ (d.kind = .text ∧ d.arrayLength = 0)) ↔ ∃ i, fcRead d B o = some i) ∧
  (∀ (d : Desc) (B : Bytes) (o : Nat) (i : Instr), fcRead d B o = some i →
    WellFormed i ∧ i.op = (if 0 < d.arrayLength ∧ d.kind ≠ .text then 0x30#8 else 0x10#8) ||| BitVec.ofNat 8 d.kind.code)

/-- If the bytes on the port decode to an operation, step is exec of that operation on the state whose port holds the
bytes after it; with nothing on the port step changes nothing (the port is the model's own, log 3); and a code
followed by bytes that the decoder rejects as no operands of that code is refused as malformedOperands with that code,
which rests wholly on the model's own layout of the operand bytes (log 1, which no section of the spec gives). A code
that names no operation is the statement OtherCodesNameNoOperation. Derived from 20_memory.md section 6 (ordering
between operations), 92_eei_decisions.md D1. -/
def Obligations.StepRunsTheDecodedOperation : Prop :=
  (∀ (s : State) (i : Instr) (rest : Bytes), decode s.port = .ok (i, rest) → step s = exec i { s with port := rest }) ∧
  (∀ s : State, s.port = [] → step s = .next s) ∧
  (∀ (s : State) (op : Byte) (bs : Bytes), s.port = op :: bs → decode s.port = .error (.malformedOperands op) →
    step s = .refused (.malformedOperands op))

/-- Whenever an operation answers a next state: the catalog, the capacity and the port are unchanged, exactly one result
is added at the end of the results and labels only at the end of the trace (results and trace are the model's own, log
8 and 9); and unless the operation is PS.FEED or PS.PUSH, the parser's tuple ps is unchanged. Derived from
20_memory.md section 4 (access, atomicity, side effects), 10_state.md section 1, 45_catalog_and_facade.md section 1. -/
def Obligations.OperationsLeaveTheRestAlone : Prop :=
  ∀ (i : Instr) (s t : State), exec i s = .next t →
    t.cat = s.cat ∧ t.bufCap = s.bufCap ∧ t.port = s.port ∧
    (∃ r, t.results = s.results ++ [r]) ∧ (∃ tr, t.trace = s.trace ++ tr) ∧
    ((∀ chunk, i ≠ .psFEED chunk) → (∀ b, i ≠ .psPUSH b) → t.ps = s.ps)

/-- An operation that answers a next state answers, from the same state with any other results and trace, the same state
with the same result and the same labels added to those instead (results and trace are the model's own, log 8 and 9).
Derived from 60_exceptions.md section 2 (no port carries an anomaly), 92_eei_decisions.md D16. -/
def Obligations.ResultsAndTraceAreNeverRead : Prop :=
  ∀ (i : Instr) (s t : State) (rs : List Result) (trc : List Anomaly), exec i s = .next t →
    ∃ r tr, t.results = s.results ++ [r] ∧ t.trace = s.trace ++ tr ∧
      exec i { s with results := rs, trace := trc } = .next { t with results := rs ++ [r], trace := trc ++ tr }

/-- CRC.INIT, code 0x40, completes from every state and returns 0xFFFF; it raises no label and changes nothing else. Rules
R123. -/
def Obligations.CrcInitGivesTheInitialValue : Prop :=
  ∀ s : State, Instr.crcINIT.op = 0x40 ∧ exec .crcINIT s = .next (s.answer (.crc 0xFFFF) [])

/-- CRC.ACC, code 0x41, completes from every state and returns the accumulator exclusive-or the byte in bits 7:0, shifted
eight times, each time exclusive-or 0x8408 if bit 0 was set (the procedure is marked by the spec as general knowledge,
G1, log 15). Derived from 40_checksum.md section 2 (the bit-serial procedure, marked as general knowledge). -/
def Obligations.CrcAccIsEightReflectedShifts : Prop :=
  ∀ (acc : BitVec 16) (b : Byte) (s : State), (Instr.crcACC acc b).op = 0x41 ∧
    exec (.crcACC acc b) s = .next (s.answer (.crc
      (crcRound (crcRound (crcRound (crcRound (crcRound (crcRound (crcRound (crcRound
        (acc ^^^ (0#8 ++ b))))))))))) [])

/-- CRC.BLOCK, code 0x42, completes from every state; of no bytes it returns its accumulator; of a byte sequence followed
by one more byte it returns CRC.ACC of its result on the sequence and that byte; and a sequence cut in two gives the
block of the second part from the block of the first (this last clause is marked by the spec as derived from the
loop). Derived from 40_checksum.md section 2 (CRC.BLOCK). -/
def Obligations.CrcBlockFoldsLeftToRight : Prop :=
  (∀ (acc : BitVec 16) (B : Bytes) (s : State), (Instr.crcBLOCK acc B).op = 0x42 ∧
    ∃ c, exec (.crcBLOCK acc B) s = .next (s.answer (.crc c) [])) ∧
  (∀ (acc : BitVec 16) (s : State), exec (.crcBLOCK acc []) s = .next (s.answer (.crc acc) [])) ∧
  (∀ (acc c : BitVec 16) (B : Bytes) (b : Byte) (s : State), exec (.crcBLOCK acc B) s = .next (s.answer (.crc c) []) →
    exec (.crcBLOCK acc (B ++ [b])) s = exec (.crcACC c b) s) ∧
  (∀ (acc c : BitVec 16) (A B : Bytes) (s : State), exec (.crcBLOCK acc A) s = .next (s.answer (.crc c) []) →
    exec (.crcBLOCK acc (A ++ B)) s = exec (.crcBLOCK c B) s)

/-- CRC.FRAME, code 0x43, completes from every state and returns CRC.ACC of (CRC.BLOCK of 0xFFFF and the body) and the low
8 bits of the seed (D5, the spec's decision). Derived from 40_checksum.md section 2 (CRC.FRAME), 90_conflicts.md C1
and C2, 92_eei_decisions.md D5. -/
def Obligations.CrcFrameTakesTheSeedLast : Prop :=
  ∀ (seed : Nat) (B : Bytes) (c : BitVec 16) (s : State), (Instr.crcFRAME seed B).op = 0x43 ∧
    (∃ c', exec (.crcFRAME seed B) s = .next (s.answer (.crc c') [])) ∧
    (exec (.crcBLOCK 0xFFFF B) s = .next (s.answer (.crc c) []) →
      exec (.crcFRAME seed B) s = exec (.crcACC c (BitVec.ofNat 8 seed)) s)

/-- For every 16-bit accumulator and every byte the three-line table-free form gives the accumulator the bit-serial form
gives (both forms are marked by the spec as general knowledge, G1, log 15). Derived from 40_checksum.md section 2 (the
table-free form, marked as general knowledge). -/
def Obligations.CrcTableFreeFormAgrees : Prop :=
  ∀ (acc : BitVec 16) (b : Byte), crcAccRotate acc b = crcAcc acc b

/-- With the field inside the buffer, FC.WR.U8, FC.WR.U16, FC.WR.U32 and FC.WR.U64, codes 0x00, 0x02, 0x04, 0x06, complete
from every state for every integer and every offset, and return the buffer with the w bytes from the offset replaced
by bits 7:0, 15:8, ... of the integer; nothing else changes. Their kinds have the codes 0, 2, 4, 6 and the source keys
uint8, uint16, uint32, uint64. Rules R142, R144, R146. -/
def Obligations.UnsignedScalarWritesAreLittleEndian : Prop :=
  (∀ (B : Bytes) (o : Nat) (v : Int) (s : State), o + 1 ≤ B.length →
    Completes 0x00 (.fcWrU8 B o v) s (.buffer (written B o (intBytes 1 v)))) ∧
  (∀ (B : Bytes) (o : Nat) (v : Int) (s : State), o + 2 ≤ B.length →
    Completes 0x02 (.fcWrU16 B o v) s (.buffer (written B o (intBytes 2 v)))) ∧
  (∀ (B : Bytes) (o : Nat) (v : Int) (s : State), o + 4 ≤ B.length →
    Completes 0x04 (.fcWrU32 B o v) s (.buffer (written B o (intBytes 4 v)))) ∧
  (∀ (B : Bytes) (o : Nat) (v : Int) (s : State), o + 8 ≤ B.length →
    Completes 0x06 (.fcWrU64 B o v) s (.buffer (written B o (intBytes 8 v)))) ∧
  [Kind.u8, .u16, .u32, .u64].map (fun k => (k.code, k.key)) =
    [(0, "uint8"), (2, "uint16"), (4, "uint32"), (6, "uint64")]

/-- With the field inside the buffer, FC.WR.I8, FC.WR.I16, FC.WR.I32 and FC.WR.I64, codes 0x01, 0x03, 0x05, 0x07, complete
from every state for every integer and every offset, and return the buffer with the w bytes from the offset replaced
by the two's-complement bytes of the integer (marked by the spec as general knowledge, G2, log 15); nothing else
changes. Derived from 41_field_codec_write.md section 2, 41_field_codec_write.md section 1 (range reduction),
93_implementation_defined.md G2. -/
def Obligations.SignedScalarWritesAreLittleEndian : Prop :=
  (∀ (B : Bytes) (o : Nat) (v : Int) (s : State), o + 1 ≤ B.length →
    Completes 0x01 (.fcWrI8 B o v) s (.buffer (written B o (intBytes 1 v)))) ∧
  (∀ (B : Bytes) (o : Nat) (v : Int) (s : State), o + 2 ≤ B.length →
    Completes 0x03 (.fcWrI16 B o v) s (.buffer (written B o (intBytes 2 v)))) ∧
  (∀ (B : Bytes) (o : Nat) (v : Int) (s : State), o + 4 ≤ B.length →
    Completes 0x05 (.fcWrI32 B o v) s (.buffer (written B o (intBytes 4 v)))) ∧
  (∀ (B : Bytes) (o : Nat) (v : Int) (s : State), o + 8 ≤ B.length →
    Completes 0x07 (.fcWrI64 B o v) s (.buffer (written B o (intBytes 8 v))))

/-- With the field inside the buffer, FC.WR.F32 and FC.WR.F64, codes 0x08 and 0x09, complete from every state for every
bit pattern and every offset, and return the buffer with the 4 or 8 bytes from the offset replaced by the pattern's
bytes, lowest first; nothing else changes. Their kinds have the codes 8 and 9 and the source keys float and double.
Rules R150, R151. -/
def Obligations.PatternWritesMoveEveryBit : Prop :=
  (∀ (B : Bytes) (o : Nat) (v : BitVec 32) (s : State), o + 4 ≤ B.length →
    Completes 0x08 (.fcWrF32 B o v) s (.buffer (written B o (intBytes 4 v.toNat)))) ∧
  (∀ (B : Bytes) (o : Nat) (v : BitVec 64) (s : State), o + 8 ≤ B.length →
    Completes 0x09 (.fcWrF64 B o v) s (.buffer (written B o (intBytes 8 v.toNat)))) ∧
  [Kind.f32, .f64].map (fun k => (k.code, k.key)) = [(8, "float"), (9, "double")]

/-- With N > 0 and the field inside the buffer, FC.WR.TEXT, code 0x0A, completes from every state and returns the buffer
with the first min(N, |s|) bytes of the text at the offset, each as it is (D7, the spec's decision); every other byte,
the rest of the field included, stays. Derived from 41_field_codec_write.md section 3, 92_eei_decisions.md D7. -/
def Obligations.TextWriteStoresTheFirstBytes : Prop :=
  ∀ (B : Bytes) (o N : Nat) (t : Bytes) (s : State), 0 < N → o + N ≤ B.length →
    Completes 0x0A (.fcWrTEXT B o N t) s (.buffer (written B o (t.take N)))

/-- With n > 0 and the whole field inside the buffer, FC.WRA.U8, U16, U32 and U64, codes 0x20, 0x22, 0x24, 0x26, complete
from every state and return the buffer with the first min(n, |vs|) elements at consecutive offsets of the width, each
reduced and lowest byte first; every other byte stays. Rules R153, R155, R157, R159. -/
def Obligations.UnsignedArrayWritesStoreTheFirstElements : Prop :=
  (∀ (B : Bytes) (o n : Nat) (vs : List Int) (s : State), 0 < n → o + 1 * n ≤ B.length →
    Completes 0x20 (.fcWraU8 B o n vs) s (.buffer (written B o ((vs.take n).flatMap (intBytes 1))))) ∧
  (∀ (B : Bytes) (o n : Nat) (vs : List Int) (s : State), 0 < n → o + 2 * n ≤ B.length →
    Completes 0x22 (.fcWraU16 B o n vs) s (.buffer (written B o ((vs.take n).flatMap (intBytes 2))))) ∧
  (∀ (B : Bytes) (o n : Nat) (vs : List Int) (s : State), 0 < n → o + 4 * n ≤ B.length →
    Completes 0x24 (.fcWraU32 B o n vs) s (.buffer (written B o ((vs.take n).flatMap (intBytes 4))))) ∧
  (∀ (B : Bytes) (o n : Nat) (vs : List Int) (s : State), 0 < n → o + 8 * n ≤ B.length →
    Completes 0x26 (.fcWraU64 B o n vs) s (.buffer (written B o ((vs.take n).flatMap (intBytes 8)))))

/-- With n > 0 and the whole field inside the buffer, FC.WRA.I8, I16, I32 and I64, codes 0x21, 0x23, 0x25, 0x27, complete
from every state and return the buffer with the two's-complement bytes (G2, log 15) of the first min(n, |vs|) elements
at consecutive offsets of the width; every other byte stays. Derived from 41_field_codec_write.md section 4,
93_implementation_defined.md G2. -/
def Obligations.SignedArrayWritesStoreTheFirstElements : Prop :=
  (∀ (B : Bytes) (o n : Nat) (vs : List Int) (s : State), 0 < n → o + 1 * n ≤ B.length →
    Completes 0x21 (.fcWraI8 B o n vs) s (.buffer (written B o ((vs.take n).flatMap (intBytes 1))))) ∧
  (∀ (B : Bytes) (o n : Nat) (vs : List Int) (s : State), 0 < n → o + 2 * n ≤ B.length →
    Completes 0x23 (.fcWraI16 B o n vs) s (.buffer (written B o ((vs.take n).flatMap (intBytes 2))))) ∧
  (∀ (B : Bytes) (o n : Nat) (vs : List Int) (s : State), 0 < n → o + 4 * n ≤ B.length →
    Completes 0x25 (.fcWraI32 B o n vs) s (.buffer (written B o ((vs.take n).flatMap (intBytes 4))))) ∧
  (∀ (B : Bytes) (o n : Nat) (vs : List Int) (s : State), 0 < n → o + 8 * n ≤ B.length →
    Completes 0x27 (.fcWraI64 B o n vs) s (.buffer (written B o ((vs.take n).flatMap (intBytes 8)))))

/-- With n > 0 and the whole field inside the buffer, FC.WRA.F32 and FC.WRA.F64, codes 0x28 and 0x29, complete from every
state and return the buffer with the first min(n, |vs|) patterns at consecutive offsets of 4 or 8 bytes, lowest byte
first; every other byte stays. Rules R161, R162. -/
def Obligations.PatternArrayWritesStoreTheFirstElements : Prop :=
  (∀ (B : Bytes) (o n : Nat) (vs : List (BitVec 32)) (s : State), 0 < n → o + 4 * n ≤ B.length →
    Completes 0x28 (.fcWraF32 B o n vs) s (.buffer (written B o ((vs.take n).flatMap (fun v => intBytes 4 v.toNat))))) ∧
  (∀ (B : Bytes) (o n : Nat) (vs : List (BitVec 64)) (s : State), 0 < n → o + 8 * n ≤ B.length →
    Completes 0x29 (.fcWraF64 B o n vs) s (.buffer (written B o ((vs.take n).flatMap (fun v => intBytes 8 v.toNat)))))

/-- For each of the 21 write operations (those FC.WRITE expands to, over every descriptor): if it answers a next state, it
returned a buffer of the same length whose bytes outside the field are the old ones, and the state is otherwise as the
answer to the host leaves it. Derived from 41_field_codec_write.md section 5 (a), marked as derived,
41_field_codec_write.md section 1. -/
def Obligations.WritesStayInsideTheField : Prop :=
  ∀ (d : Desc) (B : Bytes) (o : Nat) (v : Value) (i : Instr) (s t : State), fcWrite d B o v = some i → exec i s = .next t →
    ∃ B' tr, t = s.answer (.buffer B') tr ∧ B'.length = B.length ∧
      ∀ j, j < o ∨ o + d.size ≤ j → B'[j]? = B[j]?

/-- For any two write operations over disjoint fields: if one and then the other completes, the other and then the one
completes with the same buffer. Derived from 41_field_codec_write.md section 5 (b), marked as derived. -/
def Obligations.DisjointWritesCommute : Prop :=
  ∀ (d e : Desc) (B B₁ B₁₂ : Bytes) (o q : Nat) (v w : Value) (tr tr' : List Anomaly),
    (o + d.size ≤ q ∨ q + e.size ≤ o) →
    writeField d B o v = .ok (B₁, tr) → writeField e B₁ q w = .ok (B₁₂, tr') →
    ∃ B₂, writeField e B q w = .ok (B₂, tr') ∧ writeField d B₂ o v = .ok (B₁₂, tr)

/-- FC.WRITE d, B, o, v as the packer does it and FC.READ d, B, o as the parser does it are exactly what the one operation
that the descriptor selects does: the same buffer, labels and refusal; the same value where the field lies inside the
buffer. Derived from 30_encoding.md section 6 (pseudo-operations), 43_packer.md section 2 (the field walk),
44_parser.md section 2 (decode). -/
def Obligations.PackerWritesAreTheOperations : Prop :=
  (∀ (d : Desc) (B : Bytes) (o : Nat) (v : Value) (i : Instr) (s : State), fcWrite d B o v = some i →
    exec i s = answer .buffer s (writeField d B o v)) ∧
  (∀ (d : Desc) (B : Bytes) (o : Nat) (i : Instr) (s : State), fcRead d B o = some i → o + d.size ≤ B.length →
    exec i s = .next (s.answer (.value (fieldAt d B o)) []))

/-- FC.WR.U64 and FC.WR.I64 return the buffer that FC.WR.U32 of the value at the offset and then FC.WR.U32 of the value
shifted right by 32 bits at the offset plus 4 return. Derived from 20_memory.md section 2 (byte order; marked as
derived), 92_eei_decisions.md D24. -/
def Obligations.SixtyFourBitWriteIsTwoHalves : Prop :=
  ∀ (B B₁ B₂ : Bytes) (o : Nat) (v : Int) (s : State) (tr tr' : List Anomaly), o + 8 ≤ B.length →
    exec (.fcWrU32 B o v) s = .next (s.answer (.buffer B₁) tr) →
    exec (.fcWrU32 B₁ (o + 4) (v / 2 ^ 32)) s = .next (s.answer (.buffer B₂) tr') →
    Completes 0x06 (.fcWrU64 B o v) s (.buffer B₂) ∧ Completes 0x07 (.fcWrI64 B o v) s (.buffer B₂)

/-- For each of the 21 write operations: if it answers a next state, the trace gains one VALUE_RANGE label if the value
lies outside the kind's range, is a text longer than N, or is an array with more than n elements or an element outside
the range, and none otherwise (one label a field is the model's choice, log 9). Derived from 60_exceptions.md section
2 (VALUE_RANGE). -/
def Obligations.ValueRangeLabelsMarkValuesThatDoNotFit : Prop :=
  ∀ (d : Desc) (B : Bytes) (o : Nat) (v : Value) (i : Instr) (s t : State), fcWrite d B o v = some i → exec i s = .next t →
    (ValueInRange d v → t.trace = s.trace) ∧ (¬ ValueInRange d v → t.trace = s.trace ++ [.valueRange])

/-- Each of the 21 write and 21 read operations (those FC.WRITE and FC.READ expand to) is refused as rangeOutsideBuffer
when its field does not lie inside the buffer (D20, the spec's decision). Derived from 41_field_codec_write.md section
1, 42_field_codec_read.md section 1, 92_eei_decisions.md D20. -/
def Obligations.FieldsOutsideTheBufferAreRefused : Prop :=
  (∀ (d : Desc) (B : Bytes) (o : Nat) (v : Value) (i : Instr) (s : State), fcWrite d B o v = some i →
    B.length < o + d.size → exec i s = .refused .rangeOutsideBuffer) ∧
  (∀ (d : Desc) (B : Bytes) (o : Nat) (i : Instr) (s : State), fcRead d B o = some i →
    B.length < o + d.size → exec i s = .refused .rangeOutsideBuffer)

/-- FC.WR.TEXT, FC.RD.TEXT and the ten FC.WRA.<K> and ten FC.RDA.<K> are refused as arrayLengthZero when their
array_length operand is 0, which the spec has greater than 0 (the refusal is the model's reading, log 10). Derived
from 41_field_codec_write.md sections 3 and 4, 42_field_codec_read.md sections 3 and 4. -/
def Obligations.ZeroArrayLengthIsRefused : Prop :=
  ∀ (B : Bytes) (o : Nat) (t : Bytes) (vs : List Int) (ps : List (BitVec 32)) (qs : List (BitVec 64)) (s : State),
    exec (.fcWrTEXT B o 0 t) s = .refused .arrayLengthZero ∧
    exec (.fcRdTEXT B o 0) s = .refused .arrayLengthZero ∧
    exec (.fcWraU8 B o 0 vs) s = .refused .arrayLengthZero ∧
    exec (.fcWraI8 B o 0 vs) s = .refused .arrayLengthZero ∧
    exec (.fcWraU16 B o 0 vs) s = .refused .arrayLengthZero ∧
    exec (.fcWraI16 B o 0 vs) s = .refused .arrayLengthZero ∧
    exec (.fcWraU32 B o 0 vs) s = .refused .arrayLengthZero ∧
    exec (.fcWraI32 B o 0 vs) s = .refused .arrayLengthZero ∧
    exec (.fcWraU64 B o 0 vs) s = .refused .arrayLengthZero ∧
    exec (.fcWraI64 B o 0 vs) s = .refused .arrayLengthZero ∧
    exec (.fcWraF32 B o 0 ps) s = .refused .arrayLengthZero ∧
    exec (.fcWraF64 B o 0 qs) s = .refused .arrayLengthZero ∧
    exec (.fcRdaU8 B o 0) s = .refused .arrayLengthZero ∧
    exec (.fcRdaI8 B o 0) s = .refused .arrayLengthZero ∧
    exec (.fcRdaU16 B o 0) s = .refused .arrayLengthZero ∧
    exec (.fcRdaI16 B o 0) s = .refused .arrayLengthZero ∧
    exec (.fcRdaU32 B o 0) s = .refused .arrayLengthZero ∧
    exec (.fcRdaI32 B o 0) s = .refused .arrayLengthZero ∧
    exec (.fcRdaU64 B o 0) s = .refused .arrayLengthZero ∧
    exec (.fcRdaI64 B o 0) s = .refused .arrayLengthZero ∧
    exec (.fcRdaF32 B o 0) s = .refused .arrayLengthZero ∧
    exec (.fcRdaF64 B o 0) s = .refused .arrayLengthZero

/-- With the field inside the buffer, FC.RD.U8, U16, U32 and U64, codes 0x10, 0x12, 0x14, 0x16, complete from every state
and return the sum of B[o+i] * 256^i over the field; the 64-bit number is the low half plus 2^32 times the high half;
nothing else changes. Their kinds have the codes 0, 2, 4, 6. Rules R172, R174, R176, R178. -/
def Obligations.UnsignedScalarReadsAreLittleEndian : Prop :=
  (∀ (B : Bytes) (o : Nat) (s : State), o + 1 ≤ B.length →
    Completes 0x10 (.fcRdU8 B o) s (.value (.scalar (.int (leSum B o 1))))) ∧
  (∀ (B : Bytes) (o : Nat) (s : State), o + 2 ≤ B.length →
    Completes 0x12 (.fcRdU16 B o) s (.value (.scalar (.int (leSum B o 2))))) ∧
  (∀ (B : Bytes) (o : Nat) (s : State), o + 4 ≤ B.length →
    Completes 0x14 (.fcRdU32 B o) s (.value (.scalar (.int (leSum B o 4))))) ∧
  (∀ (B : Bytes) (o : Nat) (s : State), o + 8 ≤ B.length →
    Completes 0x16 (.fcRdU64 B o) s (.value (.scalar (.int (leSum B o 8))))) ∧
  (∀ (B : Bytes) (o : Nat), leSum B o 8 = leSum B o 4 + 2 ^ 32 * leSum B (o + 4) 4) ∧
  [Kind.u8, .u16, .u32, .u64].map Kind.code = [0, 2, 4, 6]

/-- With the field inside the buffer, FC.RD.I8, I16, I32 and I64, codes 0x11, 0x13, 0x15, 0x17, complete from every state
and return the little-endian number n of the field if n < 2^(8w-1) and n - 2^(8w) otherwise (two's complement is
marked by the spec as general knowledge, G2, log 15). Derived from 42_field_codec_read.md section 2,
93_implementation_defined.md G2. -/
def Obligations.SignedScalarReadsAreTwosComplement : Prop :=
  (∀ (B : Bytes) (o : Nat) (s : State), o + 1 ≤ B.length →
    Completes 0x11 (.fcRdI8 B o) s (.value (.scalar (.int (signedOf 8 (leSum B o 1)))))) ∧
  (∀ (B : Bytes) (o : Nat) (s : State), o + 2 ≤ B.length →
    Completes 0x13 (.fcRdI16 B o) s (.value (.scalar (.int (signedOf 16 (leSum B o 2)))))) ∧
  (∀ (B : Bytes) (o : Nat) (s : State), o + 4 ≤ B.length →
    Completes 0x15 (.fcRdI32 B o) s (.value (.scalar (.int (signedOf 32 (leSum B o 4)))))) ∧
  (∀ (B : Bytes) (o : Nat) (s : State), o + 8 ≤ B.length →
    Completes 0x17 (.fcRdI64 B o) s (.value (.scalar (.int (signedOf 64 (leSum B o 8))))))

/-- With the field inside the buffer, FC.RD.F32 and FC.RD.F64, codes 0x18 and 0x19, complete from every state and return
the 32- or 64-bit pattern of the field's little-endian bytes. Their kinds have the codes 8 and 9. Rules R180, R181. -/
def Obligations.PatternReadsMoveEveryBit : Prop :=
  (∀ (B : Bytes) (o : Nat) (s : State), o + 4 ≤ B.length →
    Completes 0x18 (.fcRdF32 B o) s (.value (.scalar (.b32 (BitVec.ofNat 32 (leSum B o 4)))))) ∧
  (∀ (B : Bytes) (o : Nat) (s : State), o + 8 ≤ B.length →
    Completes 0x19 (.fcRdF64 B o) s (.value (.scalar (.b64 (BitVec.ofNat 64 (leSum B o 8)))))) ∧
  [Kind.f32, .f64].map Kind.code = [8, 9]

/-- With N > 0 and the field inside the buffer, FC.RD.TEXT, code 0x1A, completes from every state and returns a text that
does not end in a zero byte and that, followed by zero bytes only, is the N bytes of the field (D7, the spec's
decision). Derived from 42_field_codec_read.md section 3, 92_eei_decisions.md D7. -/
def Obligations.TextReadStripsTrailingZeros : Prop :=
  ∀ (B : Bytes) (o N : Nat) (s : State), 0 < N → o + N ≤ B.length →
    ∃ t k, Completes 0x1A (.fcRdTEXT B o N) s (.value (.text t)) ∧
      (B.drop o).take N = t ++ zeros k ∧ t.getLast? ≠ some 0

/-- With n > 0 and the field inside the buffer, FC.RDA.U8, U16, U32 and U64, codes 0x30, 0x32, 0x34, 0x36, complete from
every state and return the list of the n numbers at o + w*i, i from 0 to n-1. Rules R183, R185, R187, R189. -/
def Obligations.UnsignedArrayReadsHaveEveryElement : Prop :=
  (∀ (B : Bytes) (o n : Nat) (s : State), 0 < n → o + 1 * n ≤ B.length →
    Completes 0x30 (.fcRdaU8 B o n) s
      (.value (.list ((List.range n).map fun i => .int (leSum B (o + 1 * i) 1))))) ∧
  (∀ (B : Bytes) (o n : Nat) (s : State), 0 < n → o + 2 * n ≤ B.length →
    Completes 0x32 (.fcRdaU16 B o n) s
      (.value (.list ((List.range n).map fun i => .int (leSum B (o + 2 * i) 2))))) ∧
  (∀ (B : Bytes) (o n : Nat) (s : State), 0 < n → o + 4 * n ≤ B.length →
    Completes 0x34 (.fcRdaU32 B o n) s
      (.value (.list ((List.range n).map fun i => .int (leSum B (o + 4 * i) 4))))) ∧
  (∀ (B : Bytes) (o n : Nat) (s : State), 0 < n → o + 8 * n ≤ B.length →
    Completes 0x36 (.fcRdaU64 B o n) s
      (.value (.list ((List.range n).map fun i => .int (leSum B (o + 8 * i) 8)))))

/-- With n > 0 and the field inside the buffer, FC.RDA.I8, I16, I32 and I64, codes 0x31, 0x33, 0x35, 0x37, complete from
every state and return the list of the n two's-complement numbers (G2, log 15) at o + w*i. Derived from
42_field_codec_read.md section 4, 93_implementation_defined.md G2. -/
def Obligations.SignedArrayReadsHaveEveryElement : Prop :=
  (∀ (B : Bytes) (o n : Nat) (s : State), 0 < n → o + 1 * n ≤ B.length →
    Completes 0x31 (.fcRdaI8 B o n) s
      (.value (.list ((List.range n).map fun i => .int (signedOf 8 (leSum B (o + 1 * i) 1)))))) ∧
  (∀ (B : Bytes) (o n : Nat) (s : State), 0 < n → o + 2 * n ≤ B.length →
    Completes 0x33 (.fcRdaI16 B o n) s
      (.value (.list ((List.range n).map fun i => .int (signedOf 16 (leSum B (o + 2 * i) 2)))))) ∧
  (∀ (B : Bytes) (o n : Nat) (s : State), 0 < n → o + 4 * n ≤ B.length →
    Completes 0x35 (.fcRdaI32 B o n) s
      (.value (.list ((List.range n).map fun i => .int (signedOf 32 (leSum B (o + 4 * i) 4)))))) ∧
  (∀ (B : Bytes) (o n : Nat) (s : State), 0 < n → o + 8 * n ≤ B.length →
    Completes 0x37 (.fcRdaI64 B o n) s
      (.value (.list ((List.range n).map fun i => .int (signedOf 64 (leSum B (o + 8 * i) 8))))))

/-- With n > 0 and the field inside the buffer, FC.RDA.F32 and FC.RDA.F64, codes 0x38 and 0x39, complete from every state
and return the list of the n patterns at o + 4*i or o + 8*i. Rules R191, R192. -/
def Obligations.PatternArrayReadsHaveEveryElement : Prop :=
  (∀ (B : Bytes) (o n : Nat) (s : State), 0 < n → o + 4 * n ≤ B.length →
    Completes 0x38 (.fcRdaF32 B o n) s
      (.value (.list ((List.range n).map fun i => .b32 (BitVec.ofNat 32 (leSum B (o + 4 * i) 4)))))) ∧
  (∀ (B : Bytes) (o n : Nat) (s : State), 0 < n → o + 8 * n ≤ B.length →
    Completes 0x39 (.fcRdaF64 B o n) s
      (.value (.list ((List.range n).map fun i => .b64 (BitVec.ofNat 64 (leSum B (o + 8 * i) 8))))))

/-- If a write operation completes on a buffer whose field is all zeros, the read operation of the same descriptor on the
buffer it returned completes and returns: for an integer the value reduced into the kind's range, for a pattern the
pattern, for a text its first N bytes without trailing zeros, for an array the first n elements each so reduced,
padded with zeros to n elements. Derived from 42_field_codec_read.md section 5 (laws of the read side, marked as
derived). -/
def Obligations.ReadAfterWriteGivesTheReducedValue : Prop :=
  ∀ (d : Desc) (B B' : Bytes) (o : Nat) (v : Value) (i j : Instr) (s : State) (tr : List Anomaly),
    fcWrite d B o v = some i → (B.drop o).take d.size = zeros d.size →
    exec i s = .next (s.answer (.buffer B') tr) → fcRead d B' o = some j →
    Completes j.op j s (.value (readBack d v))

/-- For a message whose id (reduced to 24 bits, D8 and log 11) the catalog knows with a well-formed entry, and whose
values fit the descriptors, PK.PACK, code 0x50, completes from every state and returns FD, the payload length, 0, 0,
seq, system id, component id, the id in three bytes, the fields' bytes in descriptor order without their trailing
zeros, and the checksum of all but the first of these bytes under the entry's seed, low byte first. Derived from
43_packer.md sections 2 and 3, 30_encoding.md section 1 (the frame format), 92_eei_decisions.md D8. -/
def Obligations.PackProducesTheFrame : Prop :=
  ∀ (m : Msg) (e : Entry) (s : State), s.cat.lookup (BitVec.ofNat 24 m.messageId) = some e → e.wf = true →
    List.Forall₂ Fits e.descs m.values → Completes 0x50 (.pkPACK m) s (.frames (frameOf e m))

/-- If PK.PACK answers a next state, it returned a byte sequence F with |F| = 12 + F[1], 12 <= |F| <= 267, F[0] = FD, F[2]
= F[3] = 0, F[1] = 0 or F[9 + F[1]] not 0, and the checksum of F[1 : 10 + F[1]] under the seed of the entry of its id
in its last two bytes. Derived from 43_packer.md section 4 (laws of the result, marked as derived), 30_encoding.md
section 1. -/
def Obligations.PackedFramesHaveTheFrameShape : Prop :=
  ∀ (m : Msg) (s t : State), exec (.pkPACK m) s = .next t → ∃ F tr e, t = s.answer (.frames F) tr ∧
    s.cat.lookup (BitVec.ofNat 24 m.messageId) = some e ∧
    F.length = 12 + (F.getD 1 0).toNat ∧ 12 ≤ F.length ∧ F.length ≤ 12 + e.maxlen ∧ F.length ≤ 267 ∧
    F.getD 0 0 = 0xFD ∧ F.getD 2 0 = 0 ∧ F.getD 3 0 = 0 ∧
    ((F.getD 1 0).toNat = 0 ∨ F.getD (9 + (F.getD 1 0).toNat) 0 ≠ 0) ∧
    leSum F (10 + (F.getD 1 0).toNat) 2 = (crcFrame e.seed ((F.take (10 + (F.getD 1 0).toNat)).drop 1)).toNat

/-- PK.PACK is refused under a name of its own in each of four cases: id, reduced to 24 bits, not in the catalog; entry
not well-formed; number of values not the number of descriptors; a value that does not fit its descriptor's shape.
That each case is refused is the spec's own decision (D9, D10, D18, D20); that the catalog is asked for the reduced id
is the model's choice (log 11), and so is which name stands where two cases hold together, the order being the one
given here (log 13). Derived from 43_packer.md section 4 (what this spec gives no meaning), 92_eei_decisions.md D9,
D10, D18, D20. -/
def Obligations.PackRefusesWhatHasNoMeaning : Prop :=
  ∀ (m : Msg) (s : State),
    (s.cat.lookup (BitVec.ofNat 24 m.messageId) = none → exec (.pkPACK m) s = .refused .unknownId) ∧
    (∀ e, s.cat.lookup (BitVec.ofNat 24 m.messageId) = some e →
      (e.wf = false → exec (.pkPACK m) s = .refused .entryNotWellFormed) ∧
      (e.wf = true → m.values.length ≠ e.descs.length → exec (.pkPACK m) s = .refused .valueCount) ∧
      (e.wf = true → m.values.length = e.descs.length → ¬ List.Forall₂ Fits e.descs m.values →
        exec (.pkPACK m) s = .refused .valueShape))

/-- For messages whose ids (reduced to 24 bits, log 11) the catalog knows with well-formed entries that their values fit,
PK.BATCH, code 0x51, completes from every state and returns their frames in list order; if PK.PACK of each message of
a list returns a frame, PK.BATCH of the list, code 0x51, completes from the same state and returns the frames in list
order with nothing between; of the empty list it returns no bytes; if PK.PACK of some message is refused, so is the
batch, with the first such refusal (D18, the spec's decision). Derived from 43_packer.md section 3 (PK.BATCH),
92_eei_decisions.md D18. -/
def Obligations.BatchConcatenatesTheFrames : Prop :=
  (∀ (ms : List Msg) (es : List Entry) (s : State),
    List.Forall₂ (fun m e => s.cat.lookup (BitVec.ofNat 24 m.messageId) = some e ∧ e.wf = true ∧
      List.Forall₂ Fits e.descs m.values) ms es →
    Completes 0x51 (.pkBATCH ms) s (.frames (List.zipWith frameOf es ms).flatten)) ∧
  (∀ (ms : List Msg) (Fs : List Bytes) (s : State),
    List.Forall₂ (fun m F => Completes 0x50 (.pkPACK m) s (.frames F)) ms Fs →
    Completes 0x51 (.pkBATCH ms) s (.frames Fs.flatten)) ∧
  (∀ (ms ms' : List Msg) (m : Msg) (r : Refusal) (s : State),
    (∀ x ∈ ms, ∃ F, Completes 0x50 (.pkPACK x) s (.frames F)) → exec (.pkPACK m) s = .refused r →
    exec (.pkBATCH (ms ++ m :: ms')) s = .refused r)

/-- If PK.PACK of a message returns a frame under a catalog, then PS.FEED of that frame to any instance with that catalog,
scanning for the magic byte with an empty buffer and with room for the frame, completes, emits exactly one message and
leaves the parser so again; the message has the header values packed, reduced to their widths, and each field value as
it reads back. Derived from 43_packer.md section 4 (marked as derived), 40_checksum.md section 2 (who uses the unit),
42_field_codec_read.md section 5. -/
def Obligations.PackThenFeedGivesTheMessageBack : Prop :=
  ∀ (m : Msg) (F : Bytes) (e : Entry) (s s' : State), Completes 0x50 (.pkPACK m) s (.frames F) →
    s.cat.lookup (BitVec.ofNat 24 m.messageId) = some e →
    s'.cat = s.cat → s'.ps.st = .magic → s'.ps.buf = [] → HasRoom s' F →
    ∃ t, exec (.psFEED F) s' = .next t ∧ t.ps.st = .magic ∧ t.ps.buf = [] ∧
      t.results = s'.results ++ [.messages
        [{ messageId := m.messageId % 2 ^ 24, systemId := m.systemId % 256, componentId := m.componentId % 256,
           sequence := m.sequence % 256, values := List.zipWith readBack e.descs m.values }]]

/-- In state MAGIC, for every catalog: if the buffer is some bytes without FD, then FD and more, the pass keeps the buffer
from that FD on, moves to HEADER and goes on, emitting nothing; if no byte is FD the pass empties the buffer, stays in
MAGIC and stops. Rules R232. -/
def Obligations.MagicStateDiscardsGarbage : Prop :=
  ∀ (cat : Catalog) (p : Parser), p.st = .magic →
    (∀ garbage rest : Bytes, p.buf = garbage ++ 0xFD :: rest → 0xFD ∉ garbage →
      ∃ tr, scanPass cat p = .go { p with buf := 0xFD :: rest, st := .header } [] tr) ∧
    (0xFD ∉ p.buf → ∃ tr, scanPass cat p = .stop { p with buf := [] } tr)

/-- In state HEADER with fewer than 10 bytes the pass stops with nothing changed, otherwise it latches buf[1] and the
little-endian number of buf[7], buf[8], buf[9], moves to PAYLOAD and goes on; in state PAYLOAD with fewer than 10 +
len bytes it stops with nothing changed, otherwise it moves to CHECKSUM and goes on; no byte is removed and nothing
emitted. Rules R233, R234. -/
def Obligations.HeaderAndPayloadStatesWaitOrMoveOn : Prop :=
  ∀ (cat : Catalog) (p : Parser),
    (p.st = .header →
      (p.buf.length < 10 → ∃ tr, scanPass cat p = .stop p tr) ∧
      (10 ≤ p.buf.length → ∃ tr, scanPass cat p =
        .go { p with len := p.buf.getD 1 0, msgid := BitVec.ofNat 24 (leSum p.buf 7 3), st := .payload } [] tr)) ∧
    (p.st = .payload →
      (p.buf.length < 10 + p.len.toNat → ∃ tr, scanPass cat p = .stop p tr) ∧
      (10 + p.len.toNat ≤ p.buf.length → ∃ tr, scanPass cat p = .go { p with st := .checksum } [] tr))

/-- In state CHECKSUM with fewer than 12 + len bytes the pass stops with nothing changed. With the candidate complete: if
the catalog does not know the latched id, or knows it with a well-formed entry and the checksum of the body under the
entry's seed is not the number in the last two bytes, the pass removes the first byte, moves to MAGIC, keeps the
latches, emits nothing and goes on. Rules R236, R237. -/
def Obligations.RejectedCandidateLosesItsMagicByte : Prop :=
  ∀ (cat : Catalog) (p : Parser), p.st = .checksum →
    (p.buf.length < 12 + p.len.toNat → ∃ tr, scanPass cat p = .stop p tr) ∧
    (12 + p.len.toNat ≤ p.buf.length →
      (cat.lookup p.msgid = none → ∃ tr, scanPass cat p = .go { p with buf := p.buf.drop 1, st := .magic } [] tr) ∧
      (∀ e, cat.lookup p.msgid = some e → e.wf = true →
        (crcFrame e.seed ((p.buf.take (10 + p.len.toNat)).drop 1)).toNat ≠ leSum p.buf (10 + p.len.toNat) 2 →
        ∃ tr, scanPass cat p = .go { p with buf := p.buf.drop 1, st := .magic } [] tr))

/-- In state CHECKSUM with the candidate complete and its id known: if the entry is not well-formed the pass is refused
(D9, log 13); if it is and the checksum matches, the pass removes the whole frame, moves to MAGIC and goes on,
emitting one message with the latched id, seq, system and component id from offsets 4, 5, 6, and the fields read in
catalog order from the payload cut or zero-extended to maxlen (D7, D11). Derived from 44_parser.md section 2
(judgement 3), 42_field_codec_read.md section 1 (the payload image), 92_eei_decisions.md D7, D9, D11. -/
def Obligations.MatchingCandidateIsDecodedAndEmitted : Prop :=
  ∀ (cat : Catalog) (p : Parser) (e : Entry), p.st = .checksum → 12 + p.len.toNat ≤ p.buf.length →
    cat.lookup p.msgid = some e →
    (e.wf = false → scanPass cat p = .refuse .entryNotWellFormed) ∧
    (e.wf = true →
      (crcFrame e.seed ((p.buf.take (10 + p.len.toNat)).drop 1)).toNat = leSum p.buf (10 + p.len.toNat) 2 →
      ∃ tr, scanPass cat p = .go { p with buf := p.buf.drop (12 + p.len.toNat), st := .magic }
        [{ messageId := p.msgid.toNat, systemId := (p.buf.getD 5 0).toNat, componentId := (p.buf.getD 6 0).toNat,
           sequence := (p.buf.getD 4 0).toNat,
           values := readFields e.descs
            (((p.buf.drop 10).take p.len.toNat).take e.maxlen ++ zeros (e.maxlen - p.len.toNat)) }] tr)

/-- A pass that discards at least one garbage byte raises GARBAGE_PREFIX (not for none: log 9) and no other label; a pass
that waits raises INCOMPLETE; a complete candidate with an unknown id raises UNKNOWN_ID whatever its checksum; one
with a known well-formed entry and a wrong checksum raises CRC_MISMATCH; the codes are 0 to 4 in the spec's order.
Derived from 60_exceptions.md sections 2 and 3 (the anomalies and their order). -/
def Obligations.AnomalyLabelsOfEachPass : Prop :=
  (∀ (cat : Catalog) (p q : Parser) (out : List Msg) (tr : List Anomaly), scanPass cat p = .go q out tr →
    (p.st = .magic → tr = if q.buf.length < p.buf.length then [.garbagePrefix] else []) ∧
    (p.st = .header ∨ p.st = .payload → tr = []) ∧
    (p.st = .checksum → tr = if cat.lookup p.msgid = none then [.unknownId] else if out = [] then [.crcMismatch] else [])) ∧
  (∀ (cat : Catalog) (p q : Parser) (tr : List Anomaly), scanPass cat p = .stop q tr →
    (p.st = .magic → tr = if p.buf = [] then [] else [.garbagePrefix]) ∧ (p.st ≠ .magic → tr = [.incomplete])) ∧
  [Anomaly.garbagePrefix, .incomplete, .unknownId, .crcMismatch, .valueRange].map Anomaly.code = [0, 1, 2, 3, 4]

/-- With room for the bytes, and where no run of passes from the buffer with the bytes reaches a complete candidate whose
entry is not well-formed (the host's duty by 70_reset_and_hazards.md R322: every entry an operation touches is well-
formed; other entries of the catalog may be ill-formed), PS.FEED, code 0x60, and PS.PUSH, code 0x61, complete from
every state: the bytes are appended to the buffer, the passes that follow one another from there end at the first that
stops, the parser is left where it stopped, in MAGIC only with an empty buffer, and the messages the passes emitted
are returned in order; nothing else of the instance changes. Under a catalog whose every entry is well-formed no run
of passes reaches such a candidate, whatever the parser. Rules R231, R239. -/
def Obligations.FeedRunsPassesToTheFirstStop : Prop :=
  (∀ (chunk : Bytes) (s : State), HasRoom s chunk →
    ¬ ReachesIllFormed s.cat { s.ps with buf := s.ps.buf ++ chunk } →
    ∃ p out tr, ScanRun s.cat { s.ps with buf := s.ps.buf ++ chunk } p out tr ∧ (p.st = .magic → p.buf = []) ∧
      Quiescent s.cat p ∧ (Instr.psFEED chunk).op = 0x60 ∧
      exec (.psFEED chunk) s = .next (State.answer { s with ps := p } (.messages out) tr)) ∧
  (∀ (b : Byte) (s : State), HasRoom s [b] →
    ¬ ReachesIllFormed s.cat { s.ps with buf := s.ps.buf ++ [b] } →
    ∃ p out tr, ScanRun s.cat { s.ps with buf := s.ps.buf ++ [b] } p out tr ∧ (p.st = .magic → p.buf = []) ∧
      Quiescent s.cat p ∧ (Instr.psPUSH b).op = 0x61 ∧
      exec (.psPUSH b) s = .next (State.answer { s with ps := p } (.messages out) tr)) ∧
  (∀ (cat : Catalog) (p : Parser), cat.entriesWf → ¬ ReachesIllFormed cat p)

/-- PS.FEED and PS.PUSH are refused as bufferOverCapacity exactly when the buffer with the bytes exceeds BUF_CAP (U4, log
6); with room for the bytes they are refused as entryNotWellFormed exactly when passes that go on lead from the buffer
with the bytes to a complete candidate whose entry is not well-formed (D9; that the candidate is refused before its
checksum is judged, and the whole invocation with it, is log 13); and they are never refused under another name.
Derived from 93_implementation_defined.md U4 and U12, 30_encoding.md section 2 (a well-formed entry),
92_eei_decisions.md D9. -/
def Obligations.FeedRefusesOverCapacityAndIllFormedEntries : Prop :=
  (∀ (chunk : Bytes) (s : State),
    (¬ HasRoom s chunk ↔ exec (.psFEED chunk) s = .refused .bufferOverCapacity) ∧
    (HasRoom s chunk → (ReachesIllFormed s.cat { s.ps with buf := s.ps.buf ++ chunk } ↔
      exec (.psFEED chunk) s = .refused .entryNotWellFormed)) ∧
    (∀ r, exec (.psFEED chunk) s = .refused r → r = .bufferOverCapacity ∨ r = .entryNotWellFormed)) ∧
  (∀ (b : Byte) (s : State),
    (¬ HasRoom s [b] ↔ exec (.psPUSH b) s = .refused .bufferOverCapacity) ∧
    (HasRoom s [b] → (ReachesIllFormed s.cat { s.ps with buf := s.ps.buf ++ [b] } ↔
      exec (.psPUSH b) s = .refused .entryNotWellFormed)) ∧
    (∀ r, exec (.psPUSH b) s = .refused r → r = .bufferOverCapacity ∨ r = .entryNotWellFormed))

/-- From every quiescent parser, for every way of cutting a byte sequence into chunks, empty ones allowed: feeding the
chunks in order ends in a state with the messages emitted so far one after another exactly if feeding the whole
sequence at once ends in that state with those messages, and is refused exactly if feeding the whole is refused.
Derived from 44_parser.md section 3 (marked as derived), 20_memory.md section 6. -/
def Obligations.ChunkingDoesNotMatter : Prop :=
  ∀ (cat : Catalog) (p : Parser), Quiescent cat p → ∀ chunks : List Bytes,
    feedAll cat p chunks = (feed cat p chunks.flatten).map fun r => (r.1, r.2.1)

/-- PS.PUSH of a byte does exactly what PS.FEED of the one-byte chunk does; and from a quiescent parser, feeding the bytes
of a chunk one at a time gives the final state and the concatenated output of feeding the chunk. Derived from
30_encoding.md section 6 (pseudo-operations), 44_parser.md section 3. -/
def Obligations.PushingEveryByteIsFeedingTheChunk : Prop :=
  (∀ (b : Byte) (s : State), exec (.psPUSH b) s = exec (.psFEED [b]) s) ∧
  (∀ (cat : Catalog) (p : Parser) (chunk : Bytes), Quiescent cat p →
    feedAll cat p (chunk.map fun b => [b]) = (feed cat p chunk).map fun r => (r.1, r.2.1))

/-- If a parser that meets the invariants is fed and emits a message, then somewhere in the buffered bytes and the chunk
together stand bytes C with C[0] = FD, |C| = 12 + C[1], an id in C[7], C[8], C[9] that the catalog knows with a well-
formed entry, the checksum of its body under that entry's seed in the last two bytes, and the message is the decoding
of C. Derived from 44_parser.md section 3 (what the parser does not test), 70_reset_and_hazards.md section 3 (data
that looks like a frame). -/
def Obligations.EmittedMessagesAreFramesOfTheStream : Prop :=
  ∀ (cat : Catalog) (p p' : Parser) (chunk : Bytes) (out : List Msg) (tr : List Anomaly) (m : Msg), p.Inv →
    feed cat p chunk = .ok (p', out, tr) → m ∈ out →
    ∃ before C after e, p.buf ++ chunk = before ++ C ++ after ∧ ValidFrame cat C e ∧ m = messageOf e C

/-- From a parser in state MAGIC or HEADER, whatever the two latches hold, a feed ends in the same scan state with the
same buffer, messages and labels, or in the same refusal (the reset value of the latches is the model's choice, log 5;
no behaviour rests on it). Derived from 10_state.md section 3 (the latches), 92_eei_decisions.md D19,
93_implementation_defined.md U2. -/
def Obligations.LatchesAreNeverReadBeforeWritten : Prop :=
  ∀ (cat : Catalog) (p : Parser) (l : BitVec 8) (id : BitVec 24) (chunk : Bytes), p.st = .magic ∨ p.st = .header →
    (feed cat p chunk).map (fun r => (r.1.st, r.1.buf, r.2)) =
      (feed cat { p with len := l, msgid := id } chunk).map (fun r => (r.1.st, r.1.buf, r.2))

/-- From state MAGIC with an empty buffer, feeding bytes none of which is FD emits nothing and leaves the parser as it
was, and feeding them in front of any bytes gives the state and messages of feeding those bytes alone. Derived from
44_parser.md section 2 (state MAGIC), 60_exceptions.md section 2 (GARBAGE_PREFIX). -/
def Obligations.GarbageBeforeAStreamIsForgotten : Prop :=
  ∀ (cat : Catalog) (p : Parser) (garbage S : Bytes), p.st = .magic → p.buf = [] → 0xFD ∉ garbage →
    (∃ tr, feed cat p garbage = .ok (p, [], tr)) ∧
    (feed cat p (garbage ++ S)).map (fun r => (r.1, r.2.1)) = (feed cat p S).map (fun r => (r.1, r.2.1))

/-- PS.STATE, code 0x62, completes from every state and returns 0, 1, 2, 3 for MAGIC, HEADER, PAYLOAD, CHECKSUM (the codes
are the spec's decision D4); nothing else changes. Derived from 44_parser.md section 3 (PS.STATE), 10_state.md section
3, 92_eei_decisions.md D4. -/
def Obligations.StateReadReturnsTheScanState : Prop :=
  ∀ s : State, Instr.psSTATE.op = 0x62 ∧
    (s.ps.st = .magic → exec .psSTATE s = .next (s.answer (.scanCode 0) [])) ∧
    (s.ps.st = .header → exec .psSTATE s = .next (s.answer (.scanCode 1) [])) ∧
    (s.ps.st = .payload → exec .psSTATE s = .next (s.answer (.scanCode 2) [])) ∧
    (s.ps.st = .checksum → exec .psSTATE s = .next (s.answer (.scanCode 3) []))

/-- CAT.LOOKUP, code 0x70, completes from every state and returns an entry or not_found; with the catalog in canonical
form (log 7) it returns an entry exactly if the catalog lists that entry under the id; nothing changes (that the host
may issue it, and that an entry which is not well-formed is returned like any other, are the model's choices, log 14).
Derived from 45_catalog_and_facade.md section 1 (the catalog), 92_eei_decisions.md D14. -/
def Obligations.CatalogLookupReturnsTheEntry : Prop :=
  ∀ (id : BitVec 24) (s : State), ∃ a, (Instr.catLOOKUP id).op = 0x70 ∧
    exec (.catLOOKUP id) s = .next (s.answer (.entry a) []) ∧
    (s.cat.wf = true → ∀ e, a = some e ↔ (id.toNat, e) ∈ s.cat)

/-- After any schedule of steps over a list of instances, every instance stands where as many steps as the schedule gives
it lead it when it runs alone, in a next state or in the refusal that ended its run, whether or not the run of another
instance has ended in a refusal; running alone is the run of the machine from its state; and an instance that has not
ended holds the catalog it began with (that several instances are a list of which a schedule steps one at a time, and
that an instance stays as its refusal left it, is the model's choice, log 17; but for the catalog clause the
composition is of that form whatever a step does). Derived from 20_memory.md section 6 (ordering between operations). -/
def Obligations.InstancesShareNothing : Prop :=
  (∀ (sched : List Nat) (sys : List Outcome) (k : Nat),
    (runSchedule sched sys)[k]? = sys[k]?.map (runAlone (sched.count k))) ∧
  (∀ (n : Nat) (s : State), runAlone n (.next s) = Sys2Proof.core.run n s) ∧
  (∀ (sched : List Nat) (sys : List Outcome) (k : Nat) (s t : State), sys[k]? = some (.next s) →
    (runSchedule sched sys)[k]? = some (.next t) → t.cat = s.cat)
end

