-- ==== Sys2Proof/Laws/Bytes.lean ====
section
/-! SUPPORT. Byte order and byte spaces: the lemmas of leBytes, leNat, slice, memRead, memWrite, putBytes and
putElements. Every write keeps the length of its space and the bytes outside its range. -/

namespace Sys2Proof.Machine

@[simp] theorem leBytes_length (n v : Nat) : (leBytes n v).length = n := by
  induction n generalizing v with
  | zero => rfl
  | succ n ih => simp [leBytes, ih]

/-- The bytes of a number spell the number, cut to as many bytes (R12). -/
theorem leNat_leBytes (n v : Nat) : leNat (leBytes n v) = v % 256 ^ n := by
  induction n generalizing v with
  | zero => simp [leBytes, leNat, Nat.mod_one]
  | succ n ih =>
    have h8 : (BitVec.ofNat 8 v).toNat = v % 256 := by simp
    rw [leBytes, leNat, ih, h8, Nat.pow_succ', Nat.mod_mul]

theorem leNat_lt (b : Bytes) : leNat b < 256 ^ b.length := by
  induction b with
  | nil => simp [leNat]
  | cons a b ih =>
    have := a.isLt
    simp only [leNat, List.length_cons, Nat.pow_succ']
    omega

/-- The number some bytes spell has those bytes. -/
theorem leBytes_leNat (b : Bytes) : leBytes b.length (leNat b) = b := by
  induction b with
  | nil => rfl
  | cons a b ih =>
    have ha := a.isLt
    have h1 : (a.toNat + 256 * leNat b) / 256 = leNat b := by omega
    have h2 : BitVec.ofNat 8 (a.toNat + 256 * leNat b) = a := by
      apply BitVec.eq_of_toNat_eq
      simp only [BitVec.toNat_ofNat]
      omega
    simp [leBytes, leNat, h1, h2, ih]

theorem leBytes_mod (n v : Nat) : leBytes n (v % 256 ^ n) = leBytes n v := by
  rw [← leNat_leBytes]
  simpa using leBytes_leNat (leBytes n v)

@[simp] theorem leNat_nil : leNat [] = 0 := rfl

theorem leNat_append (a b : Bytes) : leNat (a ++ b) = leNat a + 256 ^ a.length * leNat b := by
  induction a with
  | nil => simp [leNat]
  | cons x a ih => simp only [List.cons_append, leNat, ih, List.length_cons, Nat.pow_succ']; ring

@[simp] theorem leNat_zeros (n : Nat) : leNat (zeros n) = 0 := by
  induction n with
  | zero => rfl
  | succ n ih => simp [zeros, List.replicate_succ, leNat] at ih ⊢; exact ih

@[simp] theorem leBytes_zero (n : Nat) : leBytes n 0 = zeros n := by
  induction n with
  | zero => rfl
  | succ n ih => simp [leBytes, ih, zeros, List.replicate_succ]

theorem slice_length {B : Bytes} {a b : Nat} (h : b ≤ B.length) : (slice B a b).length = b - a := by
  simp [slice, Nat.min_eq_left h]

/-- A slice in the middle of three pieces is the middle piece. -/
theorem slice_middle (A M C : Bytes) : slice (A ++ M ++ C) A.length (A.length + M.length) = M := by
  simp [slice, List.take_append, List.take_of_length_le]

@[simp] theorem memWrite_length {B : Bytes} {o n : Nat} (v : Nat) (h : o + n ≤ B.length) :
    (memWrite B o n v).length = B.length := by
  simp [memWrite]
  omega

theorem putBytes_length {B : Bytes} {o : Nat} {t : Bytes} (h : o + t.length ≤ B.length) :
    (putBytes B o t).length = B.length := by
  simp [putBytes]
  omega

theorem memWrite_eq_putBytes (B : Bytes) (o n v : Nat) : memWrite B o n v = putBytes B o (leBytes n v) := by
  simp [memWrite, putBytes]

/-- Bytes before the range stay. -/
theorem putBytes_get_before {B : Bytes} {o j : Nat} {t : Bytes} (h : o + t.length ≤ B.length) (hj : j < o) :
    (putBytes B o t)[j]? = B[j]? := by
  simp only [putBytes, List.append_assoc]
  rw [List.getElem?_append_left (by simp; omega), List.getElem?_take_of_lt hj]

/-- Bytes from the end of the range on stay. -/
theorem putBytes_get_after {B : Bytes} {o j : Nat} {t : Bytes} (h : o + t.length ≤ B.length)
    (hj : o + t.length ≤ j) : (putBytes B o t)[j]? = B[j]? := by
  simp only [putBytes]
  rw [List.getElem?_append_right (by simp; omega), List.getElem?_drop]
  congr 1
  simp
  omega

/-- Reading the range back gives the bytes written. -/
theorem slice_putBytes {B : Bytes} {o : Nat} {t : Bytes} (h : o + t.length ≤ B.length) :
    slice (putBytes B o t) o (o + t.length) = t := by
  have ho : (B.take o).length = o := by simp; omega
  have := slice_middle (B.take o) t (B.drop (o + t.length))
  rwa [ho] at this

/-- Read after write (R12): the value, cut to as many bytes. -/
theorem memRead_memWrite {B : Bytes} {o n v : Nat} (h : o + n ≤ B.length) :
    memRead (memWrite B o n v) o n = v % 256 ^ n := by
  have h' : o + (leBytes n v).length ≤ B.length := by simpa using h
  have := slice_putBytes h'
  rw [leBytes_length] at this
  rw [memRead, memWrite_eq_putBytes, this, leNat_leBytes]

/-- A slice that does not meet the range of a write stays. -/
theorem slice_putBytes_disjoint {B : Bytes} {o a b : Nat} {t : Bytes} (h : o + t.length ≤ B.length)
    (hd : b ≤ o ∨ o + t.length ≤ a) : slice (putBytes B o t) a b = slice B a b := by
  apply List.ext_getElem?
  intro j
  simp only [slice, List.getElem?_drop]
  by_cases hj : a + j < b
  · rw [List.getElem?_take_of_lt hj, List.getElem?_take_of_lt hj]
    rcases hd with hd | hd
    · exact putBytes_get_before h (by omega)
    · exact putBytes_get_after h (by omega)
  · rw [List.getElem?_take_eq_none (by omega), List.getElem?_take_eq_none (by omega)]

/-- Two writes one right after the other are one write. -/
theorem putBytes_putBytes {B : Bytes} {o : Nat} {t u : Bytes} (h : o + t.length + u.length ≤ B.length) :
    putBytes (putBytes B o t) (o + t.length) u = putBytes B o (t ++ u) := by
  apply List.ext_getElem?
  intro j
  simp only [putBytes, List.getElem?_append, List.getElem?_take, List.getElem?_drop, List.length_append,
    List.length_take, List.length_drop]
  grind

/-- Elements written one after another are one write of all their bytes (R153). -/
theorem putElements_eq (w : Nat) (ps : List Nat) (B : Bytes) (o : Nat) (h : o + w * ps.length ≤ B.length) :
    putElements w ps B o = putBytes B o (ps.flatMap (leBytes w)) := by
  induction ps generalizing B o with
  | nil => simp [putElements, putBytes]
  | cons p ps ih =>
    simp only [List.length_cons, Nat.mul_add, Nat.mul_one] at h
    have hw : o + w ≤ B.length := by omega
    have hl : ∀ l : List Nat, (l.flatMap (leBytes w)).length = w * l.length := by
      intro l
      induction l with
      | nil => simp
      | cons x l ih => simp [ih, Nat.mul_add]; omega
    rw [putElements, ih _ _ (by rw [memWrite_length _ hw]; omega), memWrite_eq_putBytes]
    have h2 := putBytes_putBytes (B := B) (o := o) (t := leBytes w p) (u := ps.flatMap (leBytes w))
      (by rw [leBytes_length, hl]; omega)
    rw [leBytes_length] at h2
    simpa using h2

/-- The bytes of as many elements of `w` bytes each. -/
theorem flatMap_leBytes_length (w : Nat) (ps : List Nat) : (ps.flatMap (leBytes w)).length = w * ps.length := by
  induction ps with
  | nil => simp
  | cons x l ih => simp [ih, Nat.mul_add]; omega

/-- Every byte after a write: the written one inside the range, the old one outside. -/
theorem putBytes_get {B : Bytes} {o j : Nat} {t : Bytes} (h : o + t.length ≤ B.length) :
    (putBytes B o t)[j]? = if j < o then B[j]? else if j < o + t.length then t[j - o]? else B[j]? := by
  by_cases h1 : j < o
  · rw [if_pos h1, putBytes_get_before h h1]
  · rw [if_neg h1]
    split
    · rename_i h2
      have hs := congrArg (·[j - o]?) (slice_putBytes h)
      simp only [slice, List.getElem?_drop, show o + (j - o) = j by omega, List.getElem?_take_of_lt h2] at hs
      exact hs
    · exact putBytes_get_after h (by omega)

/-- Writes over disjoint ranges commute. -/
theorem putBytes_comm {B : Bytes} {o q : Nat} {t u : Bytes} (ho : o + t.length ≤ B.length)
    (hq : q + u.length ≤ B.length) (hd : o + t.length ≤ q ∨ q + u.length ≤ o) :
    putBytes (putBytes B o t) q u = putBytes (putBytes B q u) o t := by
  have l1 : q + u.length ≤ (putBytes B o t).length := by rw [putBytes_length ho]; exact hq
  have l2 : o + t.length ≤ (putBytes B q u).length := by rw [putBytes_length hq]; exact ho
  apply List.ext_getElem?
  intro j
  rw [putBytes_get l1, putBytes_get l2, putBytes_get ho, putBytes_get hq]
  split_ifs <;> first | rfl | omega

theorem zeros_add (a b : Nat) : zeros (a + b) = zeros a ++ zeros b := by
  simp [zeros, List.replicate_append_replicate]

/-- A write at the front of a stretch of zeros. -/
theorem putBytes_zeros {A C : Bytes} {n : Nat} {t : Bytes} (h : t.length ≤ n) :
    putBytes (A ++ zeros n ++ C) A.length t = A ++ (t ++ zeros (n - t.length)) ++ C := by
  have e : A ++ zeros n ++ C = (A ++ zeros t.length) ++ (zeros (n - t.length) ++ C) := by
    rw [← List.append_assoc, List.append_assoc A (zeros t.length), ← zeros_add, Nat.add_sub_cancel' h]
  have hl : A.length + t.length = (A ++ zeros t.length).length := by simp
  rw [putBytes, e, hl, List.drop_left, List.append_assoc A (zeros t.length), List.take_left]
  simp only [List.append_assoc]

theorem slice_eq_take_drop (B : Bytes) (o n : Nat) : slice B o (o + n) = (B.drop o).take n := by
  simp [slice, List.drop_take]

/-! ### Trailing zeros (42_field_codec_read.md R182, 43_packer.md R205) -/

theorem stripZeros_append_zeros (t : Bytes) (n : Nat) : stripZeros (t ++ zeros n) = stripZeros t := by
  unfold stripZeros
  induction n with
  | zero => simp
  | succ n ih =>
    rw [zeros, List.replicate_succ', ← List.append_assoc, List.rdropWhile_concat_pos _ _ _ (by simp)]
    exact ih

theorem stripZeros_concat_of_ne {P : Bytes} {b : Byte} (h : b ≠ 0) : stripZeros (P ++ [b]) = P ++ [b] := by
  unfold stripZeros
  rw [List.rdropWhile_concat_neg]
  simpa using h

/-- What is stripped is zeros, and what is left does not end in a zero. -/
theorem stripZeros_spec (B : Bytes) : ∃ k, B = stripZeros B ++ zeros k ∧ (stripZeros B).getLast? ≠ some 0 := by
  induction B using List.reverseRecOn with
  | nil => exact ⟨0, by simp [stripZeros], by simp [stripZeros]⟩
  | append_singleton B b ih =>
    by_cases hb : b = 0
    · obtain ⟨k, h1, h2⟩ := ih
      have hs : stripZeros (B ++ [b]) = stripZeros B := by
        subst hb
        exact stripZeros_append_zeros B 1
      refine ⟨k + 1, ?_, by rw [hs]; exact h2⟩
      rw [hs, zeros_add, ← List.append_assoc, ← h1, hb]
      rfl
    · refine ⟨0, by simp [stripZeros_concat_of_ne hb], ?_⟩
      rw [stripZeros_concat_of_ne hb]
      simpa using hb

end Sys2Proof.Machine
end

