-- ==== Sys2Proof/Laws/Codec.lean ====
section
/-! SUPPORT. The operand readers: each gives back what its writer wrote, whatever bytes follow (Agrees), and each takes a
front part of the bytes and nothing else (TakesFront). -/

namespace Sys2Proof

open Machine (leBytes leNat leBytes_length leNat_leBytes)

/-! ### What a reader gives back -/

/-- A writer and a reader of one sort of operand agree. -/
def Agrees {α : Type} (e : α → Bytes) (t : Take α) : Prop := ∀ a rest, t (e a ++ rest) = some (a, rest)

theorem take1_of_agrees {α β : Type} {e : α → Bytes} {t : Take α} (h : Agrees e t) (f : α → β) (a : α) (rest : Bytes) :
    take1 f t (e a ++ rest) = some (f a, rest) := by
  simp only [take1, h a rest]

theorem takeThen_of_agrees {α β : Type} {e : α → Bytes} {t : Take α} (h : Agrees e t) (f : α → Take β) (a : α)
    (rest : Bytes) : takeThen t f (e a ++ rest) = f a rest := by
  simp only [takeThen, h a rest]

theorem takeNat_encodeDigits (k n : Nat) (h : n < 2 ^ (k + 1)) (rest : Bytes) :
    takeNat (encodeDigits k n ++ rest) = some (n, rest) := by
  induction k generalizing n with
  | zero =>
    have : n % 256 = n := Nat.mod_eq_of_lt (by omega)
    simp [encodeDigits, takeNat, this]
    omega
  | succ k ih =>
    unfold encodeDigits
    split
    · rename_i hn
      have : n % 256 = n := Nat.mod_eq_of_lt (by omega)
      simp [takeNat, this, hn]
    · rename_i hn
      have hlt : n / 128 < 2 ^ (k + 1) := by
        have : n < 2 ^ (k + 1) * 2 := by rw [← Nat.pow_succ]; exact h
        omega
      have h1 : (128 + n % 128) % 256 = 128 + n % 128 := Nat.mod_eq_of_lt (by omega)
      simp only [List.cons_append, takeNat, BitVec.toNat_ofNat]
      rw [show (2 : Nat) ^ 8 = 256 from rfl, h1, if_neg (by omega), ih _ hlt]
      simp only [Option.some.injEq, Prod.mk.injEq, and_true]
      omega

theorem agrees_nat : Agrees encodeNat takeNat := fun n rest =>
  takeNat_encodeDigits n.log2 n Nat.lt_log2_self rest

theorem agrees_int : Agrees encodeInt takeInt := by
  intro v rest
  cases v with
  | ofNat n => simp [encodeInt, takeInt, take1_of_agrees agrees_nat]
  | negSucc n =>
    simp only [encodeInt, takeInt, take1_of_agrees agrees_nat]
    rw [if_neg (by omega), show (2 * n + 1) / 2 = n by omega]

/-- An array length greater than 0 comes back (WellFormed.lean). -/
theorem takeCount_encodeCount {n : Nat} (h : 0 < n) (rest : Bytes) :
    takeCount (encodeCount n ++ rest) = some (n, rest) := by
  simp only [encodeCount, takeCount, take1_of_agrees agrees_nat]
  rw [Nat.sub_add_cancel h]

theorem takeRaw_append (b rest : Bytes) : takeRaw b.length (b ++ rest) = some (b, rest) := by
  simp [takeRaw]

theorem take1_takeRaw_leBytes {α : Type} (f : Bytes → α) (n v : Nat) (rest : Bytes) :
    take1 f (takeRaw n) (leBytes n v ++ rest) = some (f (leBytes n v), rest) := by
  have h := takeRaw_append (leBytes n v) rest
  rw [leBytes_length] at h
  simp only [take1, h]

theorem agrees_bits16 : Agrees (encodeBits 2) takeBits16 := by
  intro v rest
  rw [encodeBits, takeBits16, take1_takeRaw_leBytes, leNat_leBytes, Nat.mod_eq_of_lt (by simpa using v.isLt),
    BitVec.ofNat_toNat, BitVec.setWidth_eq]

theorem agrees_bits24 : Agrees (encodeBits 3) takeBits24 := by
  intro v rest
  rw [encodeBits, takeBits24, take1_takeRaw_leBytes, leNat_leBytes, Nat.mod_eq_of_lt (by simpa using v.isLt),
    BitVec.ofNat_toNat, BitVec.setWidth_eq]

theorem agrees_bits32 : Agrees (encodeBits 4) takeBits32 := by
  intro v rest
  rw [encodeBits, takeBits32, take1_takeRaw_leBytes, leNat_leBytes, Nat.mod_eq_of_lt (by simpa using v.isLt),
    BitVec.ofNat_toNat, BitVec.setWidth_eq]

theorem agrees_bits64 : Agrees (encodeBits 8) takeBits64 := by
  intro v rest
  rw [encodeBits, takeBits64, take1_takeRaw_leBytes, leNat_leBytes, Nat.mod_eq_of_lt (by simpa using v.isLt),
    BitVec.ofNat_toNat, BitVec.setWidth_eq]

theorem agrees_byte : Agrees (fun b => [b]) takeByte := fun _ _ => rfl

theorem agrees_bytes : Agrees encodeBytes takeBytes := by
  intro b rest
  rw [encodeBytes, takeBytes, List.append_assoc, takeThen_of_agrees agrees_nat, takeRaw_append]

theorem agrees_buffer : Agrees encodeBuffer takeBuffer := by
  intro b rest
  rw [encodeBuffer, takeBuffer, List.append_assoc, takeThen_of_agrees agrees_nat, Nat.xor_assoc, Nat.xor_self,
    Nat.xor_zero, takeRaw_append]

theorem takeMany_flatMap {α : Type} {e : α → Bytes} {t : Take α} (h : Agrees e t) (xs : List α) (rest : Bytes) :
    takeMany t xs.length (xs.flatMap e ++ rest) = some (xs, rest) := by
  induction xs with
  | nil => rfl
  | cons x xs ih =>
    simp only [List.length_cons, List.flatMap_cons, List.append_assoc, takeMany, takeThen_of_agrees h, take1, ih]

theorem agrees_list {α : Type} {e : α → Bytes} {t : Take α} (h : Agrees e t) :
    Agrees (encodeList e) (takeList t) := by
  intro xs rest
  rw [encodeList, takeList, List.append_assoc, takeThen_of_agrees agrees_nat, takeMany_flatMap h]

theorem agrees_scalar : Agrees encodeScalar takeScalar := by
  intro x rest
  cases x with
  | int v => exact take1_of_agrees agrees_int Scalar.int v rest
  | b32 p => exact take1_of_agrees agrees_bits32 Scalar.b32 p rest
  | b64 p => exact take1_of_agrees agrees_bits64 Scalar.b64 p rest

theorem agrees_value : Agrees encodeValue takeValue := by
  intro x rest
  cases x with
  | scalar x => exact take1_of_agrees agrees_scalar Value.scalar x rest
  | text t => exact take1_of_agrees agrees_bytes Value.text t rest
  | list xs => exact take1_of_agrees (agrees_list agrees_scalar) Value.list xs rest

theorem agrees_msg : Agrees encodeMsg takeMsg := by
  intro m rest
  simp only [encodeMsg, takeMsg, List.append_assoc, takeThen_of_agrees agrees_nat,
    take1_of_agrees (agrees_list agrees_value)]

/-! ### What a reader takes -/

/-- The reader takes a front part of the bytes, and what it reads has the property. -/
def TakesFront {α : Type} (t : Take α) (P : α → Prop) : Prop :=
  ∀ bs a rest, t bs = some (a, rest) → P a ∧ ∃ used : Bytes, bs = used ++ rest

/-- The property everything has. -/
abbrev Anything {α : Type} : α → Prop := fun _ => True

theorem takesFront_some {α : Type} {P : α → Prop} {a : α} (h : P a) : TakesFront (fun bs => some (a, bs)) P := by
  rintro bs a' rest ⟨⟩
  exact ⟨h, [], rfl⟩

theorem takesFront_take1 {α β : Type} {f : α → β} {t : Take α} {P : α → Prop} {Q : β → Prop} (h : TakesFront t P)
    (hf : ∀ x, P x → Q (f x)) : TakesFront (take1 f t) Q := by
  intro bs b rest hb
  unfold take1 at hb
  split at hb
  · cases hb
  · rename_i x r hx
    cases hb
    exact ⟨hf _ (h _ _ _ hx).1, (h _ _ _ hx).2⟩

theorem takesFront_takeThen {α β : Type} {f : α → Take β} {t : Take α} {P : α → Prop} {Q : β → Prop}
    (h : TakesFront t P) (hf : ∀ x, P x → TakesFront (f x) Q) : TakesFront (takeThen t f) Q := by
  intro bs b rest hb
  unfold takeThen at hb
  split at hb
  · cases hb
  · rename_i x r hx
    obtain ⟨hP, u, rfl⟩ := h _ _ _ hx
    obtain ⟨hQ, v, rfl⟩ := hf _ hP _ _ _ hb
    exact ⟨hQ, u ++ v, by simp⟩

/-- A reader behind a byte that was looked at first. -/
theorem takesFront_behind {α : Type} {t : Take α} {P : α → Prop} (h : TakesFront t P) {b : Byte} {bs rest : Bytes} {a : α}
    (ha : t bs = some (a, rest)) : P a ∧ ∃ used : Bytes, b :: bs = used ++ rest := by
  obtain ⟨hP, u, rfl⟩ := h _ _ _ ha
  exact ⟨hP, b :: u, rfl⟩

theorem takesFront_nat : TakesFront takeNat Anything := by
  intro bs
  induction bs with
  | nil => rintro a rest ⟨⟩
  | cons b bs ih =>
    intro a rest h
    unfold takeNat at h
    split at h
    · cases h
      exact ⟨trivial, [b], rfl⟩
    · split at h
      · cases h
      · rename_i n r hn
        cases h
        obtain ⟨_, u, hu⟩ := ih _ _ hn
        exact ⟨trivial, b :: u, by rw [hu]; rfl⟩

theorem takesFront_int : TakesFront takeInt Anything := takesFront_take1 takesFront_nat fun _ _ => trivial

theorem takesFront_count : TakesFront takeCount (0 < ·) := takesFront_take1 takesFront_nat fun n _ => Nat.succ_pos n

theorem takesFront_byte : TakesFront takeByte Anything := by
  intro bs a rest h
  cases bs <;> cases h
  exact ⟨trivial, [_], rfl⟩

theorem takesFront_raw (n : Nat) : TakesFront (takeRaw n) Anything := by
  intro bs a rest h
  unfold takeRaw at h
  split at h <;> cases h
  exact ⟨trivial, _, (List.take_append_drop n bs).symm⟩

theorem takesFront_bits16 : TakesFront takeBits16 Anything := takesFront_take1 (takesFront_raw 2) fun _ _ => trivial
theorem takesFront_bits24 : TakesFront takeBits24 Anything := takesFront_take1 (takesFront_raw 3) fun _ _ => trivial
theorem takesFront_bits32 : TakesFront takeBits32 Anything := takesFront_take1 (takesFront_raw 4) fun _ _ => trivial
theorem takesFront_bits64 : TakesFront takeBits64 Anything := takesFront_take1 (takesFront_raw 8) fun _ _ => trivial

theorem takesFront_bytes : TakesFront takeBytes Anything :=
  takesFront_takeThen takesFront_nat fun _ _ => takesFront_raw _

theorem takesFront_buffer : TakesFront takeBuffer Anything :=
  takesFront_takeThen takesFront_nat fun _ _ => takesFront_raw _

theorem takesFront_many {α : Type} {t : Take α} (h : TakesFront t Anything) (n : Nat) :
    TakesFront (takeMany t n) Anything := by
  induction n with
  | zero => exact takesFront_some trivial
  | succ n ih => exact takesFront_takeThen h fun _ _ => takesFront_take1 ih fun _ _ => trivial

theorem takesFront_list {α : Type} {t : Take α} (h : TakesFront t Anything) : TakesFront (takeList t) Anything :=
  takesFront_takeThen takesFront_nat fun _ _ => takesFront_many h _

theorem takesFront_scalar : TakesFront takeScalar Anything := by
  intro bs a rest h
  cases bs with
  | nil => cases h
  | cons b bs =>
    simp only [takeScalar] at h
    split at h
    · exact takesFront_behind (takesFront_take1 takesFront_int fun _ _ => trivial) h
    · exact takesFront_behind (takesFront_take1 takesFront_bits32 fun _ _ => trivial) h
    · exact takesFront_behind (takesFront_take1 takesFront_bits64 fun _ _ => trivial) h
    · cases h

theorem takesFront_value : TakesFront takeValue Anything := by
  intro bs a rest h
  cases bs with
  | nil => cases h
  | cons b bs =>
    simp only [takeValue] at h
    split at h
    · exact takesFront_behind (takesFront_take1 takesFront_scalar fun _ _ => trivial) h
    · exact takesFront_behind (takesFront_take1 takesFront_bytes fun _ _ => trivial) h
    · exact takesFront_behind (takesFront_take1 (takesFront_list takesFront_scalar) fun _ _ => trivial) h
    · cases h

theorem takesFront_msg : TakesFront takeMsg Anything :=
  takesFront_takeThen takesFront_nat fun _ _ => takesFront_takeThen takesFront_nat fun _ _ =>
    takesFront_takeThen takesFront_nat fun _ _ => takesFront_takeThen takesFront_nat fun _ _ =>
      takesFront_take1 (takesFront_list takesFront_value) fun _ _ => trivial

end Sys2Proof
end

