-- ==== Sys2Proof/Laws/Instances.lean ====
section
/-! SUPPORT. What a step of one instance does to each instance of a list of them. -/

namespace Sys2Proof.Machine

@[simp] theorem advance_next (s : State) : advance (.next s) = step s := rfl
@[simp] theorem advance_fault (f : Fault) : advance (.fault f) = .fault f := rfl
@[simp] theorem advance_refused (r : Refusal) : advance (.refused r) = .refused r := rfl

/-- The instance that steps advances. -/
theorem stepInstance_self (k : Nat) (sys : List Outcome) : (stepInstance k sys)[k]? = sys[k]?.map advance := by
  simp [stepInstance]

/-- Every other instance is untouched, whatever the step of the one answers. -/
theorem stepInstance_other {j k : Nat} (h : j ≠ k) (sys : List Outcome) : (stepInstance j sys)[k]? = sys[k]? := by
  simp [stepInstance, h]

/-- Instances neither appear nor vanish. -/
theorem stepInstance_length (k : Nat) (sys : List Outcome) : (stepInstance k sys).length = sys.length := by
  simp [stepInstance]

/-- A run that has ended stays as it ended. -/
theorem runAlone_refused (n : Nat) (r : Refusal) : runAlone n (.refused r) = .refused r := by
  induction n with
  | zero => rfl
  | succ n ih => simpa [runAlone] using ih

end Sys2Proof.Machine
end

