-- ==== Sys2Proof/Laws/Ops.lean ====
section
/-! SUPPORT. What each shared operation of the field codec can answer, said once: every accepted write is one putBytes
inside the field's range, every accepted read leaves everything as it is. -/

namespace Sys2Proof.Machine

/-- A pattern has as many bits as the kind's width. -/
theorem pattern_lt {k : Kind} {x : Scalar} {p : Nat} (h : k.pattern x = some p) : p < 256 ^ k.width := by
  have hv : ∀ (v : Int) (n : Nat), 0 < n → (v % (n : Int)).toNat < n := fun v n hn => by
    have h1 := Int.emod_nonneg v (b := n) (by omega)
    have h2 := Int.emod_lt_of_pos v (b := n) (by omega)
    omega
  cases k <;> cases x <;> simp only [Kind.pattern, Option.some.injEq, reduceCtorEq] at h <;> subst h
  all_goals first
    | exact hv _ (2 ^ 8) (by decide)
    | exact hv _ (2 ^ 16) (by decide)
    | exact hv _ (2 ^ 32) (by decide)
    | exact hv _ (2 ^ 64) (by decide)
    | exact BitVec.isLt _

theorem patterns_length {k : Kind} {xs : List Scalar} {ps : List Nat} (h : patterns k xs = some ps) :
    ps.length = xs.length := by
  induction xs generalizing ps with
  | nil => simp_all [patterns]
  | cons x xs ih =>
    simp only [patterns] at h
    cases hx : k.pattern x with
    | none => simp [hx] at h
    | some p =>
      cases hxs : patterns k xs with
      | none => simp [hx, hxs] at h
      | some qs =>
        simp only [hx, hxs, Option.some.injEq] at h
        simp [← h, ih hxs]

theorem writeScalar_ok {k : Kind} {B B' : Bytes} {o : Nat} {x : Scalar} {tr : List Anomaly} :
    writeScalar k B o x = .ok (B', tr) ↔ ∃ p, k.pattern x = some p ∧ o + k.width ≤ B.length ∧
      B' = putBytes B o (leBytes k.width p) ∧ tr = scalarLabel k x := by
  unfold writeScalar
  cases hx : k.pattern x with
  | none => simp
  | some p =>
    by_cases hr : o + k.width ≤ B.length
    · simp [inside, hr, memWrite_eq_putBytes, eq_comm]
    · simp [inside, hr]

theorem writeText_ok {B B' : Bytes} {o N : Nat} {t : Bytes} {tr : List Anomaly} :
    writeText B o N t = .ok (B', tr) ↔ 0 < N ∧ o + N ≤ B.length ∧ B' = putBytes B o (t.take N) ∧
      tr = textLabel N t := by
  unfold writeText
  by_cases hN : N = 0
  · simp [hN]
  · by_cases hr : o + N ≤ B.length
    · simp [hN, inside, hr, Nat.pos_of_ne_zero hN, eq_comm]
    · simp [hN, inside, hr]

theorem writeArray_ok {k : Kind} {B B' : Bytes} {o n : Nat} {xs : List Scalar} {tr : List Anomaly} :
    writeArray k B o n xs = .ok (B', tr) ↔ ∃ ps, patterns k xs = some ps ∧ 0 < n ∧ o + k.width * n ≤ B.length ∧
      B' = putBytes B o ((ps.take n).flatMap (leBytes k.width)) ∧ tr = arrayLabel k n xs := by
  unfold writeArray
  cases hx : patterns k xs with
  | none => simp
  | some ps =>
    by_cases hn : n = 0
    · simp [hn]
    · by_cases hr : o + k.width * n ≤ B.length
      · have hl : o + k.width * (ps.take n).length ≤ B.length := by
          have : (ps.take n).length ≤ n := by simp
          have := Nat.mul_le_mul_left k.width this
          omega
        simp [hn, inside, hr, Nat.pos_of_ne_zero hn, putElements_eq _ _ _ _ hl, eq_comm]
      · simp [hn, inside, hr]

/-- An accepted field write: some bytes, no more than the field's size, put at the field's offset inside the buffer; the
same write into any other buffer that holds the field puts the same bytes and raises the same labels. -/
theorem writeField_ok {d : Desc} {B B' : Bytes} {o : Nat} {v : Value} {tr : List Anomaly}
    (h : writeField d B o v = .ok (B', tr)) :
    ∃ t : Bytes, t.length ≤ d.size ∧ o + d.size ≤ B.length ∧ B' = putBytes B o t ∧
      ∀ C q, q + d.size ≤ C.length → writeField d C q v = .ok (putBytes C q t, tr) := by
  obtain ⟨name, k, ext, n⟩ := d
  by_cases hz : n = 0
  · subst hz
    cases v with
    | scalar x =>
      have key (hw : ∀ C q, writeField ⟨name, k, ext, 0⟩ C q (.scalar x) = writeScalar k C q x) :
          ∃ t : Bytes, t.length ≤ k.width ∧ o + k.width ≤ B.length ∧ B' = putBytes B o t ∧
            ∀ C q, q + k.width ≤ C.length →
              writeField ⟨name, k, ext, 0⟩ C q (.scalar x) = .ok (putBytes C q t, tr) := by
        rw [hw] at h
        obtain ⟨p, hp, hr, hB, ht⟩ := writeScalar_ok.mp h
        exact ⟨_, by simp, hr, hB, fun C q hq => by rw [hw]; exact writeScalar_ok.mpr ⟨p, hp, hq, rfl, ht⟩⟩
      cases k
      case text => cases h
      all_goals exact key fun _ _ => rfl
    | text t => cases k <;> cases h
    | list xs => cases k <;> cases h
  · have hn := Nat.pos_of_ne_zero hz
    simp only [Desc.size, hz, if_false]
    cases v with
    | scalar x => cases k <;> simp [writeField, hz] at h
    | text t =>
      cases k <;> simp only [writeField, hz, if_false, reduceCtorEq] at h ⊢
      obtain ⟨_, hr, hB, ht⟩ := writeText_ok.mp h
      refine ⟨t.take n, by simp [Kind.width], by simpa [Kind.width] using hr, hB, fun C q hq => ?_⟩
      exact writeText_ok.mpr ⟨hn, by simpa [Kind.width] using hq, rfl, ht⟩
    | list xs =>
      have key (hw : ∀ C q, writeField ⟨name, k, ext, n⟩ C q (.list xs) = writeArray k C q n xs) :
          ∃ t : Bytes, t.length ≤ k.width * n ∧ o + k.width * n ≤ B.length ∧ B' = putBytes B o t ∧
            ∀ C q, q + k.width * n ≤ C.length →
              writeField ⟨name, k, ext, n⟩ C q (.list xs) = .ok (putBytes C q t, tr) := by
        rw [hw] at h
        obtain ⟨ps, hp, _, hr, hB, ht⟩ := writeArray_ok.mp h
        refine ⟨_, ?_, hr, hB, fun C q hq => by rw [hw]; exact writeArray_ok.mpr ⟨ps, hp, hn, hq, rfl, ht⟩⟩
        rw [flatMap_leBytes_length]
        exact Nat.mul_le_mul_left _ (by simp)
      cases k
      case text => simp [writeField, hz] at h
      all_goals exact key fun _ _ => by simp [writeField, hz]

theorem writeField_length {d : Desc} {B B' : Bytes} {o : Nat} {v : Value} {tr : List Anomaly}
    (h : writeField d B o v = .ok (B', tr)) : B'.length = B.length := by
  obtain ⟨t, ht, hr, rfl, _⟩ := writeField_ok h
  exact putBytes_length (by omega)

theorem readScalar_ok {k : Kind} {B : Bytes} {o : Nat} {v : Value} {tr : List Anomaly} :
    readScalar k B o = .ok (v, tr) ↔ o + k.width ≤ B.length ∧ v = .scalar (scalarAt k B o) ∧ tr = [] := by
  unfold readScalar
  by_cases hr : o + k.width ≤ B.length
  · simp [inside, hr, eq_comm]
  · simp [inside, hr]

theorem readText_ok {B : Bytes} {o N : Nat} {v : Value} {tr : List Anomaly} :
    readText B o N = .ok (v, tr) ↔ 0 < N ∧ o + N ≤ B.length ∧ v = .text (textAt B o N) ∧ tr = [] := by
  unfold readText
  by_cases hN : N = 0
  · simp [hN]
  · by_cases hr : o + N ≤ B.length
    · simp [hN, inside, hr, Nat.pos_of_ne_zero hN, eq_comm]
    · simp [hN, inside, hr]

theorem readArray_ok {k : Kind} {B : Bytes} {o n : Nat} {v : Value} {tr : List Anomaly} :
    readArray k B o n = .ok (v, tr) ↔ 0 < n ∧ o + k.width * n ≤ B.length ∧ v = .list (arrayAt k B o n) ∧ tr = [] := by
  unfold readArray
  by_cases hn : n = 0
  · simp [hn]
  · by_cases hr : o + k.width * n ≤ B.length
    · simp [hn, inside, hr, Nat.pos_of_ne_zero hn, eq_comm]
    · simp [hn, inside, hr]

/-! ### The checksum -/

/-- A shift of the register is linear (40_checksum.md R121). -/
theorem crcShift_xor (x y : BitVec 16) : crcShift (x ^^^ y) = crcShift x ^^^ crcShift y := by
  unfold crcShift
  cases hx : x.getLsbD 0 <;> cases hy : y.getLsbD 0 <;>
    simp only [BitVec.getLsbD_xor, hx, hy, BitVec.ushiftRight_xor_distrib, Bool.xor_self, Bool.xor_true, Bool.xor_false,
      Bool.not_false, if_true, if_false, Bool.false_eq_true] <;> ac_nf
  all_goals simp

theorem repeat_crcShift_xor (n : Nat) (x y : BitVec 16) :
    Nat.repeat crcShift n (x ^^^ y) = Nat.repeat crcShift n x ^^^ Nat.repeat crcShift n y := by
  induction n with
  | zero => rfl
  | succ n ih => simp only [Nat.repeat, ih, crcShift_xor]

@[simp] theorem crcBlock_nil (acc : BitVec 16) : crcBlock acc [] = acc := rfl

@[simp] theorem crcBlock_cons (acc : BitVec 16) (b : Byte) (bs : Bytes) :
    crcBlock acc (b :: bs) = crcBlock (crcAcc acc b) bs := rfl

end Sys2Proof.Machine
end

