-- ==== Sys2Proof/Laws/Packer.lean ====
section
/-! SUPPORT. What the steps of PK.PACK can do, said once each, and what a packed message rests on. -/

namespace Sys2Proof.Machine

/-- The length step 4 finds is that of the payload without its trailing zeros (43_packer.md R205). -/
theorem packTruncate_eq {A P C : Bytes} (hA : A.length = 10) (n : Nat) (hn : n ≤ P.length) :
    packTruncate (A ++ P ++ C) n = (stripZeros (P.take n)).length := by
  induction n with
  | zero => simp [packTruncate, stripZeros]
  | succ n ih =>
    have hg : (A ++ P ++ C).getD (10 + n) 0 = P.getD n 0 := by
      simp only [List.getD]
      rw [List.append_assoc, List.getElem?_append_right (by omega), List.getElem?_append_left (by omega), hA,
        Nat.add_sub_cancel_left]
    have ht : P.take (n + 1) = P.take n ++ [P.getD n 0] := by
      rw [List.take_add_one]
      simp [List.getD, List.getElem?_eq_getElem (show n < P.length by omega)]
    rw [packTruncate, show Config.hdrLen = 10 from rfl, hg, ih (by omega), ht]
    split
    · rename_i h
      rw [h]
      exact congrArg List.length (stripZeros_append_zeros _ 1).symm
    · rename_i h
      rw [stripZeros_concat_of_ne h]
      simp
      omega

/-- The field walk keeps the buffer's length. -/
theorem packFields_length {ds : List Desc} {vs : List Value} {F F' : Bytes} {off : Nat} {tr : List Anomaly}
    (h : packFields ds vs F off = .ok (F', tr)) : F'.length = F.length := by
  induction ds generalizing vs F F' off tr with
  | nil =>
    cases vs with
    | nil => cases h; rfl
    | cons v vs => cases h
  | cons d ds ih =>
    cases vs with
    | nil => cases h
    | cons v vs =>
      simp only [packFields] at h
      split at h
      · cases h
      · rename_i F₁ tr₁ hw
        split at h
        · cases h
        · rename_i F₂ tr₂ hp
          cases h
          rw [ih hp, writeField_length hw]

/-- Everything an accepted PK.PACK rests on: a known id, a well-formed entry, one value for each descriptor, each
accepted by the field walk. -/
theorem pack_ok {cat : Catalog} {m : Msg} {F : Bytes} {tr : List Anomaly} (h : pack cat m = .ok (F, tr)) :
    ∃ e F', cat.lookup (BitVec.ofNat 24 m.messageId) = some e ∧ e.wf = true ∧ m.values.length = e.descs.length ∧
      packFields e.descs m.values (packHeader e m (packAllocate e)) 0 = .ok (F', tr) ∧ F = packFinish e F' := by
  unfold pack at h
  split at h
  · cases h
  · rename_i e he
    split at h
    · cases h
    · rename_i hw
      split at h
      · cases h
      · rename_i hl
        split at h
        · cases h
        · rename_i F' tr' hp
          cases h
          exact ⟨e, F', he, by simpa using hw, not_not.mp hl, hp, rfl⟩

/-- An entry that a catalog of well-formed entries answers is well-formed (70_reset_and_hazards.md R322). -/
theorem lookup_wf {cat : Catalog} (h : ∀ a ∈ cat, a.2.wf = true) {id : BitVec 24} {e : Entry}
    (he : cat.lookup id = some e) : e.wf = true := by
  unfold Catalog.lookup at he
  simp only [Option.map_eq_some_iff] at he
  obtain ⟨a, ha, rfl⟩ := he
  exact h a (List.mem_of_find?_eq_some ha)

end Sys2Proof.Machine
end

