-- ==== Sys2Proof/Laws/PerInstr.lean ====
section
/-! SUPPORT. Laws made per operation. LeadingCode: whatever bytes follow an operation's code, the decoder reads an
operation of that same code, and a well-formed one, or it rejects them; the code alone settles which operation it is
(30_encoding.md R100). -/

namespace Sys2Proof

theorem take1_some {α β : Type} {f : α → β} {a : Take α} {bs rest : Bytes} {y : β} :
    take1 f a bs = some (y, rest) ↔ ∃ x, a bs = some (x, rest) ∧ f x = y := by
  unfold take1
  split <;> simp_all
  grind

theorem takeThen_some {α β : Type} {a : Take α} {f : α → Take β} {bs rest : Bytes} {y : β} :
    takeThen a f bs = some (y, rest) ↔ ∃ x mid, a bs = some (x, mid) ∧ f x mid = some (y, rest) := by
  unfold takeThen
  split <;> simp_all

theorem takeCount_pos {bs rest : Bytes} {n : Nat} (h : takeCount bs = some (n, rest)) : 0 < n :=
  (takesFront_count _ _ _ h).1

/-- A successful decode is a successful reading of the operands of the code. -/
theorem decode_ok {op : Byte} {bs rest : Bytes} {j : Instr} (h : decode (op :: bs) = .ok (j, rest)) :
    ∃ t, takeOperands op.toNat = some t ∧ t bs = some (j, rest) := by
  simp only [decode] at h
  cases ht : takeOperands op.toNat with
  | none => simp [ht] at h
  | some t =>
    cases hr : t bs with
    | none => simp [ht, hr] at h
    | some r =>
      simp only [ht, hr, Except.ok.injEq] at h
      exact ⟨t, rfl, by rw [hr, h]⟩

namespace Laws.LeadingCode

def Statement (i : Instr) : Prop :=
  ∀ bs j rest, decode (i.op :: bs) = .ok (j, rest) → j.op = i.op ∧ j.wf = true


theorem fcWrU8 B o v : Statement (.fcWrU8 B o v) := by
  intro bs j rest h
  obtain ⟨t, ht, h⟩ := decode_ok h
  cases ht
  obtain ⟨x0, _, h0, h⟩ := takeThen_some.mp h
  obtain ⟨x1, _, h1, h⟩ := takeThen_some.mp h
  obtain ⟨x, hx, rfl⟩ := take1_some.mp h
  exact ⟨rfl, rfl⟩

theorem fcWrI8 B o v : Statement (.fcWrI8 B o v) := by
  intro bs j rest h
  obtain ⟨t, ht, h⟩ := decode_ok h
  cases ht
  obtain ⟨x0, _, h0, h⟩ := takeThen_some.mp h
  obtain ⟨x1, _, h1, h⟩ := takeThen_some.mp h
  obtain ⟨x, hx, rfl⟩ := take1_some.mp h
  exact ⟨rfl, rfl⟩

theorem fcWrU16 B o v : Statement (.fcWrU16 B o v) := by
  intro bs j rest h
  obtain ⟨t, ht, h⟩ := decode_ok h
  cases ht
  obtain ⟨x0, _, h0, h⟩ := takeThen_some.mp h
  obtain ⟨x1, _, h1, h⟩ := takeThen_some.mp h
  obtain ⟨x, hx, rfl⟩ := take1_some.mp h
  exact ⟨rfl, rfl⟩

theorem fcWrI16 B o v : Statement (.fcWrI16 B o v) := by
  intro bs j rest h
  obtain ⟨t, ht, h⟩ := decode_ok h
  cases ht
  obtain ⟨x0, _, h0, h⟩ := takeThen_some.mp h
  obtain ⟨x1, _, h1, h⟩ := takeThen_some.mp h
  obtain ⟨x, hx, rfl⟩ := take1_some.mp h
  exact ⟨rfl, rfl⟩

theorem fcWrU32 B o v : Statement (.fcWrU32 B o v) := by
  intro bs j rest h
  obtain ⟨t, ht, h⟩ := decode_ok h
  cases ht
  obtain ⟨x0, _, h0, h⟩ := takeThen_some.mp h
  obtain ⟨x1, _, h1, h⟩ := takeThen_some.mp h
  obtain ⟨x, hx, rfl⟩ := take1_some.mp h
  exact ⟨rfl, rfl⟩

theorem fcWrI32 B o v : Statement (.fcWrI32 B o v) := by
  intro bs j rest h
  obtain ⟨t, ht, h⟩ := decode_ok h
  cases ht
  obtain ⟨x0, _, h0, h⟩ := takeThen_some.mp h
  obtain ⟨x1, _, h1, h⟩ := takeThen_some.mp h
  obtain ⟨x, hx, rfl⟩ := take1_some.mp h
  exact ⟨rfl, rfl⟩

theorem fcWrU64 B o v : Statement (.fcWrU64 B o v) := by
  intro bs j rest h
  obtain ⟨t, ht, h⟩ := decode_ok h
  cases ht
  obtain ⟨x0, _, h0, h⟩ := takeThen_some.mp h
  obtain ⟨x1, _, h1, h⟩ := takeThen_some.mp h
  obtain ⟨x, hx, rfl⟩ := take1_some.mp h
  exact ⟨rfl, rfl⟩

theorem fcWrI64 B o v : Statement (.fcWrI64 B o v) := by
  intro bs j rest h
  obtain ⟨t, ht, h⟩ := decode_ok h
  cases ht
  obtain ⟨x0, _, h0, h⟩ := takeThen_some.mp h
  obtain ⟨x1, _, h1, h⟩ := takeThen_some.mp h
  obtain ⟨x, hx, rfl⟩ := take1_some.mp h
  exact ⟨rfl, rfl⟩

theorem fcWrF32 B o v : Statement (.fcWrF32 B o v) := by
  intro bs j rest h
  obtain ⟨t, ht, h⟩ := decode_ok h
  cases ht
  obtain ⟨x0, _, h0, h⟩ := takeThen_some.mp h
  obtain ⟨x1, _, h1, h⟩ := takeThen_some.mp h
  obtain ⟨x, hx, rfl⟩ := take1_some.mp h
  exact ⟨rfl, rfl⟩

theorem fcWrF64 B o v : Statement (.fcWrF64 B o v) := by
  intro bs j rest h
  obtain ⟨t, ht, h⟩ := decode_ok h
  cases ht
  obtain ⟨x0, _, h0, h⟩ := takeThen_some.mp h
  obtain ⟨x1, _, h1, h⟩ := takeThen_some.mp h
  obtain ⟨x, hx, rfl⟩ := take1_some.mp h
  exact ⟨rfl, rfl⟩

theorem fcWrTEXT B o N t : Statement (.fcWrTEXT B o N t) := by
  intro bs j rest h
  obtain ⟨t, ht, h⟩ := decode_ok h
  cases ht
  obtain ⟨x0, _, h0, h⟩ := takeThen_some.mp h
  obtain ⟨x1, _, h1, h⟩ := takeThen_some.mp h
  obtain ⟨x2, _, h2, h⟩ := takeThen_some.mp h
  obtain ⟨x, hx, rfl⟩ := take1_some.mp h
  exact ⟨rfl, decide_eq_true (takeCount_pos h2)⟩

theorem fcRdU8 B o : Statement (.fcRdU8 B o) := by
  intro bs j rest h
  obtain ⟨t, ht, h⟩ := decode_ok h
  cases ht
  obtain ⟨x0, _, h0, h⟩ := takeThen_some.mp h
  obtain ⟨x, hx, rfl⟩ := take1_some.mp h
  exact ⟨rfl, rfl⟩

theorem fcRdI8 B o : Statement (.fcRdI8 B o) := by
  intro bs j rest h
  obtain ⟨t, ht, h⟩ := decode_ok h
  cases ht
  obtain ⟨x0, _, h0, h⟩ := takeThen_some.mp h
  obtain ⟨x, hx, rfl⟩ := take1_some.mp h
  exact ⟨rfl, rfl⟩

theorem fcRdU16 B o : Statement (.fcRdU16 B o) := by
  intro bs j rest h
  obtain ⟨t, ht, h⟩ := decode_ok h
  cases ht
  obtain ⟨x0, _, h0, h⟩ := takeThen_some.mp h
  obtain ⟨x, hx, rfl⟩ := take1_some.mp h
  exact ⟨rfl, rfl⟩

theorem fcRdI16 B o : Statement (.fcRdI16 B o) := by
  intro bs j rest h
  obtain ⟨t, ht, h⟩ := decode_ok h
  cases ht
  obtain ⟨x0, _, h0, h⟩ := takeThen_some.mp h
  obtain ⟨x, hx, rfl⟩ := take1_some.mp h
  exact ⟨rfl, rfl⟩

theorem fcRdU32 B o : Statement (.fcRdU32 B o) := by
  intro bs j rest h
  obtain ⟨t, ht, h⟩ := decode_ok h
  cases ht
  obtain ⟨x0, _, h0, h⟩ := takeThen_some.mp h
  obtain ⟨x, hx, rfl⟩ := take1_some.mp h
  exact ⟨rfl, rfl⟩

theorem fcRdI32 B o : Statement (.fcRdI32 B o) := by
  intro bs j rest h
  obtain ⟨t, ht, h⟩ := decode_ok h
  cases ht
  obtain ⟨x0, _, h0, h⟩ := takeThen_some.mp h
  obtain ⟨x, hx, rfl⟩ := take1_some.mp h
  exact ⟨rfl, rfl⟩

theorem fcRdU64 B o : Statement (.fcRdU64 B o) := by
  intro bs j rest h
  obtain ⟨t, ht, h⟩ := decode_ok h
  cases ht
  obtain ⟨x0, _, h0, h⟩ := takeThen_some.mp h
  obtain ⟨x, hx, rfl⟩ := take1_some.mp h
  exact ⟨rfl, rfl⟩

theorem fcRdI64 B o : Statement (.fcRdI64 B o) := by
  intro bs j rest h
  obtain ⟨t, ht, h⟩ := decode_ok h
  cases ht
  obtain ⟨x0, _, h0, h⟩ := takeThen_some.mp h
  obtain ⟨x, hx, rfl⟩ := take1_some.mp h
  exact ⟨rfl, rfl⟩

theorem fcRdF32 B o : Statement (.fcRdF32 B o) := by
  intro bs j rest h
  obtain ⟨t, ht, h⟩ := decode_ok h
  cases ht
  obtain ⟨x0, _, h0, h⟩ := takeThen_some.mp h
  obtain ⟨x, hx, rfl⟩ := take1_some.mp h
  exact ⟨rfl, rfl⟩

theorem fcRdF64 B o : Statement (.fcRdF64 B o) := by
  intro bs j rest h
  obtain ⟨t, ht, h⟩ := decode_ok h
  cases ht
  obtain ⟨x0, _, h0, h⟩ := takeThen_some.mp h
  obtain ⟨x, hx, rfl⟩ := take1_some.mp h
  exact ⟨rfl, rfl⟩

theorem fcRdTEXT B o N : Statement (.fcRdTEXT B o N) := by
  intro bs j rest h
  obtain ⟨t, ht, h⟩ := decode_ok h
  cases ht
  obtain ⟨x0, _, h0, h⟩ := takeThen_some.mp h
  obtain ⟨x1, _, h1, h⟩ := takeThen_some.mp h
  obtain ⟨x, hx, rfl⟩ := take1_some.mp h
  exact ⟨rfl, decide_eq_true (takeCount_pos hx)⟩

theorem fcWraU8 B o n vs : Statement (.fcWraU8 B o n vs) := by
  intro bs j rest h
  obtain ⟨t, ht, h⟩ := decode_ok h
  cases ht
  obtain ⟨x0, _, h0, h⟩ := takeThen_some.mp h
  obtain ⟨x1, _, h1, h⟩ := takeThen_some.mp h
  obtain ⟨x2, _, h2, h⟩ := takeThen_some.mp h
  obtain ⟨x, hx, rfl⟩ := take1_some.mp h
  exact ⟨rfl, decide_eq_true (takeCount_pos h2)⟩

theorem fcWraI8 B o n vs : Statement (.fcWraI8 B o n vs) := by
  intro bs j rest h
  obtain ⟨t, ht, h⟩ := decode_ok h
  cases ht
  obtain ⟨x0, _, h0, h⟩ := takeThen_some.mp h
  obtain ⟨x1, _, h1, h⟩ := takeThen_some.mp h
  obtain ⟨x2, _, h2, h⟩ := takeThen_some.mp h
  obtain ⟨x, hx, rfl⟩ := take1_some.mp h
  exact ⟨rfl, decide_eq_true (takeCount_pos h2)⟩

theorem fcWraU16 B o n vs : Statement (.fcWraU16 B o n vs) := by
  intro bs j rest h
  obtain ⟨t, ht, h⟩ := decode_ok h
  cases ht
  obtain ⟨x0, _, h0, h⟩ := takeThen_some.mp h
  obtain ⟨x1, _, h1, h⟩ := takeThen_some.mp h
  obtain ⟨x2, _, h2, h⟩ := takeThen_some.mp h
  obtain ⟨x, hx, rfl⟩ := take1_some.mp h
  exact ⟨rfl, decide_eq_true (takeCount_pos h2)⟩

theorem fcWraI16 B o n vs : Statement (.fcWraI16 B o n vs) := by
  intro bs j rest h
  obtain ⟨t, ht, h⟩ := decode_ok h
  cases ht
  obtain ⟨x0, _, h0, h⟩ := takeThen_some.mp h
  obtain ⟨x1, _, h1, h⟩ := takeThen_some.mp h
  obtain ⟨x2, _, h2, h⟩ := takeThen_some.mp h
  obtain ⟨x, hx, rfl⟩ := take1_some.mp h
  exact ⟨rfl, decide_eq_true (takeCount_pos h2)⟩

theorem fcWraU32 B o n vs : Statement (.fcWraU32 B o n vs) := by
  intro bs j rest h
  obtain ⟨t, ht, h⟩ := decode_ok h
  cases ht
  obtain ⟨x0, _, h0, h⟩ := takeThen_some.mp h
  obtain ⟨x1, _, h1, h⟩ := takeThen_some.mp h
  obtain ⟨x2, _, h2, h⟩ := takeThen_some.mp h
  obtain ⟨x, hx, rfl⟩ := take1_some.mp h
  exact ⟨rfl, decide_eq_true (takeCount_pos h2)⟩

theorem fcWraI32 B o n vs : Statement (.fcWraI32 B o n vs) := by
  intro bs j rest h
  obtain ⟨t, ht, h⟩ := decode_ok h
  cases ht
  obtain ⟨x0, _, h0, h⟩ := takeThen_some.mp h
  obtain ⟨x1, _, h1, h⟩ := takeThen_some.mp h
  obtain ⟨x2, _, h2, h⟩ := takeThen_some.mp h
  obtain ⟨x, hx, rfl⟩ := take1_some.mp h
  exact ⟨rfl, decide_eq_true (takeCount_pos h2)⟩

theorem fcWraU64 B o n vs : Statement (.fcWraU64 B o n vs) := by
  intro bs j rest h
  obtain ⟨t, ht, h⟩ := decode_ok h
  cases ht
  obtain ⟨x0, _, h0, h⟩ := takeThen_some.mp h
  obtain ⟨x1, _, h1, h⟩ := takeThen_some.mp h
  obtain ⟨x2, _, h2, h⟩ := takeThen_some.mp h
  obtain ⟨x, hx, rfl⟩ := take1_some.mp h
  exact ⟨rfl, decide_eq_true (takeCount_pos h2)⟩

theorem fcWraI64 B o n vs : Statement (.fcWraI64 B o n vs) := by
  intro bs j rest h
  obtain ⟨t, ht, h⟩ := decode_ok h
  cases ht
  obtain ⟨x0, _, h0, h⟩ := takeThen_some.mp h
  obtain ⟨x1, _, h1, h⟩ := takeThen_some.mp h
  obtain ⟨x2, _, h2, h⟩ := takeThen_some.mp h
  obtain ⟨x, hx, rfl⟩ := take1_some.mp h
  exact ⟨rfl, decide_eq_true (takeCount_pos h2)⟩

theorem fcWraF32 B o n vs : Statement (.fcWraF32 B o n vs) := by
  intro bs j rest h
  obtain ⟨t, ht, h⟩ := decode_ok h
  cases ht
  obtain ⟨x0, _, h0, h⟩ := takeThen_some.mp h
  obtain ⟨x1, _, h1, h⟩ := takeThen_some.mp h
  obtain ⟨x2, _, h2, h⟩ := takeThen_some.mp h
  obtain ⟨x, hx, rfl⟩ := take1_some.mp h
  exact ⟨rfl, decide_eq_true (takeCount_pos h2)⟩

theorem fcWraF64 B o n vs : Statement (.fcWraF64 B o n vs) := by
  intro bs j rest h
  obtain ⟨t, ht, h⟩ := decode_ok h
  cases ht
  obtain ⟨x0, _, h0, h⟩ := takeThen_some.mp h
  obtain ⟨x1, _, h1, h⟩ := takeThen_some.mp h
  obtain ⟨x2, _, h2, h⟩ := takeThen_some.mp h
  obtain ⟨x, hx, rfl⟩ := take1_some.mp h
  exact ⟨rfl, decide_eq_true (takeCount_pos h2)⟩

theorem fcRdaU8 B o n : Statement (.fcRdaU8 B o n) := by
  intro bs j rest h
  obtain ⟨t, ht, h⟩ := decode_ok h
  cases ht
  obtain ⟨x0, _, h0, h⟩ := takeThen_some.mp h
  obtain ⟨x1, _, h1, h⟩ := takeThen_some.mp h
  obtain ⟨x, hx, rfl⟩ := take1_some.mp h
  exact ⟨rfl, decide_eq_true (takeCount_pos hx)⟩

theorem fcRdaI8 B o n : Statement (.fcRdaI8 B o n) := by
  intro bs j rest h
  obtain ⟨t, ht, h⟩ := decode_ok h
  cases ht
  obtain ⟨x0, _, h0, h⟩ := takeThen_some.mp h
  obtain ⟨x1, _, h1, h⟩ := takeThen_some.mp h
  obtain ⟨x, hx, rfl⟩ := take1_some.mp h
  exact ⟨rfl, decide_eq_true (takeCount_pos hx)⟩

theorem fcRdaU16 B o n : Statement (.fcRdaU16 B o n) := by
  intro bs j rest h
  obtain ⟨t, ht, h⟩ := decode_ok h
  cases ht
  obtain ⟨x0, _, h0, h⟩ := takeThen_some.mp h
  obtain ⟨x1, _, h1, h⟩ := takeThen_some.mp h
  obtain ⟨x, hx, rfl⟩ := take1_some.mp h
  exact ⟨rfl, decide_eq_true (takeCount_pos hx)⟩

theorem fcRdaI16 B o n : Statement (.fcRdaI16 B o n) := by
  intro bs j rest h
  obtain ⟨t, ht, h⟩ := decode_ok h
  cases ht
  obtain ⟨x0, _, h0, h⟩ := takeThen_some.mp h
  obtain ⟨x1, _, h1, h⟩ := takeThen_some.mp h
  obtain ⟨x, hx, rfl⟩ := take1_some.mp h
  exact ⟨rfl, decide_eq_true (takeCount_pos hx)⟩

theorem fcRdaU32 B o n : Statement (.fcRdaU32 B o n) := by
  intro bs j rest h
  obtain ⟨t, ht, h⟩ := decode_ok h
  cases ht
  obtain ⟨x0, _, h0, h⟩ := takeThen_some.mp h
  obtain ⟨x1, _, h1, h⟩ := takeThen_some.mp h
  obtain ⟨x, hx, rfl⟩ := take1_some.mp h
  exact ⟨rfl, decide_eq_true (takeCount_pos hx)⟩

theorem fcRdaI32 B o n : Statement (.fcRdaI32 B o n) := by
  intro bs j rest h
  obtain ⟨t, ht, h⟩ := decode_ok h
  cases ht
  obtain ⟨x0, _, h0, h⟩ := takeThen_some.mp h
  obtain ⟨x1, _, h1, h⟩ := takeThen_some.mp h
  obtain ⟨x, hx, rfl⟩ := take1_some.mp h
  exact ⟨rfl, decide_eq_true (takeCount_pos hx)⟩

theorem fcRdaU64 B o n : Statement (.fcRdaU64 B o n) := by
  intro bs j rest h
  obtain ⟨t, ht, h⟩ := decode_ok h
  cases ht
  obtain ⟨x0, _, h0, h⟩ := takeThen_some.mp h
  obtain ⟨x1, _, h1, h⟩ := takeThen_some.mp h
  obtain ⟨x, hx, rfl⟩ := take1_some.mp h
  exact ⟨rfl, decide_eq_true (takeCount_pos hx)⟩

theorem fcRdaI64 B o n : Statement (.fcRdaI64 B o n) := by
  intro bs j rest h
  obtain ⟨t, ht, h⟩ := decode_ok h
  cases ht
  obtain ⟨x0, _, h0, h⟩ := takeThen_some.mp h
  obtain ⟨x1, _, h1, h⟩ := takeThen_some.mp h
  obtain ⟨x, hx, rfl⟩ := take1_some.mp h
  exact ⟨rfl, decide_eq_true (takeCount_pos hx)⟩

theorem fcRdaF32 B o n : Statement (.fcRdaF32 B o n) := by
  intro bs j rest h
  obtain ⟨t, ht, h⟩ := decode_ok h
  cases ht
  obtain ⟨x0, _, h0, h⟩ := takeThen_some.mp h
  obtain ⟨x1, _, h1, h⟩ := takeThen_some.mp h
  obtain ⟨x, hx, rfl⟩ := take1_some.mp h
  exact ⟨rfl, decide_eq_true (takeCount_pos hx)⟩

theorem fcRdaF64 B o n : Statement (.fcRdaF64 B o n) := by
  intro bs j rest h
  obtain ⟨t, ht, h⟩ := decode_ok h
  cases ht
  obtain ⟨x0, _, h0, h⟩ := takeThen_some.mp h
  obtain ⟨x1, _, h1, h⟩ := takeThen_some.mp h
  obtain ⟨x, hx, rfl⟩ := take1_some.mp h
  exact ⟨rfl, decide_eq_true (takeCount_pos hx)⟩

theorem crcINIT : Statement .crcINIT := by
  intro bs j rest h
  obtain ⟨t, ht, h⟩ := decode_ok h
  cases ht
  cases h
  exact ⟨rfl, rfl⟩

theorem crcACC acc b : Statement (.crcACC acc b) := by
  intro bs j rest h
  obtain ⟨t, ht, h⟩ := decode_ok h
  cases ht
  obtain ⟨x0, _, h0, h⟩ := takeThen_some.mp h
  obtain ⟨x, hx, rfl⟩ := take1_some.mp h
  exact ⟨rfl, rfl⟩

theorem crcBLOCK acc B : Statement (.crcBLOCK acc B) := by
  intro bs j rest h
  obtain ⟨t, ht, h⟩ := decode_ok h
  cases ht
  obtain ⟨x0, _, h0, h⟩ := takeThen_some.mp h
  obtain ⟨x, hx, rfl⟩ := take1_some.mp h
  exact ⟨rfl, rfl⟩

theorem crcFRAME seed B : Statement (.crcFRAME seed B) := by
  intro bs j rest h
  obtain ⟨t, ht, h⟩ := decode_ok h
  cases ht
  obtain ⟨x0, _, h0, h⟩ := takeThen_some.mp h
  obtain ⟨x, hx, rfl⟩ := take1_some.mp h
  exact ⟨rfl, rfl⟩

theorem pkPACK m : Statement (.pkPACK m) := by
  intro bs j rest h
  obtain ⟨t, ht, h⟩ := decode_ok h
  cases ht
  obtain ⟨x, _, rfl⟩ := take1_some.mp h
  exact ⟨rfl, rfl⟩

theorem pkBATCH ms : Statement (.pkBATCH ms) := by
  intro bs j rest h
  obtain ⟨t, ht, h⟩ := decode_ok h
  cases ht
  obtain ⟨x, _, rfl⟩ := take1_some.mp h
  exact ⟨rfl, rfl⟩

theorem psFEED chunk : Statement (.psFEED chunk) := by
  intro bs j rest h
  obtain ⟨t, ht, h⟩ := decode_ok h
  cases ht
  obtain ⟨x, _, rfl⟩ := take1_some.mp h
  exact ⟨rfl, rfl⟩

theorem psPUSH b : Statement (.psPUSH b) := by
  intro bs j rest h
  obtain ⟨t, ht, h⟩ := decode_ok h
  cases ht
  obtain ⟨x, _, rfl⟩ := take1_some.mp h
  exact ⟨rfl, rfl⟩

theorem psSTATE : Statement .psSTATE := by
  intro bs j rest h
  obtain ⟨t, ht, h⟩ := decode_ok h
  cases ht
  cases h
  exact ⟨rfl, rfl⟩

theorem catLOOKUP id : Statement (.catLOOKUP id) := by
  intro bs j rest h
  obtain ⟨t, ht, h⟩ := decode_ok h
  cases ht
  obtain ⟨x, _, rfl⟩ := take1_some.mp h
  exact ⟨rfl, rfl⟩

end Laws.LeadingCode

end Sys2Proof
end

