-- ==== Sys2Proof/Laws/State.lean ====
section
/-! SUPPORT. One lemma per field per update of the state and of the parser's tuple. -/

namespace Sys2Proof.Machine

variable (s : State) (r : Result) (tr : List Anomaly) (p : Parser) (chunk : Bytes) (nbits w : Nat) (cat : Catalog)

@[simp] theorem State.answer_ps : (s.answer r tr).ps = s.ps := rfl
@[simp] theorem State.answer_cat : (s.answer r tr).cat = s.cat := rfl
@[simp] theorem State.answer_bufCap : (s.answer r tr).bufCap = s.bufCap := rfl
@[simp] theorem State.answer_port : (s.answer r tr).port = s.port := rfl
@[simp] theorem State.answer_results : (s.answer r tr).results = s.results ++ [r] := rfl
@[simp] theorem State.answer_trace : (s.answer r tr).trace = s.trace ++ tr := rfl

@[simp] theorem State.withFetchWord_ps : (s.withFetchWord nbits w).ps = s.ps := rfl
@[simp] theorem State.withFetchWord_cat : (s.withFetchWord nbits w).cat = s.cat := rfl
@[simp] theorem State.withFetchWord_bufCap : (s.withFetchWord nbits w).bufCap = s.bufCap := rfl
@[simp] theorem State.withFetchWord_port : (s.withFetchWord nbits w).port = fetchBytes nbits w ++ s.port := rfl
@[simp] theorem State.withFetchWord_results : (s.withFetchWord nbits w).results = s.results := rfl
@[simp] theorem State.withFetchWord_trace : (s.withFetchWord nbits w).trace = s.trace := rfl

@[simp] theorem State.create_ps : (State.create cat).ps = Parser.reset := rfl
@[simp] theorem State.create_cat : (State.create cat).cat = cat := rfl
@[simp] theorem State.create_bufCap : (State.create cat).bufCap = none := rfl
@[simp] theorem State.create_port : (State.create cat).port = [] := rfl
@[simp] theorem State.create_results : (State.create cat).results = [] := rfl
@[simp] theorem State.create_trace : (State.create cat).trace = [] := rfl

@[simp] theorem Parser.reset_st : Parser.reset.st = .magic := rfl
@[simp] theorem Parser.reset_buf : Parser.reset.buf = [] := rfl

@[simp] theorem appendChunk_st : (appendChunk p chunk).st = p.st := rfl
@[simp] theorem appendChunk_buf : (appendChunk p chunk).buf = p.buf ++ chunk := rfl
@[simp] theorem appendChunk_len : (appendChunk p chunk).len = p.len := rfl
@[simp] theorem appendChunk_msgid : (appendChunk p chunk).msgid = p.msgid := rfl

@[simp] theorem dropCandidate_st : (dropCandidate p).st = .magic := rfl
@[simp] theorem dropCandidate_buf : (dropCandidate p).buf = p.buf.drop 1 := rfl
@[simp] theorem dropCandidate_len : (dropCandidate p).len = p.len := rfl
@[simp] theorem dropCandidate_msgid : (dropCandidate p).msgid = p.msgid := rfl

/-- The one thing an operation that leaves the block as it is can answer. -/
theorem answer_next {α : Type} {f : α → Result} {s t : State} {e : Except Refusal (α × List Anomaly)}
    (h : answer f s e = .next t) : ∃ a tr, e = .ok (a, tr) ∧ t = s.answer (f a) tr := by
  match e, h with
  | .ok (a, tr), h => exact ⟨a, tr, rfl, by simpa [answer] using h.symm⟩

end Sys2Proof.Machine
end

