-- ==== Sys2Proof/Laws/Scanner.lean ====
section
/-! SUPPORT. What a pass of the scan loop can do, said once; the loop's fuel never runs out; how passes behave when more
bytes stand at the end of the buffer. -/

namespace Sys2Proof.Machine

/-! ### The scan for the magic byte (44_parser.md R232) -/

theorem fromMagic_suffix (B : Bytes) : fromMagic B <:+ B := List.dropWhile_suffix _

theorem fromMagic_length_le (B : Bytes) : (fromMagic B).length ≤ B.length := (fromMagic_suffix B).length_le

/-- The bytes found begin with the magic byte. -/
theorem fromMagic_head {B : Bytes} {b : Byte} {bs : Bytes} (h : fromMagic B = b :: bs) : b = Config.magic := by
  have hd := List.head_dropWhile_not (p := fun b : Byte => b != Config.magic) (l := B)
    (by rw [show List.dropWhile _ B = fromMagic B from rfl, h]; simp)
  simp only [show List.dropWhile (fun b : Byte => b != Config.magic) B = fromMagic B from rfl, h] at hd
  simpa using hd

theorem fromMagic_append_of_cons {A B : Bytes} {b : Byte} {bs : Bytes} (h : fromMagic A = b :: bs) :
    fromMagic (A ++ B) = fromMagic A ++ B := by
  unfold fromMagic at *
  rw [List.dropWhile_append, h]
  rfl

theorem fromMagic_append_of_nil {A B : Bytes} (h : fromMagic A = []) : fromMagic (A ++ B) = fromMagic B := by
  unfold fromMagic at *
  rw [List.dropWhile_append, h]
  rfl

/-! ### One pass -/

/-- How far a state stands along `MAGIC, HEADER, PAYLOAD, CHECKSUM`. -/
def ScanState.rank : ScanState → Nat
  | .magic => 0
  | .header => 1
  | .payload => 2
  | .checksum => 3

/-- What every pass that goes on makes smaller (44_parser.md R243). -/
def scanMeasure (p : Parser) : Nat := 4 * p.buf.length + (3 - p.st.rank)

theorem scanMeasure_lt_fuel (p : Parser) : scanMeasure p < scanFuel p := by
  unfold scanMeasure scanFuel
  omega

/-! What a pass does, case by case (44_parser.md R232 to R238). -/

section
variable {cat : Catalog} {p : Parser} {e : Entry}

theorem scanPass_magic_stop (hst : p.st = .magic) (h : fromMagic p.buf = []) :
    scanPass cat p = .stop { p with buf := [] } (if p.buf = [] then [] else [.garbagePrefix]) := by
  simp only [scanPass, hst, passMagic, h, List.length_nil, List.length_pos_iff]
  split <;> simp_all

theorem scanPass_magic_go {b : Byte} {bs : Bytes} (hst : p.st = .magic) (h : fromMagic p.buf = b :: bs) :
    scanPass cat p = .go { p with buf := fromMagic p.buf, st := .header } []
      (if (fromMagic p.buf).length < p.buf.length then [.garbagePrefix] else []) := by
  simp only [scanPass, hst, passMagic, h]

theorem scanPass_header_stop (hst : p.st = .header) (h : p.buf.length < 10) :
    scanPass cat p = .stop p [.incomplete] := by
  simp only [scanPass, hst, passHeader]
  exact if_pos h

theorem scanPass_header_go (hst : p.st = .header) (h : 10 ≤ p.buf.length) :
    scanPass cat p =
      .go { p with len := p.buf.getD 1 0, msgid := BitVec.ofNat 24 (memRead p.buf 7 3), st := .payload } [] [] := by
  simp only [scanPass, hst, passHeader]
  exact if_neg (Nat.not_lt.mpr h)

theorem scanPass_payload_stop (hst : p.st = .payload) (h : p.buf.length < 10 + p.len.toNat) :
    scanPass cat p = .stop p [.incomplete] := by
  simp only [scanPass, hst, passPayload]
  exact if_pos h

theorem scanPass_payload_go (hst : p.st = .payload) (h : 10 + p.len.toNat ≤ p.buf.length) :
    scanPass cat p = .go { p with st := .checksum } [] [] := by
  simp only [scanPass, hst, passPayload]
  exact if_neg (Nat.not_lt.mpr h)

theorem scanPass_checksum_stop (hst : p.st = .checksum) (h : p.buf.length < 12 + p.len.toNat) :
    scanPass cat p = .stop p [.incomplete] := by
  simp only [scanPass, hst, passChecksum]
  exact if_pos h

theorem scanPass_unknownId (hst : p.st = .checksum) (h : 12 + p.len.toNat ≤ p.buf.length)
    (he : cat.lookup p.msgid = none) : scanPass cat p = .go (dropCandidate p) [] [.unknownId] := by
  simp only [scanPass, hst, passChecksum, he]
  exact if_neg (Nat.not_lt.mpr h)

theorem scanPass_illFormed (hst : p.st = .checksum) (h : 12 + p.len.toNat ≤ p.buf.length)
    (he : cat.lookup p.msgid = some e) (hwf : e.wf = false) :
    scanPass cat p = .refuse .entryNotWellFormed := by
  simp only [scanPass, hst, passChecksum, he, hwf]
  exact if_neg (Nat.not_lt.mpr h)

theorem scanPass_crcMismatch (hst : p.st = .checksum) (h : 12 + p.len.toNat ≤ p.buf.length)
    (he : cat.lookup p.msgid = some e) (hwf : e.wf = true) (hc : (candidateCrc e.seed p).toNat ≠ receivedCrc p) :
    scanPass cat p = .go (dropCandidate p) [] [.crcMismatch] := by
  simp only [scanPass, hst, passChecksum, he, hwf]
  rw [if_neg (Nat.not_lt.mpr h), if_neg (by simp), if_pos hc]

theorem scanPass_emit (hst : p.st = .checksum) (h : 12 + p.len.toNat ≤ p.buf.length)
    (he : cat.lookup p.msgid = some e) (hwf : e.wf = true) (hc : (candidateCrc e.seed p).toNat = receivedCrc p) :
    scanPass cat p = .go { p with buf := p.buf.drop (12 + p.len.toNat), st := .magic } [decodeMessage e p] [] := by
  simp only [scanPass, hst, passChecksum, he, hwf]
  rw [if_neg (Nat.not_lt.mpr h), if_neg (by simp), if_neg (not_not.mpr hc)]

end

/-- Everything a pass that goes on can do. -/
theorem scanPass_go {cat : Catalog} {p q : Parser} {out : List Msg} {tr : List Anomaly}
    (h : scanPass cat p = .go q out tr) :
    (p.st = .magic ∧ (∃ b bs, fromMagic p.buf = b :: bs) ∧ out = [] ∧
      q = { p with buf := fromMagic p.buf, st := .header }) ∨
    (p.st = .header ∧ 10 ≤ p.buf.length ∧ out = [] ∧
      q = { p with len := p.buf.getD 1 0, msgid := BitVec.ofNat 24 (memRead p.buf 7 3), st := .payload }) ∨
    (p.st = .payload ∧ 10 + p.len.toNat ≤ p.buf.length ∧ out = [] ∧ q = { p with st := .checksum }) ∨
    (p.st = .checksum ∧ 12 + p.len.toNat ≤ p.buf.length ∧ out = [] ∧ q = dropCandidate p) ∨
    (p.st = .checksum ∧ 12 + p.len.toNat ≤ p.buf.length ∧
      ∃ e, cat.lookup p.msgid = some e ∧ e.wf = true ∧ (candidateCrc e.seed p).toNat = receivedCrc p ∧
        out = [decodeMessage e p] ∧
        q = { p with buf := p.buf.drop (12 + p.len.toNat), st := .magic }) := by
  unfold scanPass at h
  cases hst : p.st with
  | magic =>
    left
    simp only [hst, passMagic] at h
    cases hB : fromMagic p.buf with
    | nil => simp [hB] at h
    | cons b bs =>
      simp only [hB, Pass.go.injEq] at h
      exact ⟨rfl, ⟨b, bs, rfl⟩, h.2.1.symm, h.1.symm⟩
  | header =>
    right; left
    simp only [hst, passHeader] at h
    split at h
    · cases h
    · simp only [Pass.go.injEq] at h
      exact ⟨rfl, Nat.le_of_not_lt ‹¬ _›, h.2.1.symm, h.1.symm⟩
  | payload =>
    right; right; left
    simp only [hst, passPayload] at h
    split at h
    · cases h
    · simp only [Pass.go.injEq] at h
      exact ⟨rfl, Nat.le_of_not_lt ‹¬ _›, h.2.1.symm, h.1.symm⟩
  | checksum =>
    right; right; right
    simp only [hst, passChecksum] at h
    split at h
    · cases h
    · have hlen : 12 + p.len.toNat ≤ p.buf.length := Nat.le_of_not_lt ‹¬ _›
      split at h
      · simp only [Pass.go.injEq] at h
        exact .inl ⟨rfl, hlen, h.2.1.symm, h.1.symm⟩
      · rename_i e he
        split at h
        · cases h
        · rename_i hwf
          split at h
          · simp only [Pass.go.injEq] at h
            exact .inl ⟨rfl, hlen, h.2.1.symm, h.1.symm⟩
          · rename_i hc
            simp only [Pass.go.injEq] at h
            exact .inr ⟨rfl, hlen, e, he, by simpa using hwf, by simpa using hc, h.2.1.symm, h.1.symm⟩

/-- Everything a pass that stops can do. -/
theorem scanPass_stop {cat : Catalog} {p q : Parser} {tr : List Anomaly} (h : scanPass cat p = .stop q tr) :
    (p.st = .magic ∧ fromMagic p.buf = [] ∧ q = { p with buf := [] }) ∨
    (q = p ∧ ((p.st = .header ∧ p.buf.length < 10) ∨ (p.st = .payload ∧ p.buf.length < 10 + p.len.toNat) ∨
      (p.st = .checksum ∧ p.buf.length < 12 + p.len.toNat))) := by
  unfold scanPass at h
  cases hst : p.st with
  | magic =>
    left
    simp only [hst, passMagic] at h
    cases hB : fromMagic p.buf with
    | nil =>
      simp only [hB, Pass.stop.injEq] at h
      exact ⟨rfl, rfl, h.1.symm⟩
    | cons b bs => simp [hB] at h
  | header =>
    right
    simp only [hst, passHeader] at h
    split at h
    · simp only [Pass.stop.injEq] at h
      exact ⟨h.1.symm, .inl ⟨rfl, ‹_›⟩⟩
    · cases h
  | payload =>
    right
    simp only [hst, passPayload] at h
    split at h
    · simp only [Pass.stop.injEq] at h
      exact ⟨h.1.symm, .inr (.inl ⟨rfl, ‹_›⟩)⟩
    · cases h
  | checksum =>
    right
    simp only [hst, passChecksum] at h
    split at h
    · simp only [Pass.stop.injEq] at h
      exact ⟨h.1.symm, .inr (.inr ⟨rfl, ‹_›⟩)⟩
    · split at h
      · cases h
      · split at h
        · cases h
        · split at h <;> cases h

/-- The only ground on which a pass refuses: a complete candidate whose entry is not well-formed. -/
theorem scanPass_refuse {cat : Catalog} {p : Parser} {r : Refusal} (h : scanPass cat p = .refuse r) :
    p.st = .checksum ∧ 12 + p.len.toNat ≤ p.buf.length ∧ r = .entryNotWellFormed ∧
      ∃ e, cat.lookup p.msgid = some e ∧ e.wf = false := by
  unfold scanPass at h
  cases hst : p.st with
  | magic =>
    simp only [hst, passMagic] at h
    cases hB : fromMagic p.buf <;> simp [hB] at h
  | header =>
    simp only [hst, passHeader] at h
    split at h <;> cases h
  | payload =>
    simp only [hst, passPayload] at h
    split at h <;> cases h
  | checksum =>
    simp only [hst, passChecksum] at h
    split at h
    · cases h
    · have hlen : 12 + p.len.toNat ≤ p.buf.length := Nat.le_of_not_lt ‹¬ _›
      split at h
      · cases h
      · rename_i e he
        split at h
        · cases h
          exact ⟨rfl, hlen, rfl, e, he, by simpa using ‹(!e.wf) = true›⟩
        · split at h <;> cases h

/-- A pass that goes on makes the measure smaller (44_parser.md R243). -/
theorem scanPass_measure {cat : Catalog} {p q : Parser} {out : List Msg} {tr : List Anomaly}
    (h : scanPass cat p = .go q out tr) : scanMeasure q < scanMeasure p := by
  unfold scanMeasure
  rcases scanPass_go h with ⟨hst, _, _, rfl⟩ | ⟨hst, _, _, rfl⟩ | ⟨hst, _, _, rfl⟩ | ⟨hst, hl, _, rfl⟩ |
    ⟨hst, hl, e, _, _, _, _, rfl⟩
  · have := fromMagic_length_le p.buf
    simp only [hst, ScanState.rank]
    omega
  · simp only [hst, ScanState.rank]; omega
  · simp only [hst, ScanState.rank]; omega
  · simp only [hst, ScanState.rank, dropCandidate_buf, dropCandidate_st, List.length_drop]; omega
  · simp only [hst, ScanState.rank, List.length_drop]; omega

/-! ### The loop -/

/-- More fuel than the measure changes nothing. -/
theorem scanLoop_fuel (cat : Catalog) (k k' : Nat) (p : Parser) (h : scanMeasure p < k) (h' : scanMeasure p < k') :
    scanLoop cat k p = scanLoop cat k' p := by
  induction k generalizing k' p with
  | zero => omega
  | succ k ih =>
    match k' with
    | 0 => omega
    | k' + 1 =>
      simp only [scanLoop]
      cases hp : scanPass cat p with
      | stop q tr => rfl
      | refuse r => rfl
      | go q out tr =>
        have hm := scanPass_measure hp
        simp only [ih k' q (by omega) (by omega)]

/-- The loop with as much fuel as it can use. -/
abbrev scan (cat : Catalog) (p : Parser) := scanLoop cat (scanFuel p) p

theorem scanLoop_eq_scan {cat : Catalog} {k : Nat} {p : Parser} (h : scanMeasure p < k) :
    scanLoop cat k p = scan cat p := scanLoop_fuel cat _ _ p h (scanMeasure_lt_fuel p)

theorem feed_eq_scan (cat : Catalog) (p : Parser) (chunk : Bytes) :
    feed cat p chunk = scan cat (appendChunk p chunk) := rfl

theorem scan_stop {cat : Catalog} {p q : Parser} {tr : List Anomaly} (h : scanPass cat p = .stop q tr) :
    scan cat p = .ok (q, [], tr) := by
  simp [scan, scanFuel, scanLoop, h]

theorem scan_refuse {cat : Catalog} {p : Parser} {r : Refusal} (h : scanPass cat p = .refuse r) :
    scan cat p = .error r := by
  simp [scan, scanFuel, scanLoop, h]

/-- A pass that goes on, then the scan from where it leads. -/
theorem scan_go {cat : Catalog} {p q : Parser} {out : List Msg} {tr : List Anomaly}
    (h : scanPass cat p = .go q out tr) :
    scan cat p = (scan cat q).map fun r => (r.1, out ++ r.2.1, tr ++ r.2.2) := by
  have hm := scanPass_measure h
  have hf := scanMeasure_lt_fuel p
  have : scanLoop cat (scanFuel p - 1) q = scan cat q := scanLoop_eq_scan (by omega)
  rw [scan, show scanFuel p = (scanFuel p - 1) + 1 by omega, scanLoop]
  simp only [h, this]
  cases scan cat q <;> rfl

/-- Induction along the passes of a scan. -/
theorem scan_induction (cat : Catalog) {P : Parser → Prop}
    (stop : ∀ p q tr, scanPass cat p = .stop q tr → P p)
    (refuse : ∀ p r, scanPass cat p = .refuse r → P p)
    (go : ∀ p q out tr, scanPass cat p = .go q out tr → P q → P p) (p : Parser) : P p := by
  have : ∀ n p, scanMeasure p < n → P p := by
    intro n
    induction n with
    | zero => omega
    | succ n ih =>
      intro p hp
      cases h : scanPass cat p with
      | stop q tr => exact stop p q tr h
      | refuse r => exact refuse p r h
      | go q out tr => exact go p q out tr h (ih q (by have := scanPass_measure h; omega))
  exact this _ p (Nat.lt_succ_self _)

/-! ### More bytes at the end of the buffer -/

theorem slice_append {A B : Bytes} {a b : Nat} (h : b ≤ A.length) : slice (A ++ B) a b = slice A a b := by
  simp [slice, List.take_append_of_le_length h]

theorem memRead_append {A B : Bytes} {o n : Nat} (h : o + n ≤ A.length) : memRead (A ++ B) o n = memRead A o n := by
  simp [memRead, slice_append h]

theorem getD_append {A B : Bytes} {i : Nat} (h : i < A.length) : (A ++ B).getD i 0 = A.getD i 0 := by
  simp [List.getD, List.getElem?_append_left h]

/-- A pass that goes on looks at a front part of the buffer only: with more bytes behind, it does the same
(44_parser.md R242). -/
theorem scanPass_go_append {cat : Catalog} {p q : Parser} {out : List Msg} {tr : List Anomaly} (B : Bytes)
    (h : scanPass cat p = .go q out tr) :
    scanPass cat (appendChunk p B) = .go (appendChunk q B) out tr := by
  cases hst : p.st with
  | magic =>
    cases hB : fromMagic p.buf with
    | nil => rw [scanPass_magic_stop hst hB] at h; cases h
    | cons b bs =>
      rw [scanPass_magic_go hst hB] at h
      cases h
      have hB' := fromMagic_append_of_cons (B := B) hB
      rw [scanPass_magic_go (p := appendChunk p B) hst (by rw [appendChunk_buf, hB', hB]; rfl)]
      simp [hB', appendChunk]
  | header =>
    by_cases hl : 10 ≤ p.buf.length
    · rw [scanPass_header_go hst hl] at h
      cases h
      rw [scanPass_header_go (p := appendChunk p B) hst (by simp; omega)]
      simp only [appendChunk_buf, getD_append (show 1 < p.buf.length by omega),
        memRead_append (show 7 + 3 ≤ p.buf.length by omega)]
      rfl
    · rw [scanPass_header_stop hst (by omega)] at h; cases h
  | payload =>
    by_cases hl : 10 + p.len.toNat ≤ p.buf.length
    · rw [scanPass_payload_go hst hl] at h
      cases h
      rw [scanPass_payload_go (p := appendChunk p B) hst (by simp; omega)]
      rfl
    · rw [scanPass_payload_stop hst (by omega)] at h; cases h
  | checksum =>
    by_cases hl : 12 + p.len.toNat ≤ p.buf.length
    · have hl' : 12 + (appendChunk p B).len.toNat ≤ (appendChunk p B).buf.length := by simp; omega
      have hd : dropCandidate (appendChunk p B) = appendChunk (dropCandidate p) B := by
        simp [dropCandidate, appendChunk, List.drop_append_of_le_length (show 1 ≤ p.buf.length by omega)]
      cases he : cat.lookup p.msgid with
      | none =>
        rw [scanPass_unknownId hst hl he] at h
        cases h
        rw [scanPass_unknownId (p := appendChunk p B) hst hl' he, hd]
      | some e =>
        cases hwf : e.wf with
        | false => rw [scanPass_illFormed hst hl he hwf] at h; cases h
        | true =>
          have hc : candidateCrc e.seed (appendChunk p B) = candidateCrc e.seed p := by
            simp [candidateCrc, slice_append (show 10 + p.len.toNat ≤ p.buf.length by omega)]
          have hr : receivedCrc (appendChunk p B) = receivedCrc p := by
            simp [receivedCrc, memRead_append (show 10 + p.len.toNat + 2 ≤ p.buf.length by omega)]
          by_cases hcr : (candidateCrc e.seed p).toNat = receivedCrc p
          · rw [scanPass_emit hst hl he hwf hcr] at h
            cases h
            rw [scanPass_emit (p := appendChunk p B) hst hl' he hwf (by rw [hc, hr, hcr])]
            have hm : decodeMessage e (appendChunk p B) = decodeMessage e p := by
              simp [decodeMessage, List.getElem?_append_left (show 5 < p.buf.length by omega),
                List.getElem?_append_left (show 6 < p.buf.length by omega),
                List.getElem?_append_left (show 4 < p.buf.length by omega),
                slice_append (show 10 + p.len.toNat ≤ p.buf.length by omega)]
            rw [hm]
            simp [appendChunk, List.drop_append_of_le_length (show 12 + p.len.toNat ≤ p.buf.length by omega)]
          · rw [scanPass_crcMismatch hst hl he hwf hcr] at h
            cases h
            rw [scanPass_crcMismatch (p := appendChunk p B) hst hl' he hwf (by rw [hc, hr]; exact hcr), hd]
    · rw [scanPass_checksum_stop hst (by omega)] at h; cases h

/-- A scan that stopped, fed more bytes, goes on as a scan of all the bytes does: same state, same messages
(44_parser.md R242). The labels may differ. -/
theorem scan_appendChunk_of_stop {cat : Catalog} {p q : Parser} {tr : List Anomaly} (B : Bytes)
    (h : scanPass cat p = .stop q tr) :
    (scan cat (appendChunk p B)).map (fun r => (r.1, r.2.1)) =
      (scan cat (appendChunk q B)).map (fun r => (r.1, r.2.1)) := by
  rcases scanPass_stop h with ⟨hst, hB, rfl⟩ | ⟨rfl, _⟩
  · have hA : fromMagic (appendChunk p B).buf = fromMagic B := fromMagic_append_of_nil hB
    have hq : (appendChunk { p with buf := [] } B).buf = B := by simp
    cases hf : fromMagic B with
    | nil =>
      rw [scan_stop (scanPass_magic_stop (p := appendChunk p B) hst (by rw [hA, hf])),
        scan_stop (scanPass_magic_stop (p := appendChunk { p with buf := [] } B) hst (by rw [hq, hf]))]
      rfl
    | cons b bs =>
      rw [scan_go (scanPass_magic_go (p := appendChunk p B) hst (by rw [hA, hf])),
        scan_go (scanPass_magic_go (p := appendChunk { p with buf := [] } B) hst (by rw [hq, hf]))]
      rw [hA, hq]
      have : ({ appendChunk p B with buf := fromMagic B, st := .header } : Parser) =
        { appendChunk { p with buf := [] } B with buf := fromMagic B, st := .header } := rfl
      rw [this]
      cases scan cat _ <;> rfl
  · rfl

end Sys2Proof.Machine
end

