-- ==== Sys2Proof/Tests/Slice0.lean ====
section
/-! SUPPORT. The model tried out: the refusal of every ill-formed operation, the code of every operation decoded, one or
two examples an operation from the spec's own rules and test vectors (95_test_vectors.md), and for every statement with
hypotheses a state and operands that meet them. Expected values are the spec's. -/

namespace Sys2Proof.Tests

open Sys2Proof Sys2Proof.Machine Sys2Proof.Claims

-- One theorem after another: many at once would need a thread each.
set_option Elab.async false

/-! ### Fixtures -/

/-- The bytes of a number, highest first, as the spec prints them. -/
def hex : Nat → Nat → Bytes
  | 0, _ => []
  | n + 1, v => BitVec.ofNat 8 (v / 256 ^ n) :: hex n v

/-- What an operation answered: the results and the labels, or none where it was refused. -/
def answered : Outcome → Option (List Result × List Anomaly)
  | .next t => some (t.results, t.trace)
  | .fault _ => none
  | .refused _ => none

/-- Why an operation was refused. -/
def refusal : Outcome → Option Refusal
  | .next _ => none
  | .fault _ => none
  | .refused r => some r

/-- The parser after an operation. -/
def parserOf : Outcome → Option Parser
  | .next t => some t.ps
  | .fault _ => none
  | .refused _ => none

def scalarDesc (name : String) (k : Kind) : Desc := { name := name, kind := k, isExtension := false, arrayLength := 0 }
def arrayDesc (name : String) (k : Kind) (n : Nat) : Desc :=
  { name := name, kind := k, isExtension := false, arrayLength := n }

/-- `TSTAT` (95_test_vectors.md section 1). -/
def tstat : Entry :=
  { descs := [scalarDesc "severity" .u8, arrayDesc "text" .text 50,
      { name := "id", kind := .u16, isExtension := true, arrayLength := 0 },
      { name := "chunk_seq", kind := .u8, isExtension := true, arrayLength := 0 }]
    seed := 0x53 }

/-- `T_SCAL`. -/
def tscal : Entry :=
  { descs := [scalarDesc "a" .u64, scalarDesc "b" .i64, scalarDesc "c" .f64, scalarDesc "d" .u32, scalarDesc "e" .i32,
      scalarDesc "f" .f32, scalarDesc "g" .u16, scalarDesc "h" .i16, scalarDesc "i" .u8, scalarDesc "j" .i8]
    seed := 0xA5 }

/-- `T_ARR`. -/
def tarr : Entry :=
  { descs := [arrayDesc "w" .u16 4, arrayDesc "s" .i8 3, arrayDesc "r" .f32 2, arrayDesc "name" .text 6,
      { name := "tail", kind := .u8, isExtension := true, arrayLength := 0 }]
    seed := 0x3C }

/-- `T_EMPTY`. -/
def tempty : Entry := { descs := [], seed := 0x11 }

/-- Catalog A. -/
def catA : Catalog := [(1, tscal), (253, tstat), (65021, tempty), (74565, tarr)]

/-- An entry the spec gives no operation a meaning for: a scalar `char` (30_encoding.md R93, D10). -/
def illFormed : Entry := { descs := [scalarDesc "c" .text], seed := 0 }

/-- An instance with catalog A. -/
def s0 : State := State.create catA

def testText : Bytes := hex 4 0x74657374

/-- The message of V2: severity 3, text "test". -/
def mV2 : Msg :=
  { messageId := 253, systemId := 1, componentId := 1, sequence := 0,
    values := [.scalar (.int 3), .text testText, .scalar (.int 0), .scalar (.int 0)] }

/-- The frame of V2. -/
def fV2 : Bytes := hex 17 0xfd050000000101fd00000374657374b7a6

/-- The message of V54. -/
def mV54 : Msg :=
  { messageId := 0x012345, systemId := 1, componentId := 200, sequence := 9,
    values := [.list [.int 1, .int 0x0203], .list [.int (-1), .int 0, .int 5],
      .list [.b32 0x3F800000, .b32 0xC0000000], .text (hex 3 0x616263), .scalar (.int 0)] }

/-- A `T_EMPTY` message (V57). -/
def mV57 : Msg := { messageId := 65021, systemId := 253, componentId := 253, sequence := 253, values := [] }

/-- The parser after V62's first chunk. -/
def waitingHeader : Parser := { st := .header, buf := hex 3 0xfd0500, len := 0, msgid := 0 }

/-- A parser in state PAYLOAD that waits for its last payload byte: `len = 5`, 14 bytes there. -/
def waitingPayload : Parser := { st := .payload, buf := fV2.take 14, len := 5, msgid := 253 }

/-- A parser in state CHECKSUM that waits for the last checksum byte (V63). -/
def waitingChecksum : Parser := { st := .checksum, buf := fV2.take 16, len := 5, msgid := 253 }

/-- A parser in state CHECKSUM with the whole of V2's frame. -/
def complete : Parser := { st := .checksum, buf := fV2, len := 5, msgid := 253 }

/-- An instance whose catalog lists an ill-formed entry beside the one of `fV2`. -/
def sMixed : State := State.create [(9, illFormed), (253, tstat)]

/-- An instance whose catalog lists an ill-formed entry under the id of `fV2`. -/
def sBad : State := State.create [(253, illFormed)]

/-- The same, bounded at the frame's 17 bytes, when all of `fV2` but its last byte has come. -/
def sLast : State := { sBad with ps := { complete with buf := fV2.take 16 }, bufCap := some 17 }

/-- An instance whose host pushes the magic byte and then reads the scan state. -/
def sPush : State := { s0 with port := [0x61, 0xFD, 0x62] }

/-- Two instances: the host of the first issues a code that names no operation. -/
def sTwo : List Outcome := [.next { s0 with port := [0x0B] }, .next sPush]

/-! ### WellFormed refuses -/

theorem test_wf_wr_text : (Instr.fcWrTEXT [] 0 0 []).wf = false ∧ (Instr.fcWrTEXT [] 0 1 []).wf = true := by decide
theorem test_wf_rd_text : (Instr.fcRdTEXT [] 0 0).wf = false ∧ (Instr.fcRdTEXT [] 0 1).wf = true := by decide
theorem test_wf_wra :
    [Instr.fcWraU8 [] 0 0 [], Instr.fcWraI8 [] 0 0 [], Instr.fcWraU16 [] 0 0 [], Instr.fcWraI16 [] 0 0 [],
      Instr.fcWraU32 [] 0 0 [], Instr.fcWraI32 [] 0 0 [], Instr.fcWraU64 [] 0 0 [], Instr.fcWraI64 [] 0 0 [],
      Instr.fcWraF32 [] 0 0 [], Instr.fcWraF64 [] 0 0 []].all (fun i => !i.wf) = true := by decide
theorem test_wf_rda :
    [Instr.fcRdaU8 [] 0 0, Instr.fcRdaI8 [] 0 0, Instr.fcRdaU16 [] 0 0, Instr.fcRdaI16 [] 0 0, Instr.fcRdaU32 [] 0 0,
      Instr.fcRdaI32 [] 0 0, Instr.fcRdaU64 [] 0 0, Instr.fcRdaI64 [] 0 0, Instr.fcRdaF32 [] 0 0, Instr.fcRdaF64 [] 0 0].all (fun i => !i.wf) = true := by decide
theorem test_wf_others : [Instr.fcWrU8 [] 0 0, .fcRdI64 [] 9, .crcINIT, .pkBATCH [], .psFEED [], .catLOOKUP 0].all Instr.wf = true := by
  decide

/-! ### Every code decodes: the words are those of 30_encoding.md R100, the operand bytes zeros in the model's layout -/

theorem test_decode_fc_wr_int :
    [0x00, 0x01, 0x02, 0x03, 0x04, 0x05, 0x06, 0x07].map (decodeTableWord 8) =
      [some (.fcWrU8 (zeros 8) 0 0),
        some (.fcWrI8 (zeros 8) 0 0),
        some (.fcWrU16 (zeros 8) 0 0),
        some (.fcWrI16 (zeros 8) 0 0),
        some (.fcWrU32 (zeros 8) 0 0),
        some (.fcWrI32 (zeros 8) 0 0),
        some (.fcWrU64 (zeros 8) 0 0),
        some (.fcWrI64 (zeros 8) 0 0)] := by
  decide +kernel
theorem test_decode_fc_wr_other :
    [0x08, 0x09, 0x0A].map (decodeTableWord 8) =
      [some (.fcWrF32 (zeros 8) 0 0),
        some (.fcWrF64 (zeros 8) 0 0),
        some (.fcWrTEXT (zeros 8) 0 1 [])] := by
  decide +kernel
theorem test_decode_fc_rd :
    [0x10, 0x11, 0x12, 0x13, 0x14, 0x15, 0x16, 0x17, 0x18, 0x19, 0x1A].map (decodeTableWord 8) =
      [some (.fcRdU8 (zeros 8) 0),
        some (.fcRdI8 (zeros 8) 0),
        some (.fcRdU16 (zeros 8) 0),
        some (.fcRdI16 (zeros 8) 0),
        some (.fcRdU32 (zeros 8) 0),
        some (.fcRdI32 (zeros 8) 0),
        some (.fcRdU64 (zeros 8) 0),
        some (.fcRdI64 (zeros 8) 0),
        some (.fcRdF32 (zeros 8) 0),
        some (.fcRdF64 (zeros 8) 0),
        some (.fcRdTEXT (zeros 8) 0 1)] := by
  decide +kernel
theorem test_decode_fc_wra :
    [0x20, 0x21, 0x22, 0x23, 0x24, 0x25, 0x26, 0x27, 0x28, 0x29].map (decodeTableWord 8) =
      [some (.fcWraU8 (zeros 8) 0 1 []),
        some (.fcWraI8 (zeros 8) 0 1 []),
        some (.fcWraU16 (zeros 8) 0 1 []),
        some (.fcWraI16 (zeros 8) 0 1 []),
        some (.fcWraU32 (zeros 8) 0 1 []),
        some (.fcWraI32 (zeros 8) 0 1 []),
        some (.fcWraU64 (zeros 8) 0 1 []),
        some (.fcWraI64 (zeros 8) 0 1 []),
        some (.fcWraF32 (zeros 8) 0 1 []),
        some (.fcWraF64 (zeros 8) 0 1 [])] := by
  decide +kernel
theorem test_decode_fc_rda :
    [0x30, 0x31, 0x32, 0x33, 0x34, 0x35, 0x36, 0x37, 0x38, 0x39].map (decodeTableWord 8) =
      [some (.fcRdaU8 (zeros 8) 0 1),
        some (.fcRdaI8 (zeros 8) 0 1),
        some (.fcRdaU16 (zeros 8) 0 1),
        some (.fcRdaI16 (zeros 8) 0 1),
        some (.fcRdaU32 (zeros 8) 0 1),
        some (.fcRdaI32 (zeros 8) 0 1),
        some (.fcRdaU64 (zeros 8) 0 1),
        some (.fcRdaI64 (zeros 8) 0 1),
        some (.fcRdaF32 (zeros 8) 0 1),
        some (.fcRdaF64 (zeros 8) 0 1)] := by
  decide +kernel
theorem test_decode_crc :
    [0x40, 0x41, 0x42, 0x43].map (decodeTableWord 8) =
      [some (.crcINIT),
        some (.crcACC 0 0),
        some (.crcBLOCK 0 []),
        some (.crcFRAME 0 [])] := by
  decide +kernel
theorem test_decode_pk :
    [0x50, 0x51].map (decodeTableWord 8) =
      [some (.pkPACK { messageId := 0, systemId := 0, componentId := 0, sequence := 0, values := [] }),
        some (.pkBATCH [])] := by
  decide +kernel
theorem test_decode_ps :
    [0x60, 0x61, 0x62].map (decodeTableWord 8) =
      [some (.psFEED []),
        some (.psPUSH 0),
        some (.psSTATE)] := by
  decide +kernel
theorem test_decode_cat :
    [0x70].map (decodeTableWord 8) =
      [some (.catLOOKUP 0)] := by
  decide +kernel
theorem test_decode_gaps :
    [0x0B, 0x1B, 0x2A, 0x3A, 0x44, 0x52, 0x63, 0x71, 0x80, 0xFF].map (decodeTableWord 8) = List.replicate 10 none := by
  decide +kernel
/-- The operand bytes of `FC.WR.I16 [1, 2, 3], 1, -2` in the model's layout (log 1, 2): the buffer's length with bit 3
inverted, its bytes, the offset, the code of -2; a byte of the next operation stays. -/
theorem test_decode_operands :
    decode (hex 8 0x030b010203010362) = .ok (.fcWrI16 (hex 3 0x010203) 1 (-2), [0x62]) := by decide +kernel
theorem test_decode_malformed : decode (hex 2 0x6002) = .error (.malformedOperands 0x60) := by decide +kernel
theorem test_kind_codes : (List.range 16).map Kind.ofCode =
    [some .u8, some .i8, some .u16, some .i16, some .u32, some .i32, some .u64, some .i64, some .f32, some .f64,
      some .text, none, none, none, none, none] := by decide

/-! ### The field codec, examples of rules R142 to R192 -/

theorem test_fc_wr_u8 : answered (exec (.fcWrU8 (zeros 2) 0 0x7F) s0) = some ([.buffer (hex 2 0x7f00)], []) := by
  decide +kernel
theorem test_fc_wr_u8_wraps : answered (exec (.fcWrU8 (zeros 1) 0 259) s0) = some ([.buffer (hex 1 0x03)], [.valueRange]) := by
  decide +kernel
theorem test_fc_wr_i8 : answered (exec (.fcWrI8 (zeros 2) 1 (-2)) s0) = some ([.buffer (hex 2 0x00fe)], []) := by
  decide +kernel
theorem test_fc_wr_u16 : answered (exec (.fcWrU16 (zeros 3) 0 0x1234) s0) = some ([.buffer (hex 3 0x341200)], []) := by
  decide +kernel
theorem test_fc_wr_i16 : answered (exec (.fcWrI16 (zeros 5) 3 (-32768)) s0) = some ([.buffer (hex 5 0x0000000080)], []) := by
  decide +kernel
theorem test_fc_wr_u32 : answered (exec (.fcWrU32 (zeros 4) 0 0xDEADBEEF) s0) = some ([.buffer (hex 4 0xefbeadde)], []) := by
  decide +kernel
theorem test_fc_wr_i32 : answered (exec (.fcWrI32 (zeros 5) 0 (-2)) s0) = some ([.buffer (hex 5 0xfeffffff00)], []) := by
  decide +kernel
theorem test_fc_wr_u64 : answered (exec (.fcWrU64 (zeros 8) 0 0x0102030405060708) s0) = some ([.buffer (hex 8 0x0807060504030201)], []) := by
  decide +kernel
theorem test_fc_wr_i64 : answered (exec (.fcWrI64 (zeros 8) 0 (-9223372036854775808)) s0) = some ([.buffer (hex 8 0x0000000000000080)], []) := by
  decide +kernel
theorem test_fc_wr_f32 : answered (exec (.fcWrF32 (zeros 4) 0 0x7FC00001) s0) = some ([.buffer (hex 4 0x0100c07f)], []) := by
  decide +kernel
theorem test_fc_wr_f64 : answered (exec (.fcWrF64 (zeros 8) 0 0xC004000000000000) s0) = some ([.buffer (hex 8 0x00000000000004c0)], []) := by
  decide +kernel
theorem test_fc_wr_text_short : answered (exec (.fcWrTEXT (zeros 8) 1 6 testText) s0) = some ([.buffer (hex 8 0x0074657374000000)], []) := by
  decide +kernel
theorem test_fc_wr_text_cut : answered (exec (.fcWrTEXT (zeros 6) 0 6 (hex 8 0x6162636465666768)) s0) = some ([.buffer (hex 6 0x616263646566)], [.valueRange]) := by
  decide +kernel
theorem test_fc_rd_u8 : answered (exec (.fcRdU8 (hex 1 0xff) 0) s0) = some ([.value (.scalar (.int 255))], []) := by
  decide +kernel
theorem test_fc_rd_i8 : answered (exec (.fcRdI8 (hex 1 0x80) 0) s0) = some ([.value (.scalar (.int (-128)))], []) := by
  decide +kernel
theorem test_fc_rd_u16 : answered (exec (.fcRdU16 (hex 4 0xefbeadde) 1) s0) = some ([.value (.scalar (.int 0xADBE))], []) := by
  decide +kernel
theorem test_fc_rd_i16 : answered (exec (.fcRdI16 (hex 3 0x00feff) 1) s0) = some ([.value (.scalar (.int (-2)))], []) := by
  decide +kernel
theorem test_fc_rd_u32 : answered (exec (.fcRdU32 (hex 4 0xefbeadde) 0) s0) = some ([.value (.scalar (.int 3735928559))], []) := by
  decide +kernel
theorem test_fc_rd_i32 : answered (exec (.fcRdI32 (hex 4 0x00000080) 0) s0) = some ([.value (.scalar (.int (-2147483648)))], []) := by
  decide +kernel
theorem test_fc_rd_u64 : answered (exec (.fcRdU64 (hex 8 0x0807060504030201) 0) s0) = some ([.value (.scalar (.int 0x0102030405060708))], []) := by
  decide +kernel
theorem test_fc_rd_i64 : answered (exec (.fcRdI64 (hex 8 0xffffffffffffffff) 0) s0) = some ([.value (.scalar (.int (-1)))], []) := by
  decide +kernel
theorem test_fc_rd_f32 : answered (exec (.fcRdF32 (hex 4 0x0000803f) 0) s0) = some ([.value (.scalar (.b32 0x3F800000))], []) := by
  decide +kernel
theorem test_fc_rd_f64 : answered (exec (.fcRdF64 (hex 8 0x000000000000f03f) 0) s0) = some ([.value (.scalar (.b64 0x3FF0000000000000))], []) := by
  decide +kernel
theorem test_fc_rd_text_strips : answered (exec (.fcRdTEXT (hex 8 0x0074657374000000) 1 6) s0) = some ([.value (.text (hex 4 0x74657374))], []) := by
  decide +kernel
theorem test_fc_rd_text_keeps_inner_zero : answered (exec (.fcRdTEXT (hex 6 0x610062000000) 0 6) s0) = some ([.value (.text (hex 3 0x610062))], []) := by
  decide +kernel
theorem test_fc_wra_u8 : answered (exec (.fcWraU8 (zeros 4) 0 4 [1, 2, 3]) s0) =
    some ([.buffer (hex 4 0x01020300)], []) := by
  decide +kernel
theorem test_fc_wra_i8 : answered (exec (.fcWraI8 (zeros 3) 0 3 [-1, 0, 5]) s0) =
    some ([.buffer (hex 3 0xff0005)], []) := by
  decide +kernel
theorem test_fc_wra_u16 : answered (exec (.fcWraU16 (zeros 8) 0 4 [1, 2, 3, 4, 5]) s0) =
    some ([.buffer (hex 8 0x0100020003000400)], [.valueRange]) := by
  decide +kernel
theorem test_fc_wra_i16 : answered (exec (.fcWraI16 (zeros 4) 0 2 [-2, 2]) s0) =
    some ([.buffer (hex 4 0xfeff0200)], []) := by
  decide +kernel
theorem test_fc_wra_u32 : answered (exec (.fcWraU32 (zeros 8) 0 2 [1, 0x01000000]) s0) =
    some ([.buffer (hex 8 0x0100000000000001)], []) := by
  decide +kernel
theorem test_fc_wra_i32 : answered (exec (.fcWraI32 (zeros 8) 0 2 [-1, 1]) s0) =
    some ([.buffer (hex 8 0xffffffff01000000)], []) := by
  decide +kernel
theorem test_fc_wra_u64 : answered (exec (.fcWraU64 (zeros 16) 0 2 [1]) s0) =
    some ([.buffer (hex 16 0x01000000000000000000000000000000)], []) := by
  decide +kernel
theorem test_fc_wra_i64 : answered (exec (.fcWraI64 (zeros 8) 0 1 [-1]) s0) =
    some ([.buffer (hex 8 0xffffffffffffffff)], []) := by
  decide +kernel
theorem test_fc_wra_f32 : answered (exec (.fcWraF32 (zeros 8) 0 2 [0x3F800000, 0xC0000000]) s0) =
    some ([.buffer (hex 8 0x0000803f000000c0)], []) := by
  decide +kernel
theorem test_fc_wra_f64 : answered (exec (.fcWraF64 (zeros 8) 0 1 [0x3FF0000000000000]) s0) =
    some ([.buffer (hex 8 0x000000000000f03f)], []) := by
  decide +kernel
theorem test_fc_rda_u8 : answered (exec (.fcRdaU8 (hex 4 0x01020300) 0 4) s0) =
    some ([.value (.list [.int 1, .int 2, .int 3, .int 0])], []) := by
  decide +kernel
theorem test_fc_rda_i8 : answered (exec (.fcRdaI8 (hex 3 0xff0005) 0 3) s0) =
    some ([.value (.list [.int (-1), .int 0, .int 5])], []) := by
  decide +kernel
theorem test_fc_rda_u16 : answered (exec (.fcRdaU16 (hex 8 0x0100030200000000) 0 4) s0) =
    some ([.value (.list [.int 1, .int 515, .int 0, .int 0])], []) := by
  decide +kernel
theorem test_fc_rda_i16 : answered (exec (.fcRdaI16 (hex 4 0xfeff0200) 0 2) s0) =
    some ([.value (.list [.int (-2), .int 2])], []) := by
  decide +kernel
theorem test_fc_rda_u32 : answered (exec (.fcRdaU32 (hex 8 0x0100000000000001) 0 2) s0) =
    some ([.value (.list [.int 1, .int 16777216])], []) := by
  decide +kernel
theorem test_fc_rda_i32 : answered (exec (.fcRdaI32 (hex 8 0xffffffff01000000) 0 2) s0) =
    some ([.value (.list [.int (-1), .int 1])], []) := by
  decide +kernel
theorem test_fc_rda_u64 : answered (exec (.fcRdaU64 (hex 16 0x01000000000000000000000000000000) 0 2) s0) =
    some ([.value (.list [.int 1, .int 0])], []) := by
  decide +kernel
theorem test_fc_rda_i64 : answered (exec (.fcRdaI64 (hex 8 0xffffffffffffffff) 0 1) s0) =
    some ([.value (.list [.int (-1)])], []) := by
  decide +kernel
theorem test_fc_rda_f32 : answered (exec (.fcRdaF32 (hex 8 0x0000803f000000c0) 0 2) s0) =
    some ([.value (.list [.b32 0x3F800000, .b32 0xC0000000])], []) := by
  decide +kernel
theorem test_fc_rda_f64 : answered (exec (.fcRdaF64 (hex 8 0x000000000000f03f) 0 1) s0) =
    some ([.value (.list [.b64 0x3FF0000000000000])], []) := by
  decide +kernel
theorem test_fc_range : refusal (exec (.fcWrU16 (zeros 2) 1 0) s0) = some .rangeOutsideBuffer ∧
    refusal (exec (.fcRdaF32 (zeros 7) 0 2) s0) = some .rangeOutsideBuffer := by decide +kernel

/-! ### The CRC unit, the packer, the parser, the catalog (95_test_vectors.md sections 2 to 6) -/

/-- V10 -/
theorem test_crc_init : answered (exec .crcINIT s0) = some ([.crc 0xFFFF], []) := by decide +kernel
/-- V17, V18 -/
theorem test_crc_acc : [(0x1234, 0x56), (0x8000, 0x00), (0x0001, 0x00), (0x00FF, 0xFF)].map
    (fun a => answered (exec (.crcACC a.1 a.2) s0)) =
    [some ([.crc 0x4006], []), some ([.crc 0x0080], []), some ([.crc 0x1189], []), some ([.crc 0x0000], [])] := by
  decide +kernel
/-- V20: the block "123456789", no final exclusive-or. -/
theorem test_crc_block : answered (exec (.crcBLOCK 0xFFFF (hex 9 0x313233343536373839)) s0) = some ([.crc 0x6F91], []) := by
  decide +kernel
/-- V21: the seed is cut to 8 bits. -/
theorem test_crc_frame : [0x53, 0x153].map (fun s => answered (exec (.crcFRAME s (hex 14 0x050000000101fd00000374657374)) s0)) =
    List.replicate 2 (some ([.crc 0xA6B7], [])) := by decide +kernel
/-- V2 -/
theorem test_pk_pack : answered (exec (.pkPACK mV2) s0) = some ([.frames fV2], []) := by decide +kernel
/-- V54 -/
theorem test_pk_pack_arrays : answered (exec (.pkPACK mV54) s0) =
    some ([.frames (hex 34 0xfd1600000901c84523010100030200000000ff00050000803f000000c0616263b9c0)], []) := by
  decide +kernel
/-- V57 and V2 in one batch, and V58. -/
theorem test_pk_batch : answered (exec (.pkBATCH [mV57, mV2]) s0) =
    some ([.frames (hex 12 0xfd000000fdfdfdfdfd00d0bd ++ fV2)], []) ∧
    answered (exec (.pkBATCH []) s0) = some ([.frames []], []) := by decide +kernel
/-- V59: an id the catalog lacks. -/
theorem test_pk_refuses : refusal (exec (.pkPACK { mV2 with messageId := 2 }) s0) = some .unknownId ∧
    refusal (exec (.pkPACK { mV2 with values := [] }) s0) = some .valueCount := by decide +kernel
/-- V2 fed to the parser. -/
theorem test_ps_feed : answered (exec (.psFEED fV2) s0) = some ([.messages [mV2]], []) := by decide +kernel
/-- V64: an unknown id, then V2. -/
theorem test_ps_feed_resync : answered (exec (.psFEED (hex 13 0xfd010000000101fe00002a191e ++ fV2)) s0) =
    some ([.messages [mV2]], [.unknownId, .garbagePrefix]) := by decide +kernel
/-- The last byte of V63. -/
theorem test_ps_push : answered (exec (.psPUSH 0xa6) { s0 with ps := waitingChecksum }) = some ([.messages [mV2]], []) ∧
    parserOf (exec (.psPUSH 0xa6) { s0 with ps := waitingChecksum }) =
      some { st := .magic, buf := [], len := 5, msgid := 253 } := by decide +kernel
/-- R247 -/
theorem test_ps_state : answered (exec .psSTATE s0) = some ([.scanCode 0], []) ∧
    answered (exec .psSTATE { s0 with ps := waitingHeader }) = some ([.scanCode 1], []) := by decide +kernel
theorem test_cat_lookup : answered (exec (.catLOOKUP 253) s0) = some ([.entry (some tstat)], []) ∧
    answered (exec (.catLOOKUP 2) s0) = some ([.entry none], []) := by decide +kernel
/-- `CRC.INIT` placed by withFetchWord is what the first step after reset runs. -/
theorem test_step_after_reset : answered (step (State.reset.withFetchWord 8 0x40)) = some ([.crc 0xFFFF], []) := by
  decide +kernel

/-! ### A witness for the hypotheses of every statement that has any -/

theorem witness_ResetMeetsTheInvariant : catA.wf = true ∧ Catalog.wf [(16777215, tempty)] = true := by decide +kernel
theorem witness_StepKeepsTheInvariant : 
    State.Inv { s0 with ps := waitingPayload, port := [0x61, 0x74] } ∧
    parserOf (step { s0 with ps := waitingPayload, port := [0x61, 0x74] }) =
      some { st := .checksum, buf := fV2.take 15, len := 5, msgid := 253 } := by
  refine ⟨⟨?_, by decide +kernel⟩, by decide +kernel⟩
  refine ⟨by decide +kernel, ⟨by decide +kernel, by decide +kernel⟩, by decide +kernel, by decide +kernel, by decide +kernel⟩
/-- The capacity exactly 266 and the chunk. -/
theorem witness_CarryOverBufferIsBounded : ∃ (s : State) (chunk : Bytes) (cap : Nat), s.ps.Inv ∧ s.bufCap = some cap ∧
    266 + chunk.length ≤ cap ∧ chunk.length = 1 ∧ cap = 267 := 
  ⟨{ s0 with bufCap := some 267 }, [0], 267, rfl, rfl, by decide, rfl, rfl⟩
theorem witness_DecodeOfEncodeIsTheOperation : WellFormed (.fcWrTEXT [] 0 1 []) ∧ WellFormed (.pkPACK mV54) := by decide
theorem witness_DecodedOperationsAreWellFormed : decode [0x40] = .ok (.crcINIT, []) ∧
    decode (hex 4 0x61fd4000) = .ok (.psPUSH 0xFD, [0x40, 0]) := by decide +kernel
theorem witness_OtherCodesNameNoOperation : ¬ CodeInTable 0x0B ∧ ¬ CodeInTable 0x71 ∧ CodeInTable 0x0A ∧ CodeInTable 0x70 ∧
    State.port { s0 with port := 0x0B :: [1] } = 0x0B :: [1] := by
  refine ⟨?_, ?_, ?_, ?_, rfl⟩ <;> simp [CodeInTable]
/-- Kind code 10 and the longest array; kind code 11; bit 5 set. -/
theorem witness_DescriptorWordRoundTrips : (arrayDesc "x" .f64 255).arrayLength < 256 ∧
    ((0x001A#16).extractLsb' 0 4).toNat ≤ 10 ∧ (0x001A#16).extractLsb' 5 3 = 0 ∧
    ¬ (((0x000B#16).extractLsb' 0 4).toNat ≤ 10 ∧ (0x000B#16).extractLsb' 5 3 = 0) ∧
    ¬ (((0x0020#16).extractLsb' 0 4).toNat ≤ 10 ∧ (0x0020#16).extractLsb' 5 3 = 0) := by decide
theorem witness_DescriptorSelectsTheOperation : 
    fcWrite (arrayDesc "t" .text 1) [] 0 (.text []) = some (.fcWrTEXT [] 0 1 []) ∧
    fcRead (scalarDesc "x" .i16) (zeros 2) 0 = some (.fcRdI16 (zeros 2) 0) ∧
    Fits (arrayDesc "x" .i8 3) (.list [.int 300]) ∧ ¬ ((scalarDesc "c" .u8).kind = .text ∧ (scalarDesc "c" .u8).arrayLength = 0) := by
  refine ⟨by decide, by decide, ⟨by decide, by decide, ?_⟩, by decide⟩
  intro x hx
  rw [List.mem_singleton.mp hx]
  trivial
theorem witness_StepRunsTheDecodedOperation : 
    decode (State.port { s0 with port := [0x62, 0x40] }) = .ok (.psSTATE, [0x40]) ∧ s0.port = [] ∧
    decode (hex 2 0x6002) = .error (.malformedOperands 0x60) := by decide +kernel
theorem witness_OperationsLeaveTheRestAlone : (∃ t, exec .psSTATE s0 = .next t) ∧
    ((∀ chunk, Instr.psSTATE ≠ .psFEED chunk) ∧ ∀ b, Instr.psSTATE ≠ .psPUSH b) := 
  ⟨⟨_, rfl⟩, by simp⟩
theorem witness_ResultsAndTraceAreNeverRead : ∃ t, exec (.psFEED []) { s0 with results := [.crc 1], trace := [.incomplete] } = .next t := 
  ⟨_, rfl⟩
theorem witness_CrcBlockFoldsLeftToRight : exec (.crcBLOCK 0xFFFF [0x05]) s0 = .next (s0.answer (.crc 0x582A) []) := by
  have h : crcBlock 0xFFFF [0x05] = 0x582A := by decide +kernel
  rw [← h]
  rfl
theorem witness_CrcFrameTakesTheSeedLast : exec (.crcBLOCK 0xFFFF []) s0 = .next (s0.answer (.crc 0xFFFF) []) := rfl
/-- The field ends where the buffer ends. -/
theorem witness_UnsignedScalarWritesAreLittleEndian : 0 + 1 ≤ (zeros 1).length ∧ 1 + 2 ≤ (zeros 3).length ∧ 0 + 4 ≤ (zeros 4).length ∧
    0 + 8 ≤ (zeros 8).length := by decide
theorem witness_SignedScalarWritesAreLittleEndian : 3 + 1 ≤ (zeros 4).length ∧ 2 + 2 ≤ (zeros 4).length ∧ 0 + 4 ≤ (zeros 4).length ∧
    1 + 8 ≤ (zeros 9).length := by decide
theorem witness_UnsignedScalarReadsAreLittleEndian : 3 + 1 ≤ (zeros 4).length ∧ 2 + 2 ≤ (zeros 4).length ∧ 0 + 4 ≤ (zeros 4).length ∧
    1 + 8 ≤ (zeros 9).length := by decide
theorem witness_SignedScalarReadsAreTwosComplement : 3 + 1 ≤ (zeros 4).length ∧ 2 + 2 ≤ (zeros 4).length ∧ 0 + 4 ≤ (zeros 4).length ∧
    1 + 8 ≤ (zeros 9).length := by decide
theorem witness_PatternWritesMoveEveryBit : 0 + 4 ≤ (zeros 4).length ∧ 1 + 8 ≤ (zeros 9).length := by decide
theorem witness_PatternReadsMoveEveryBit : 0 + 4 ≤ (zeros 4).length ∧ 1 + 8 ≤ (zeros 9).length := by decide
theorem witness_TextWriteStoresTheFirstBytes : 0 < 1 ∧ 2 + 1 ≤ (zeros 3).length := by decide
theorem witness_TextReadStripsTrailingZeros : 0 < 1 ∧ 2 + 1 ≤ (zeros 3).length := by decide
theorem witness_UnsignedArrayWritesStoreTheFirstElements : 0 < 1 ∧ 3 + 1 * 1 ≤ (zeros 4).length ∧ 2 + 2 * 1 ≤ (zeros 4).length ∧
    0 + 4 * 2 ≤ (zeros 8).length ∧ 1 + 8 * 1 ≤ (zeros 9).length := by decide
theorem witness_SignedArrayWritesStoreTheFirstElements : 0 < 1 ∧ 3 + 1 * 1 ≤ (zeros 4).length ∧ 2 + 2 * 1 ≤ (zeros 4).length ∧
    0 + 4 * 2 ≤ (zeros 8).length ∧ 1 + 8 * 1 ≤ (zeros 9).length := by decide
theorem witness_UnsignedArrayReadsHaveEveryElement : 0 < 1 ∧ 3 + 1 * 1 ≤ (zeros 4).length ∧ 2 + 2 * 1 ≤ (zeros 4).length ∧
    0 + 4 * 2 ≤ (zeros 8).length ∧ 1 + 8 * 1 ≤ (zeros 9).length := by decide
theorem witness_SignedArrayReadsHaveEveryElement : 0 < 1 ∧ 3 + 1 * 1 ≤ (zeros 4).length ∧ 2 + 2 * 1 ≤ (zeros 4).length ∧
    0 + 4 * 2 ≤ (zeros 8).length ∧ 1 + 8 * 1 ≤ (zeros 9).length := by decide
theorem witness_PatternArrayWritesStoreTheFirstElements : 0 < 1 ∧ 0 + 4 * 2 ≤ (zeros 8).length ∧ 1 + 8 * 1 ≤ (zeros 9).length := by decide
theorem witness_PatternArrayReadsHaveEveryElement : 0 < 1 ∧ 0 + 4 * 2 ≤ (zeros 8).length ∧ 1 + 8 * 1 ≤ (zeros 9).length := by decide
theorem witness_WritesStayInsideTheField : 
    fcWrite (scalarDesc "x" .u8) (zeros 3) 1 (.scalar (.int 7)) = some (.fcWrU8 (zeros 3) 1 7) ∧
    (∃ t, exec (.fcWrU8 (zeros 3) 1 7) s0 = .next t) ∧ (0 < 1 ∨ 1 + (scalarDesc "x" .u8).size ≤ 0) ∧
    (2 < 1 ∨ 1 + (scalarDesc "x" .u8).size ≤ 2) := by
  refine ⟨by decide, ⟨_, rfl⟩, by decide, by decide⟩
/-- Fields that touch. -/
theorem witness_DisjointWritesCommute : 
    0 + (scalarDesc "x" .u16).size ≤ 2 ∧
    writeField (scalarDesc "x" .u16) (zeros 3) 0 (.scalar (.int 0x102)) = .ok (hex 3 0x020100, []) ∧
    writeField (scalarDesc "y" .u8) (hex 3 0x020100) 2 (.scalar (.int 3)) = .ok (hex 3 0x020103, []) := by decide +kernel
theorem witness_PackerWritesAreTheOperations : 
    fcWrite (scalarDesc "x" .u8) [] 0 (.scalar (.int 7)) = some (.fcWrU8 [] 0 7) ∧
    fcRead (arrayDesc "t" .text 2) (zeros 3) 1 = some (.fcRdTEXT (zeros 3) 1 2) ∧ 1 + (arrayDesc "t" .text 2).size ≤ 3 := by decide
theorem witness_SixtyFourBitWriteIsTwoHalves : 
    0 + 8 ≤ (zeros 8).length ∧
    exec (.fcWrU32 (zeros 8) 0 0x0102030405060708) s0 =
      .next (s0.answer (.buffer (hex 8 0x0807060500000000)) [.valueRange]) ∧
    exec (.fcWrU32 (hex 8 0x0807060500000000) (0 + 4) (0x0102030405060708 / 2 ^ 32)) s0 =
      .next (s0.answer (.buffer (hex 8 0x0807060504030201)) []) := by
  have h1 : writeScalar .u32 (zeros 8) 0 (.int 0x0102030405060708) = .ok (hex 8 0x0807060500000000, [.valueRange]) := by
    decide +kernel
  have h2 : writeScalar .u32 (hex 8 0x0807060500000000) (0 + 4) (.int (0x0102030405060708 / 2 ^ 32)) =
      .ok (hex 8 0x0807060504030201, []) := by decide +kernel
  exact ⟨by decide, congrArg (answer .buffer s0) h1, congrArg (answer .buffer s0) h2⟩
/-- The largest `I8` and one more. -/
theorem witness_ValueRangeLabelsMarkValuesThatDoNotFit : 
    fcWrite (scalarDesc "x" .i8) (zeros 1) 0 (.scalar (.int 127)) = some (.fcWrI8 (zeros 1) 0 127) ∧
    (∃ t, exec (.fcWrI8 (zeros 1) 0 127) s0 = .next t) ∧ ValueInRange (scalarDesc "x" .i8) (.scalar (.int 127)) ∧
    fcWrite (scalarDesc "x" .i8) (zeros 1) 0 (.scalar (.int 128)) = some (.fcWrI8 (zeros 1) 0 128) ∧
    (∃ t, exec (.fcWrI8 (zeros 1) 0 128) s0 = .next t) ∧ ¬ ValueInRange (scalarDesc "x" .i8) (.scalar (.int 128)) := by
  refine ⟨by decide, ⟨_, rfl⟩, ?_, by decide, ⟨_, rfl⟩, ?_⟩ <;>
    simp [ValueInRange, ScalarInRange, scalarDesc, Kind.signed, Kind.width]
/-- One byte too far. -/
theorem witness_FieldsOutsideTheBufferAreRefused : 
    fcWrite (scalarDesc "x" .u16) (zeros 2) 1 (.scalar (.int 0)) = some (.fcWrU16 (zeros 2) 1 0) ∧
    fcRead (scalarDesc "x" .u16) (zeros 2) 1 = some (.fcRdU16 (zeros 2) 1) ∧
    (zeros 2).length < 1 + (scalarDesc "x" .u16).size := by decide
theorem witness_ReadAfterWriteGivesTheReducedValue : 
    fcWrite (scalarDesc "x" .i8) (zeros 1) 0 (.scalar (.int 128)) = some (.fcWrI8 (zeros 1) 0 128) ∧
    ((zeros 1).drop 0).take (scalarDesc "x" .i8).size = zeros (scalarDesc "x" .i8).size ∧
    exec (.fcWrI8 (zeros 1) 0 128) s0 = .next (s0.answer (.buffer [0x80]) [.valueRange]) ∧
    fcRead (scalarDesc "x" .i8) [0x80] 0 = some (.fcRdI8 [0x80] 0) := by
  have h : writeScalar .i8 (zeros 1) 0 (.int 128) = .ok ([0x80], [.valueRange]) := by decide +kernel
  exact ⟨by decide, by decide, congrArg (answer .buffer s0) h, by decide⟩
theorem witness_PackProducesTheFrame : 
    s0.cat.lookup (BitVec.ofNat 24 mV2.messageId) = some tstat ∧ tstat.wf = true ∧
    List.Forall₂ Fits tstat.descs mV2.values := by
  refine ⟨by decide +kernel, by decide +kernel, ?_⟩
  simp [tstat, mV2, Fits, ScalarOf, scalarDesc, arrayDesc]
theorem witness_PackedFramesHaveTheFrameShape : ∃ t, exec (.pkPACK mV57) s0 = .next t := by
  have h : (answered (exec (.pkPACK mV57) s0)).isSome = true := by decide +kernel
  cases he : exec (.pkPACK mV57) s0 with
  | next t => exact ⟨t, rfl⟩
  | fault f => cases f
  | refused r => rw [he] at h; cases h
theorem witness_PackRefusesWhatHasNoMeaning : 
    s0.cat.lookup (BitVec.ofNat 24 2) = none ∧ s0.cat.lookup (BitVec.ofNat 24 253) = some tstat ∧
    illFormed.wf = false ∧ Catalog.lookup [(9, illFormed)] 9 = some illFormed ∧ tstat.wf = true ∧
    ([] : List Value).length ≠ tstat.descs.length ∧
    [Value.text [], .text [], .text [], .text []].length = tstat.descs.length ∧
    ¬ List.Forall₂ Fits tstat.descs [.text [], .text [], .text [], .text []] := by
  refine ⟨by decide +kernel, by decide +kernel, by decide, by decide, by decide, by decide, by decide, ?_⟩
  simp [tstat, Fits, scalarDesc, arrayDesc]
theorem witness_BatchConcatenatesTheFrames : 
    List.Forall₂ (fun m e => s0.cat.lookup (BitVec.ofNat 24 m.messageId) = some e ∧ e.wf = true ∧
      List.Forall₂ Fits e.descs m.values) [mV57] [tempty] ∧
    Completes 0x50 (.pkPACK mV57) s0 (.frames (hex 12 0xfd000000fdfdfdfdfd00d0bd)) ∧
    exec (.pkPACK { mV57 with messageId := 2 }) s0 = .refused .unknownId := by
  have h1 : pack catA mV57 = .ok (hex 12 0xfd000000fdfdfdfdfd00d0bd, []) := by decide +kernel
  have h2 : pack catA { mV57 with messageId := 2 } = .error .unknownId := by decide +kernel
  refine ⟨.cons ⟨by decide +kernel, by decide, .nil⟩ .nil, ⟨rfl, [], congrArg (answer .frames s0) h1⟩,
    congrArg (answer .frames s0) h2⟩
/-- A bounded buffer that the frame just fits. -/
theorem witness_PackThenFeedGivesTheMessageBack : 
    Completes 0x50 (.pkPACK mV2) s0 (.frames fV2) ∧ s0.cat.lookup (BitVec.ofNat 24 mV2.messageId) = some tstat ∧
    State.cat { s0 with bufCap := some 17 } = s0.cat ∧ HasRoom { s0 with bufCap := some 17 } fV2 := by
  have h1 : pack catA mV2 = .ok (fV2, []) := by decide +kernel
  refine ⟨⟨rfl, [], congrArg (answer .frames s0) h1⟩, by decide +kernel, rfl, ?_⟩
  intro cap h
  cases h
  decide
theorem witness_MagicStateDiscardsGarbage : Parser.reset.st = .magic ∧ hex 3 0x11fd22 = [0x11] ++ 0xFD :: [0x22] ∧ (0xFD : Byte) ∉ hex 1 0x11 ∧
    (0xFD : Byte) ∉ hex 3 0x001122 := by decide +kernel
/-- Nine bytes at most, then ten; fourteen, then fifteen. -/
theorem witness_HeaderAndPayloadStatesWaitOrMoveOn : 
    (waitingHeader.st = .header ∧ waitingHeader.buf.length < 10) ∧ 10 ≤ (fV2.take 10).length ∧
    (waitingPayload.st = .payload ∧ waitingPayload.buf.length < 10 + waitingPayload.len.toNat) ∧
    10 + waitingPayload.len.toNat ≤ (fV2.take 15).length := by decide +kernel
/-- Catalog C's seed (V65). -/
theorem witness_RejectedCandidateLosesItsMagicByte : 
    (waitingChecksum.st = .checksum ∧ waitingChecksum.buf.length < 12 + waitingChecksum.len.toNat) ∧
    (complete.st = .checksum ∧ 12 + complete.len.toNat ≤ complete.buf.length) ∧
    Catalog.lookup [] complete.msgid = none ∧ Catalog.lookup [(253, { tstat with seed := 84 })] complete.msgid =
      some { tstat with seed := 84 } ∧ Entry.wf { tstat with seed := 84 } = true ∧
    (crcFrame 84 ((complete.buf.take (10 + complete.len.toNat)).drop 1)).toNat ≠
      leSum complete.buf (10 + complete.len.toNat) 2 := by decide +kernel
theorem witness_MatchingCandidateIsDecodedAndEmitted : 
    complete.st = .checksum ∧ 12 + complete.len.toNat ≤ complete.buf.length ∧
    catA.lookup complete.msgid = some tstat ∧ tstat.wf = true ∧
    (crcFrame tstat.seed ((complete.buf.take (10 + complete.len.toNat)).drop 1)).toNat =
      leSum complete.buf (10 + complete.len.toNat) 2 ∧
    Catalog.lookup [(253, illFormed)] complete.msgid = some illFormed ∧ illFormed.wf = false := by decide +kernel
theorem witness_AnomalyLabelsOfEachPass : 
    scanPass catA { Parser.reset with buf := [1, 0xFD] } = .go { waitingHeader with buf := [0xFD] } [] [.garbagePrefix] ∧
    scanPass [] complete = .go { complete with buf := fV2.drop 1, st := .magic } [] [.unknownId] ∧
    scanPass catA waitingHeader = .stop waitingHeader [.incomplete] ∧
    scanPass catA Parser.reset = .stop Parser.reset [] := by decide +kernel

/-- Where a pass goes on, what passes reach from there is the parser itself or is reached from where the pass leads. -/
theorem reach_of_go {cat : Catalog} {p q r : Parser} {out : List Msg} {tr : List Anomaly}
    (h : scanPass cat p = .go q out tr) : PassesReach cat p r → r = p ∨ PassesReach cat q r := by
  rintro (_ | ⟨h', hr⟩)
  · exact .inl rfl
  · rw [h] at h'
    cases h'
    exact .inr hr

/-- Where a pass stops, passes reach the parser itself only. -/
theorem reach_of_stop {cat : Catalog} {p q r : Parser} {tr : List Anomaly}
    (h : scanPass cat p = .stop q tr) : PassesReach cat p r → r = p := by
  rintro (_ | ⟨h', _⟩)
  · rfl
  · rw [h] at h'
    cases h'

/-- A catalog that lists an ill-formed entry under an id that no candidate of the stream carries. -/
theorem witness_FeedRunsPassesToTheFirstStop : 
    HasRoom sMixed fV2 ∧ ¬ ReachesIllFormed sMixed.cat { sMixed.ps with buf := sMixed.ps.buf ++ fV2 } ∧
    ¬ sMixed.cat.entriesWf ∧ HasRoom { sMixed with bufCap := some 1 } [0xFD] ∧
    ¬ ReachesIllFormed sMixed.cat { sMixed.ps with buf := sMixed.ps.buf ++ [0xFD] } ∧ s0.cat.entriesWf := by
  refine ⟨(by intro cap h; cases h), ?_, ?_, (by intro cap h; cases h; decide), ?_, ?_⟩
  · rintro ⟨q, e, hr, hst, hl, he, hw⟩
    rcases reach_of_go (q := { waitingHeader with buf := fV2 }) (out := []) (tr := []) (by decide +kernel) hr with rfl | hr
    · cases hst
    rcases reach_of_go (q := { complete with st := .payload }) (out := []) (tr := []) (by decide +kernel) hr with rfl | hr
    · cases hst
    rcases reach_of_go (q := complete) (out := []) (tr := []) (by decide +kernel) hr with rfl | hr
    · cases hst
    rcases reach_of_go (q := { complete with buf := [], st := .magic }) (out := [mV2]) (tr := []) (by decide +kernel) hr with rfl | hr
    · have h : sMixed.cat.lookup complete.msgid = some tstat := by decide +kernel
      rw [h] at he
      cases he
      exact absurd hw (by decide)
    cases reach_of_stop (q := { complete with buf := [], st := .magic }) (tr := []) (by decide +kernel) hr
    cases hst
  · exact fun h => absurd (h (9, illFormed) (by decide)) (by decide)
  · rintro ⟨q, e, hr, hst, -⟩
    rcases reach_of_go (q := { waitingHeader with buf := [0xFD] }) (out := []) (tr := []) (by decide +kernel) hr with rfl | hr
    · cases hst
    cases reach_of_stop (q := { waitingHeader with buf := [0xFD] }) (tr := [.incomplete]) (by decide +kernel) hr
    cases hst
  · have h : catA.all (fun a => a.2.wf) = true := by decide +kernel
    exact fun a ha => List.all_eq_true.mp h a ha
/-- One byte over the capacity; the frame whole, and its last byte alone where the capacity is just enough. -/
theorem witness_FeedRefusesOverCapacityAndIllFormedEntries : 
    ¬ HasRoom { s0 with bufCap := some 16 } fV2 ∧ ¬ HasRoom { s0 with bufCap := some 0 } [0xFD] ∧
    HasRoom sBad fV2 ∧ ReachesIllFormed sBad.cat { sBad.ps with buf := sBad.ps.buf ++ fV2 } ∧
    exec (.psFEED fV2) sBad = .refused .entryNotWellFormed ∧
    HasRoom sLast [0xA6] ∧ ReachesIllFormed sLast.cat { sLast.ps with buf := sLast.ps.buf ++ [0xA6] } ∧
    exec (.psPUSH 0xA6) sLast = .refused .entryNotWellFormed := by
  have h : feed sBad.cat sBad.ps fV2 = .error .entryNotWellFormed := by decide +kernel
  have h' : feed sLast.cat sLast.ps [0xA6] = .error .entryNotWellFormed := by decide +kernel
  refine ⟨fun h => absurd (h 16 rfl) (by decide), fun h => absurd (h 0 rfl) (by decide), (by intro cap h; cases h), ?_, ?_,
    (by intro cap h; cases h; decide), ?_, ?_⟩
  · exact ⟨complete, illFormed, .go (q := { waitingHeader with buf := fV2 }) (out := []) (tr := []) (by decide +kernel)
      (.go (q := { complete with st := .payload }) (out := []) (tr := []) (by decide +kernel)
        (.go (out := []) (tr := []) (by decide +kernel) (.here _))), by decide +kernel⟩
  · simp only [exec, execPsFEED, feedState, withinCapacity, show sBad.bufCap = none from rfl, if_true, h]
  · exact ⟨complete, illFormed, .here _, by decide +kernel⟩
  · simp only [exec, execPsPUSH, feedState, withinCapacity, show sLast.bufCap = some 17 from rfl,
      show decide (sLast.ps.buf.length + [(0xA6 : Byte)].length ≤ 17) = true from rfl, if_true, h']
theorem witness_ChunkingDoesNotMatter : Quiescent catA Parser.reset ∧ Quiescent catA waitingChecksum := 
  ⟨⟨[], by decide +kernel⟩, ⟨[.incomplete], by decide +kernel⟩⟩
theorem witness_PushingEveryByteIsFeedingTheChunk : Quiescent catA waitingPayload := ⟨[.incomplete], by decide +kernel⟩
theorem witness_EmittedMessagesAreFramesOfTheStream : Parser.reset.Inv ∧
    feed catA Parser.reset fV2 = .ok ({ st := .magic, buf := [], len := 5, msgid := 253 }, [mV2], []) ∧ mV2 ∈ [mV2] := by
  refine ⟨rfl, by decide +kernel, List.mem_singleton.mpr rfl⟩
theorem witness_LatchesAreNeverReadBeforeWritten : Parser.reset.st = .magic ∧ waitingHeader.st = .header := ⟨rfl, rfl⟩
theorem witness_GarbageBeforeAStreamIsForgotten : Parser.reset.st = .magic ∧ Parser.reset.buf = [] ∧ (0xFD : Byte) ∉ hex 3 0x001122 := by decide +kernel
theorem witness_StateReadReturnsTheScanState : s0.ps.st = .magic ∧ waitingHeader.st = .header ∧ waitingPayload.st = .payload ∧
    waitingChecksum.st = .checksum := ⟨rfl, rfl, rfl, rfl⟩
theorem witness_CatalogLookupReturnsTheEntry : s0.cat.wf = true ∧ (BitVec.toNat (74565 : BitVec 24), tarr) ∈ s0.cat := by decide +kernel
/-- Instance 0 is refused at its first step. -/
theorem witness_InstancesShareNothing : 
    sTwo[1]? = some (.next sPush) ∧
    (runSchedule [0, 1, 0, 1] sTwo)[1]? = some (.next ((State.answer { s0 with ps := { waitingHeader with buf := [0xFD] } }
      (.messages []) [.incomplete]).answer (.scanCode 1) [])) := ⟨rfl, rfl⟩

/-- One instance is refused, the other goes on: it returns what it returns alone. -/
theorem test_instances_apart :
    (runSchedule [0, 1, 0, 1] sTwo).map refusal = [some (.noOperation 0x0B), none] ∧
    (runSchedule [0, 1, 0, 1] sTwo).map answered = [none, some ([.messages [], .scanCode 1], [.incomplete])] ∧
    answered (runAlone 2 (.next sPush)) = some ([.messages [], .scanCode 1], [.incomplete]) := by decide +kernel


end Sys2Proof.Tests
end

section
/-! PROOFS. The checksum unit (40_checksum.md). -/

namespace Sys2Proof.Machine

/-- The dispatch of `CRC.INIT`. -/
theorem exec_crcINIT (s : State) : exec .crcINIT s = execCrcINIT s := rfl

/-- The initial value is the written-out constant of R123. -/
theorem execCrcINIT_eq (s : State) : execCrcINIT s = .next (s.answer (.crc 0xFFFF) []) := rfl

/-- Settles O14: the dispatch and the initial value, for every state. -/
theorem crcInitGivesTheInitialValue : Obligations.CrcInitGivesTheInitialValue := by
  intro s
  have hop : Instr.crcINIT.op = 0x40 := rfl
  exact ⟨hop, (exec_crcINIT s).trans (execCrcINIT_eq s)⟩

end Sys2Proof.Machine
end

section
/-! PROOFS. The field codec's writes (41_field_codec_write.md): the bytes a scalar write stores, and what the scalar and
the array writes return. -/

namespace Sys2Proof.Machine

open Claims

/-! ### The bytes of an integer -/

/-- Lowest byte first: bits 7:0, then the bytes of what stands above them. -/
theorem intBytes_succ (w : Nat) (v : Int) : intBytes (w + 1) v = BitVec.ofInt 8 v :: intBytes w (v / 256) := by
  have hdiv (i : Nat) : v / 256 ^ (i + 1) = v / 256 / 256 ^ i := by
    rw [pow_succ', Int.ediv_ediv_of_nonneg (by decide)]
  simp [intBytes, List.range_succ_eq_map, Function.comp_def, hdiv]

/-- The two spellings of R12's byte order agree on natural numbers. -/
theorem intBytes_natCast (w n : Nat) : intBytes w n = leBytes w n := by
  induction w generalizing n with
  | zero => rfl
  | succ w ih => rw [intBytes_succ, leBytes, BitVec.ofInt_natCast, ← ih, Int.natCast_ediv, Nat.cast_ofNat]

/-- The range reduction of R141 keeps the low bytes. -/
theorem intBytes_emod (w : Nat) (v : Int) : intBytes w (v % 256 ^ w) = intBytes w v := by
  induction w generalizing v with
  | zero => rfl
  | succ w ih =>
    have hdvd : (2 ^ 8 : Int) ∣ 256 ^ (w + 1) := Dvd.intro_left _ (pow_succ 256 w).symm
    have hlow : BitVec.ofInt 8 (v % 256 ^ (w + 1)) = BitVec.ofInt 8 v := by
      apply BitVec.eq_of_toNat_eq
      rw [BitVec.toNat_ofInt, BitVec.toNat_ofInt, Nat.cast_pow, Nat.cast_ofNat, Int.emod_emod_of_dvd v hdvd]
    have hhigh : v % 256 ^ (w + 1) / 256 = v / 256 % 256 ^ w := by
      rw [Int.emod_def, Int.emod_def, pow_succ', ← Int.ediv_ediv_of_nonneg (by decide), mul_assoc]
      omega
    rw [intBytes_succ, intBytes_succ, hlow, hhigh, ih]

/-- A value reduced to the field's range has the low bytes of the value, signed or not. -/
theorem leBytes_toNat_emod (w : Nat) (v : Int) : leBytes w (v % 256 ^ w).toNat = intBytes w v := by
  have hnonneg : 0 ≤ v % 256 ^ w := Int.emod_nonneg v (by positivity)
  rw [← intBytes_natCast, Int.toNat_of_nonneg hnonneg, intBytes_emod]

/-! ### The pattern of a scalar -/

/-- A scalar has a pattern under a kind where it is of the kind's type (R211 c). -/
theorem pattern_isSome_iff {k : Kind} {x : Scalar} : (k.pattern x).isSome ↔ ScalarOf k x := by
  cases k <;> cases x <;> simp [Kind.pattern, ScalarOf]

theorem exists_pattern_of_scalarOf {k : Kind} {x : Scalar} (h : ScalarOf k x) : ∃ p, k.pattern x = some p :=
  Option.isSome_iff_exists.mp (pattern_isSome_iff.mpr h)

/-- What a write of a kind's pattern stores are the bytes of the scalar (R141, R150, R151). -/
theorem leBytes_pattern {k : Kind} {x : Scalar} {p : Nat} (h : k.pattern x = some p) :
    leBytes k.width p = scalarBytes k.width x := by
  cases x with
  | int v =>
    cases k <;> simp only [Kind.pattern, Option.some.injEq, reduceCtorEq] at h <;> subst h
    case u8 | i8 => exact leBytes_toNat_emod 1 v
    case u16 | i16 => exact leBytes_toNat_emod 2 v
    case u32 | i32 => exact leBytes_toNat_emod 4 v
    case u64 | i64 => exact leBytes_toNat_emod 8 v
  | b32 q =>
    cases k <;> cases h
    exact (intBytes_natCast 4 q.toNat).symm
  | b64 q =>
    cases k <;> cases h
    exact (intBytes_natCast 8 q.toNat).symm

theorem exists_patterns_of_scalarOf {k : Kind} {xs : List Scalar} (h : ∀ x ∈ xs, ScalarOf k x) :
    ∃ ps, patterns k xs = some ps := by
  induction xs with
  | nil => exact ⟨[], rfl⟩
  | cons x xs ih =>
    obtain ⟨hx, hxs⟩ := List.forall_mem_cons.mp h
    obtain ⟨p, hp⟩ := exists_pattern_of_scalarOf hx
    obtain ⟨ps, hps⟩ := ih hxs
    exact ⟨p :: ps, by simp [patterns, hp, hps]⟩

theorem map_leBytes_patterns {k : Kind} {xs : List Scalar} {ps : List Nat} (h : patterns k xs = some ps) :
    ps.map (leBytes k.width) = xs.map (scalarBytes k.width) := by
  induction xs generalizing ps with
  | nil => cases h; rfl
  | cons x xs ih =>
    simp only [patterns] at h
    split at h
    · rename_i p qs hp hqs
      cases h
      simp [leBytes_pattern hp, ih hqs]
    · cases h

/-- The first elements of an array field, one after another (R153). -/
theorem flatMap_leBytes_take_patterns {k : Kind} {xs : List Scalar} {ps : List Nat} (n : Nat)
    (h : patterns k xs = some ps) :
    (ps.take n).flatMap (leBytes k.width) = (xs.take n).flatMap (scalarBytes k.width) := by
  simp only [List.flatMap_def, List.map_take, map_leBytes_patterns h]

/-! ### What an accepted write stores -/

theorem putBytes_eq_written (B : Bytes) (o : Nat) (t : Bytes) : putBytes B o t = written B o t := rfl

theorem writeScalar_eq_written {k : Kind} {B : Bytes} {o : Nat} {x : Scalar} (hx : ScalarOf k x)
    (hr : o + k.width ≤ B.length) :
    writeScalar k B o x = .ok (written B o (scalarBytes k.width x), scalarLabel k x) := by
  obtain ⟨p, hp⟩ := exists_pattern_of_scalarOf hx
  rw [← leBytes_pattern hp, ← putBytes_eq_written]
  exact writeScalar_ok.mpr ⟨p, hp, hr, rfl, rfl⟩

theorem writeArray_eq_written {k : Kind} {B : Bytes} {o n : Nat} {xs : List Scalar} (hxs : ∀ x ∈ xs, ScalarOf k x)
    (hn : 0 < n) (hr : o + k.width * n ≤ B.length) :
    writeArray k B o n xs = .ok (written B o ((xs.take n).flatMap (scalarBytes k.width)), arrayLabel k n xs) := by
  obtain ⟨ps, hps⟩ := exists_patterns_of_scalarOf hxs
  rw [← flatMap_leBytes_take_patterns n hps, ← putBytes_eq_written]
  exact writeArray_ok.mpr ⟨ps, hps, hn, hr, rfl, rfl⟩

/-! ### The write operations of the ten scalar kinds (30_encoding.md R100, R101) -/

/-- The scalar write of a kind: its code, its operand's type and its meaning. -/
theorem scalarWriteInstr_some {k : Kind} {B : Bytes} {o : Nat} {x : Scalar} {i : Instr}
    (h : scalarWriteInstr k B o x = some i) :
    i.op = BitVec.ofNat 8 k.code ∧ ScalarOf k x ∧ ∀ s, exec i s = answer .buffer s (writeScalar k B o x) := by
  cases x <;> cases k <;> cases h <;> exact ⟨rfl, trivial, fun _ => rfl⟩

theorem intsOf_eq_some {xs : List Scalar} {vs : List Int} : intsOf xs = some vs ↔ xs = vs.map Scalar.int := by
  induction xs generalizing vs with
  | nil => cases vs <;> simp [intsOf]
  | cons x xs ih => cases x <;> cases vs <;> simp [intsOf, ih, and_comm]

theorem b32sOf_eq_some {xs : List Scalar} {ps : List (BitVec 32)} :
    b32sOf xs = some ps ↔ xs = ps.map Scalar.b32 := by
  induction xs generalizing ps with
  | nil => cases ps <;> simp [b32sOf]
  | cons x xs ih => cases x <;> cases ps <;> simp [b32sOf, ih, and_comm]

theorem b64sOf_eq_some {xs : List Scalar} {ps : List (BitVec 64)} :
    b64sOf xs = some ps ↔ xs = ps.map Scalar.b64 := by
  induction xs generalizing ps with
  | nil => cases ps <;> simp [b64sOf]
  | cons x xs ih => cases x <;> cases ps <;> simp [b64sOf, ih, and_comm]

/-- The array write of a kind: its code, its elements' type and its meaning. -/
theorem arrayWriteInstr_some {k : Kind} {B : Bytes} {o n : Nat} {xs : List Scalar} {i : Instr}
    (h : arrayWriteInstr k B o n xs = some i) :
    i.op = BitVec.ofNat 8 (0x20 + k.code) ∧ (∀ x ∈ xs, ScalarOf k x) ∧
      ∀ s, exec i s = answer .buffer s (writeArray k B o n xs) := by
  cases k <;> simp only [arrayWriteInstr, Option.map_eq_some_iff, reduceCtorEq] at h <;> obtain ⟨vs, hvs, rfl⟩ := h
  case f32 =>
    obtain rfl := b32sOf_eq_some.mp hvs
    exact ⟨rfl, by simp [ScalarOf], fun _ => rfl⟩
  case f64 =>
    obtain rfl := b64sOf_eq_some.mp hvs
    exact ⟨rfl, by simp [ScalarOf], fun _ => rfl⟩
  all_goals
    obtain rfl := intsOf_eq_some.mp hvs
    exact ⟨rfl, by simp [ScalarOf], fun _ => rfl⟩

/-- A scalar write inside the buffer stores the scalar's bytes and nothing else (R140). -/
theorem scalarWrite_completes {k : Kind} {B : Bytes} {o : Nat} {x : Scalar} {i : Instr} (s : State)
    (h : scalarWriteInstr k B o x = some i) (hr : o + k.width ≤ B.length) :
    Completes (BitVec.ofNat 8 k.code) i s (.buffer (written B o (scalarBytes k.width x))) := by
  obtain ⟨hop, hx, hexec⟩ := scalarWriteInstr_some h
  exact ⟨hop, scalarLabel k x, by rw [hexec, writeScalar_eq_written hx hr, answer]⟩

/-- An array write inside the buffer stores the bytes of the first elements and nothing else (R140, R153). -/
theorem arrayWrite_completes {α : Type} {f : α → Scalar} {k : Kind} {B : Bytes} {o n : Nat} {vs : List α} {i : Instr}
    (s : State) (h : arrayWriteInstr k B o n (vs.map f) = some i) (hn : 0 < n) (hr : o + k.width * n ≤ B.length) :
    Completes (BitVec.ofNat 8 (0x20 + k.code)) i s
      (.buffer (written B o ((vs.take n).flatMap fun v => scalarBytes k.width (f v)))) := by
  obtain ⟨hop, hxs, hexec⟩ := arrayWriteInstr_some h
  have hbytes : ((vs.map f).take n).flatMap (scalarBytes k.width) =
      (vs.take n).flatMap fun v => scalarBytes k.width (f v) := by
    rw [← List.map_take, List.flatMap_map]
  exact ⟨hop, arrayLabel k n (vs.map f), by rw [hexec, writeArray_eq_written hxs hn hr, hbytes, answer]⟩

/-- The array write of an integer kind has the integers as its operand. -/
theorem map_intsOf_map_int {β : Type} (g : List Int → β) (vs : List Int) :
    (intsOf (vs.map Scalar.int)).map g = some (g vs) := by
  rw [intsOf_eq_some.mpr rfl, Option.map_some]

/-- Settles O19: the scalar writes of the four unsigned kinds, and their codes and keys. -/
theorem unsignedScalarWritesAreLittleEndian : Obligations.UnsignedScalarWritesAreLittleEndian := by
  have hkeys : [Kind.u8, .u16, .u32, .u64].map (fun k => (k.code, k.key)) =
      [(0, "uint8"), (2, "uint16"), (4, "uint32"), (6, "uint64")] := rfl
  refine ⟨fun B o v s hr => ?_, fun B o v s hr => ?_, fun B o v s hr => ?_, fun B o v s hr => ?_, hkeys⟩
  · exact scalarWrite_completes (k := .u8) (x := .int v) s rfl hr
  · exact scalarWrite_completes (k := .u16) (x := .int v) s rfl hr
  · exact scalarWrite_completes (k := .u32) (x := .int v) s rfl hr
  · exact scalarWrite_completes (k := .u64) (x := .int v) s rfl hr

/-- Settles O21: the scalar writes of the two floating-point kinds, and their codes and keys. -/
theorem patternWritesMoveEveryBit : Obligations.PatternWritesMoveEveryBit := by
  have hkeys : [Kind.f32, .f64].map (fun k => (k.code, k.key)) = [(8, "float"), (9, "double")] := rfl
  refine ⟨fun B o p s hr => ?_, fun B o p s hr => ?_, hkeys⟩
  · exact scalarWrite_completes (k := .f32) (x := .b32 p) s rfl hr
  · exact scalarWrite_completes (k := .f64) (x := .b64 p) s rfl hr

/-- Settles O23: the array writes of the four unsigned kinds. -/
theorem unsignedArrayWritesStoreTheFirstElements : Obligations.UnsignedArrayWritesStoreTheFirstElements := by
  refine ⟨fun B o n vs s hn hr => ?_, fun B o n vs s hn hr => ?_, fun B o n vs s hn hr => ?_, fun B o n vs s hn hr => ?_⟩
  · exact arrayWrite_completes (k := .u8) s (map_intsOf_map_int _ vs) hn hr
  · exact arrayWrite_completes (k := .u16) s (map_intsOf_map_int _ vs) hn hr
  · exact arrayWrite_completes (k := .u32) s (map_intsOf_map_int _ vs) hn hr
  · exact arrayWrite_completes (k := .u64) s (map_intsOf_map_int _ vs) hn hr

/-- Settles O25: the array writes of the two floating-point kinds. -/
theorem patternArrayWritesStoreTheFirstElements : Obligations.PatternArrayWritesStoreTheFirstElements := by
  refine ⟨fun B o n ps s hn hr => ?_, fun B o n ps s hn hr => ?_⟩
  · have h : arrayWriteInstr .f32 B o n (ps.map Scalar.b32) = some (.fcWraF32 B o n ps) := by
      rw [arrayWriteInstr, b32sOf_eq_some.mpr rfl, Option.map_some]
    exact arrayWrite_completes s h hn hr
  · have h : arrayWriteInstr .f64 B o n (ps.map Scalar.b64) = some (.fcWraF64 B o n ps) := by
      rw [arrayWriteInstr, b64sOf_eq_some.mpr rfl, Option.map_some]
    exact arrayWrite_completes s h hn hr

end Sys2Proof.Machine
end

section
/-! PROOFS. The field codec's reads (42_field_codec_read.md): the number a field spells, and what the scalar and the
array reads return. -/

namespace Sys2Proof.Machine

open Claims

/-! ### The number in a field -/

/-- The number in two stretches that touch: the second counts from where the first ends. -/
theorem leSum_add (B : Bytes) (o a b : Nat) : leSum B o (a + b) = leSum B o a + 256 ^ a * leSum B (o + a) b := by
  have hterm (j : Nat) : (B.getD (o + (a + j)) 0).toNat * 256 ^ (a + j) =
      256 ^ a * ((B.getD (o + a + j) 0).toNat * 256 ^ j) := by
    rw [pow_add, add_assoc o a j, mul_left_comm]
  simp only [leSum, List.range_add, List.map_append, List.sum_append, List.map_map, Function.comp_def, hterm,
    List.sum_map_mul_left]

/-- The first byte is the lowest. -/
theorem leSum_succ (B : Bytes) (o w : Nat) : leSum B o (w + 1) = (B.getD o 0).toNat + 256 * leSum B (o + 1) w := by
  have hbyte : leSum B o 1 = (B.getD o 0).toNat := by simp [leSum]
  rw [add_comm w 1, leSum_add, hbyte, pow_one]

/-- The number in the first bytes of a sequence; where the sequence ends there are none. -/
theorem leNat_take_drop (B : Bytes) (o w : Nat) : leNat ((B.drop o).take w) = leSum B o w := by
  induction w generalizing o with
  | zero => simp [leSum]
  | succ w ih =>
    rw [leSum_succ, ← ih (o + 1)]
    rcases Nat.lt_or_ge o B.length with h | h
    · rw [List.drop_eq_getElem_cons h, List.take_succ_cons, leNat, List.getD_eq_getElem B 0 h]
    · simp [List.drop_eq_nil_of_le, h, Nat.le_succ_of_le]

/-- `MemRead` is the sum its rule writes out (00_scope.md R12). -/
theorem memRead_eq_leSum (B : Bytes) (o w : Nat) : memRead B o w = leSum B o w := by
  rw [memRead, slice_eq_take_drop, leNat_take_drop]

theorem scalarAt_eq (k : Kind) (B : Bytes) (o : Nat) : scalarAt k B o = k.scalarOf (leSum B o k.width) := by
  rw [scalarAt, memRead_eq_leSum]

theorem arrayAt_eq (k : Kind) (B : Bytes) (o n : Nat) :
    arrayAt k B o n = (List.range n).map fun i => k.scalarOf (leSum B (o + k.width * i) k.width) := by
  simp only [arrayAt, scalarAt_eq]

/-! ### What an accepted read returns -/

/-- An operation that is the scalar read of a kind, inside the buffer, returns the number at the offset as the kind
reads it (R170). -/
theorem scalarRead_completes {op : Byte} {i : Instr} {s : State} {k : Kind} {B : Bytes} {o : Nat} (hop : i.op = op)
    (hexec : exec i s = answer .value s (readScalar k B o)) (hr : o + k.width ≤ B.length) :
    Completes op i s (.value (.scalar (k.scalarOf (leSum B o k.width)))) := by
  have hread : readScalar k B o = .ok (.scalar (k.scalarOf (leSum B o k.width)), []) := by
    rw [← scalarAt_eq]
    exact readScalar_ok.mpr ⟨hr, rfl, rfl⟩
  exact ⟨hop, [], by rw [hexec, hread, answer]⟩

/-- An operation that is the array read of a kind, inside the buffer, returns the number at the offset of every element
as the kind reads it (R170, R183). -/
theorem arrayRead_completes {op : Byte} {i : Instr} {s : State} {k : Kind} {B : Bytes} {o n : Nat} (hop : i.op = op)
    (hexec : exec i s = answer .value s (readArray k B o n)) (hn : 0 < n) (hr : o + k.width * n ≤ B.length) :
    Completes op i s
      (.value (.list ((List.range n).map fun j => k.scalarOf (leSum B (o + k.width * j) k.width)))) := by
  have hread : readArray k B o n =
      .ok (.list ((List.range n).map fun j => k.scalarOf (leSum B (o + k.width * j) k.width)), []) := by
    rw [← arrayAt_eq]
    exact readArray_ok.mpr ⟨hn, hr, rfl, rfl⟩
  exact ⟨hop, [], by rw [hexec, hread, answer]⟩

/-- Settles O33: the scalar reads of the four unsigned kinds, the halves of the 64-bit number, and the kinds' codes. -/
theorem unsignedScalarReadsAreLittleEndian : Obligations.UnsignedScalarReadsAreLittleEndian := by
  have hhalves (B : Bytes) (o : Nat) : leSum B o 8 = leSum B o 4 + 2 ^ 32 * leSum B (o + 4) 4 := leSum_add B o 4 4
  have hcodes : [Kind.u8, .u16, .u32, .u64].map Kind.code = [0, 2, 4, 6] := rfl
  refine ⟨fun B o s hr => ?_, fun B o s hr => ?_, fun B o s hr => ?_, fun B o s hr => ?_, hhalves, hcodes⟩
  · exact scalarRead_completes (k := .u8) rfl rfl hr
  · exact scalarRead_completes (k := .u16) rfl rfl hr
  · exact scalarRead_completes (k := .u32) rfl rfl hr
  · exact scalarRead_completes (k := .u64) rfl rfl hr

/-- Settles O35: the scalar reads of the two floating-point kinds, and their codes. -/
theorem patternReadsMoveEveryBit : Obligations.PatternReadsMoveEveryBit := by
  have hcodes : [Kind.f32, .f64].map Kind.code = [8, 9] := rfl
  refine ⟨fun B o s hr => ?_, fun B o s hr => ?_, hcodes⟩
  · exact scalarRead_completes (k := .f32) rfl rfl hr
  · exact scalarRead_completes (k := .f64) rfl rfl hr

/-- Settles O37: the array reads of the four unsigned kinds. -/
theorem unsignedArrayReadsHaveEveryElement : Obligations.UnsignedArrayReadsHaveEveryElement := by
  refine ⟨fun B o n s hn hr => ?_, fun B o n s hn hr => ?_, fun B o n s hn hr => ?_, fun B o n s hn hr => ?_⟩
  · exact arrayRead_completes (k := .u8) rfl rfl hn hr
  · exact arrayRead_completes (k := .u16) rfl rfl hn hr
  · exact arrayRead_completes (k := .u32) rfl rfl hn hr
  · exact arrayRead_completes (k := .u64) rfl rfl hn hr

/-- Settles O39: the array reads of the two floating-point kinds. -/
theorem patternArrayReadsHaveEveryElement : Obligations.PatternArrayReadsHaveEveryElement := by
  refine ⟨fun B o n s hn hr => ?_, fun B o n s hn hr => ?_⟩
  · exact arrayRead_completes (k := .f32) rfl rfl hn hr
  · exact arrayRead_completes (k := .f64) rfl rfl hn hr

end Sys2Proof.Machine
end

section
/-! PROOFS. The parser (44_parser.md): what a pass does in each state, and that a feed is the run of passes to the first
that stops. -/

namespace Sys2Proof.Machine

open Claims

/-! ### One pass (R232 to R237) -/

theorem fromMagic_eq_nil_iff {B : Bytes} : fromMagic B = [] ↔ Config.magic ∉ B := by
  simp only [fromMagic, List.dropWhile_eq_nil_iff, bne_iff_ne]
  exact ⟨fun h hmem => h _ hmem rfl, fun h b hb hmagic => h (hmagic ▸ hb)⟩

theorem fromMagic_cons_magic (rest : Bytes) : fromMagic (Config.magic :: rest) = Config.magic :: rest := rfl

/-- Settles O46: the scan for the magic byte ends at the first one, or finds none. -/
theorem magicStateDiscardsGarbage : Obligations.MagicStateDiscardsGarbage := by
  intro cat p hst
  refine ⟨fun garbage rest hbuf hgarbage => ?_, fun hnone => ⟨_, scanPass_magic_stop hst (fromMagic_eq_nil_iff.mpr hnone)⟩⟩
  have hfound : fromMagic p.buf = Config.magic :: rest := by
    rw [hbuf, fromMagic_append_of_nil (fromMagic_eq_nil_iff.mpr hgarbage)]
    exact fromMagic_cons_magic rest
  have hpass := scanPass_magic_go (cat := cat) hst hfound
  rw [hfound] at hpass
  exact ⟨_, hpass⟩

/-- Settles O47: each of the two states has one threshold of bytes. -/
theorem headerAndPayloadStatesWaitOrMoveOn : Obligations.HeaderAndPayloadStatesWaitOrMoveOn := by
  intro cat p
  refine ⟨fun hst => ⟨fun hlen => ?_, fun hlen => ?_⟩, fun hst => ⟨fun hlen => ?_, fun hlen => ?_⟩⟩
  · exact ⟨_, scanPass_header_stop hst hlen⟩
  · exact ⟨_, memRead_eq_leSum p.buf 7 3 ▸ scanPass_header_go hst hlen⟩
  · exact ⟨_, scanPass_payload_stop hst hlen⟩
  · exact ⟨_, scanPass_payload_go hst hlen⟩

/-- The received checksum is the number in the two bytes behind the payload. -/
theorem receivedCrc_eq_leSum (p : Parser) : receivedCrc p = leSum p.buf (10 + p.len.toNat) 2 :=
  memRead_eq_leSum p.buf (10 + p.len.toNat) 2

/-- Settles O48: both rejections are the same drop of the candidate. -/
theorem rejectedCandidateLosesItsMagicByte : Obligations.RejectedCandidateLosesItsMagicByte := by
  intro cat p hst
  refine ⟨fun hlen => ⟨_, scanPass_checksum_stop hst hlen⟩, fun hlen => ⟨fun hnone => ?_, fun e he hwf hcrc => ?_⟩⟩
  · exact ⟨_, scanPass_unknownId hst hlen hnone⟩
  · rw [← receivedCrc_eq_leSum] at hcrc
    exact ⟨_, scanPass_crcMismatch hst hlen he hwf hcrc⟩

/-! ### The run of passes (R239) -/

section
variable {cat : Catalog} {p q : Parser} {out : List Msg} {tr : List Anomaly}

/-- Where a pass stops, the next one would stop too and change nothing. -/
theorem quiescent_of_stop (h : scanPass cat p = .stop q tr) : Quiescent cat q := by
  rcases scanPass_stop h with ⟨hst, _, rfl⟩ | ⟨rfl, _⟩
  · exact ⟨_, scanPass_magic_stop (p := { p with buf := [] }) hst rfl⟩
  · exact ⟨tr, h⟩

/-- A quiescent parser in `MAGIC` holds no bytes. -/
theorem Quiescent.buf_eq_nil (h : Quiescent cat p) (hst : p.st = .magic) : p.buf = [] := by
  obtain ⟨tr, htr⟩ := h
  rcases scanPass_stop htr with ⟨_, _, hp⟩ | ⟨_, ⟨hst', _⟩ | ⟨hst', _⟩ | ⟨hst', _⟩⟩
  · exact congrArg Parser.buf hp
  all_goals simp [hst] at hst'

theorem quiescent_of_scanRun (h : ScanRun cat p q out tr) : Quiescent cat q := by
  induction h with
  | stop hstop => exact quiescent_of_stop hstop
  | go _ _ ih => exact ih

/-- The loop computes the run of passes. -/
theorem scan_eq_of_scanRun (h : ScanRun cat p q out tr) : scan cat p = .ok (q, out, tr) := by
  induction h with
  | stop hstop => exact scan_stop hstop
  | go hgo _ ih => rw [scan_go hgo, ih, Except.map]

theorem reachesIllFormed_of_refuse {r : Refusal} (h : scanPass cat p = .refuse r) : ReachesIllFormed cat p := by
  obtain ⟨hst, hlen, _, e, he, hwf⟩ := scanPass_refuse h
  exact ⟨p, e, .here p, hst, hlen, he, hwf⟩

theorem reachesIllFormed_of_go (h : scanPass cat p = .go q out tr) (hq : ReachesIllFormed cat q) :
    ReachesIllFormed cat p := by
  obtain ⟨c, e, hreach, hcandidate⟩ := hq
  exact ⟨c, e, .go h hreach, hcandidate⟩

/-- Passes that meet no ill-formed entry come to one that stops. -/
theorem exists_scanRun (cat : Catalog) (p : Parser) (hp : ¬ ReachesIllFormed cat p) :
    ∃ q out tr, ScanRun cat p q out tr := by
  induction p using scan_induction cat with
  | stop p q tr h => exact ⟨q, [], tr, .stop h⟩
  | refuse p r h => exact absurd (reachesIllFormed_of_refuse h) hp
  | go p q out tr h ih =>
    obtain ⟨q', out', tr', hrun⟩ := ih fun hq => hp (reachesIllFormed_of_go h hq)
    exact ⟨q', out ++ out', tr ++ tr', .go h hrun⟩

/-- A catalog of well-formed entries has none to reach that is not. -/
theorem not_reachesIllFormed_of_entriesWf (hcat : cat.entriesWf) : ¬ ReachesIllFormed cat p := by
  rintro ⟨_, e, _, _, _, he, hwf⟩
  exact absurd (lookup_wf hcat he) (by simp [hwf])

end

/-! ### PS.FEED and PS.PUSH (R231, R240, R241) -/

theorem exec_psFEED (chunk : Bytes) (s : State) : exec (.psFEED chunk) s = feedState chunk s := rfl

theorem exec_psPUSH (b : Byte) (s : State) : exec (.psPUSH b) s = feedState [b] s := rfl

theorem withinCapacity_iff {s : State} {chunk : Bytes} : withinCapacity s chunk = true ↔ HasRoom s chunk := by
  cases hcap : s.bufCap <;> simp [withinCapacity, HasRoom, hcap]

/-- A feed that has room answers with the run of passes from the buffer with the chunk. -/
theorem feedState_of_scanRun {s : State} {chunk : Bytes} {p : Parser} {out : List Msg} {tr : List Anomaly}
    (hroom : HasRoom s chunk) (hrun : ScanRun s.cat (appendChunk s.ps chunk) p out tr) :
    feedState chunk s = .next (State.answer { s with ps := p } (.messages out) tr) := by
  have hfeed : feed s.cat s.ps chunk = .ok (p, out, tr) := scan_eq_of_scanRun hrun
  rw [feedState, if_pos (withinCapacity_iff.mpr hroom), hfeed]

/-- An operation that is a feed, with room for its bytes and no ill-formed entry in their way, completes with a run of
passes and leaves a quiescent parser. -/
theorem feed_completes {op : Byte} {i : Instr} {s : State} {chunk : Bytes} (hop : i.op = op)
    (hexec : exec i s = feedState chunk s) (hroom : HasRoom s chunk)
    (hwf : ¬ ReachesIllFormed s.cat (appendChunk s.ps chunk)) :
    ∃ p out tr, ScanRun s.cat (appendChunk s.ps chunk) p out tr ∧ (p.st = .magic → p.buf = []) ∧
      Quiescent s.cat p ∧ i.op = op ∧ exec i s = .next (State.answer { s with ps := p } (.messages out) tr) := by
  obtain ⟨p, out, tr, hrun⟩ := exists_scanRun s.cat _ hwf
  have hquiescent := quiescent_of_scanRun hrun
  have hfeed := feedState_of_scanRun hroom hrun
  exact ⟨p, out, tr, hrun, hquiescent.buf_eq_nil, hquiescent, hop, hexec.trans hfeed⟩

/-- Settles O51, by induction along the passes: each that goes on makes the measure smaller, so one stops. -/
theorem feedRunsPassesToTheFirstStop : Obligations.FeedRunsPassesToTheFirstStop := by
  refine ⟨fun chunk s hroom hwf => ?_, fun b s hroom hwf => ?_, fun _ _ => not_reachesIllFormed_of_entriesWf⟩
  · exact feed_completes rfl (exec_psFEED chunk s) hroom hwf
  · exact feed_completes rfl (exec_psPUSH b s) hroom hwf

end Sys2Proof.Machine
end

section
/-! PROOFS. A field as bytes and as a value (20_memory.md R58, 42_field_codec_read.md R193): what reading a field gives,
and that reading the image of a value gives the value reduced to its field. -/

namespace Sys2Proof.Machine

open Claims

/-! ### The value in the bytes of a field -/

theorem stripZeros_eq_trimmed (B : Bytes) : stripZeros B = trimmed B := rfl

/-- The number in a stretch of a field is the number in the buffer behind the field's offset. -/
theorem leSum_take_drop {B : Bytes} {o n a w : Nat} (h : a + w ≤ n) :
    leSum ((B.drop o).take n) a w = leSum B (o + a) w := by
  rw [← leNat_take_drop, ← leNat_take_drop, List.drop_take, List.drop_drop, List.take_take, Nat.min_eq_left (by omega)]

theorem leSum_drop (B : Bytes) (o a w : Nat) : leSum (B.drop o) a w = leSum B (o + a) w := by
  rw [← leNat_take_drop, ← leNat_take_drop, List.drop_drop]

/-- The number in the first bytes of a sequence. -/
theorem leSum_append_left {A : Bytes} (C : Bytes) {w : Nat} (h : A.length = w) : leSum (A ++ C) 0 w = leNat A := by
  rw [← leNat_take_drop, List.drop_zero, ← h, List.take_left]

theorem scalarOf_eq_scalarOfNumber (k : Kind) (n : Nat) : k.scalarOf n = scalarOfNumber k n := by
  cases k <;> rfl

theorem Desc.size_of_scalar {d : Desc} (h : d.arrayLength = 0) : d.size = d.kind.width := if_pos h

theorem Desc.size_of_array {d : Desc} (h : 0 < d.arrayLength) : d.size = d.kind.width * d.arrayLength :=
  if_neg (Nat.ne_of_gt h)

theorem Desc.size_of_text {d : Desc} (h : 0 < d.arrayLength) (hk : d.kind = .text) : d.size = d.arrayLength := by
  rw [Desc.size_of_array h, hk, Kind.width, Nat.one_mul]

/-- A read of a field depends on the bytes of the field alone (42_field_codec_read.md R170). -/
theorem fieldAt_eq_readValue (d : Desc) (B : Bytes) (o : Nat) :
    fieldAt d B o = readValue d ((B.drop o).take d.size) := by
  unfold fieldAt readValue
  by_cases hn : d.arrayLength = 0
  · rw [if_pos hn, if_pos hn, scalarAt_eq, scalarOf_eq_scalarOfNumber, Desc.size_of_scalar hn,
      leSum_take_drop (by omega), Nat.add_zero]
  · have hpos := Nat.pos_of_ne_zero hn
    rw [if_neg hn, if_neg hn]
    by_cases hk : d.kind = .text
    · rw [if_pos hk, if_pos hk, Desc.size_of_text hpos hk, textAt, slice_eq_take_drop, stripZeros_eq_trimmed]
    · rw [if_neg hk, if_neg hk, arrayAt_eq]
      congr 1
      refine List.map_congr_left fun i hi => ?_
      have hend : d.kind.width * i + d.kind.width ≤ d.size := by
        rw [Desc.size_of_array hpos, ← Nat.mul_succ]
        exact Nat.mul_le_mul_left _ (List.mem_range.mp hi)
      rw [scalarOf_eq_scalarOfNumber, leSum_take_drop hend]

/-- The fields from a running offset are the fields of the bytes behind it. -/
theorem decodeFields_eq_readFields (ds : List Desc) (P : Bytes) (off : Nat) :
    decodeFields ds P off = readFields ds (P.drop off) := by
  induction ds generalizing off with
  | nil => rfl
  | cons d ds ih => rw [decodeFields, readFields, fieldAt_eq_readValue, ih, List.drop_drop]

/-! ### The bytes of a value -/

@[simp] theorem intBytes_length (w : Nat) (v : Int) : (intBytes w v).length = w := by simp [intBytes]

@[simp] theorem scalarBytes_length (w : Nat) (x : Scalar) : (scalarBytes w x).length = w := by
  cases x <;> exact intBytes_length w _

theorem flatMap_scalarBytes_length (w : Nat) (xs : List Scalar) :
    (xs.flatMap (scalarBytes w)).length = w * xs.length := by
  simp [List.length_flatMap, Nat.mul_comm]

/-- The number the bytes of an integer spell is the integer reduced. -/
theorem leNat_intBytes (w : Nat) (v : Int) : leNat (intBytes w v) = (v % 256 ^ w).toNat := by
  have hnonneg : 0 ≤ v % 256 ^ w := Int.emod_nonneg v (by positivity)
  have hlt : v % 256 ^ w < 256 ^ w := Int.emod_lt_of_pos v (by positivity)
  rw [← leBytes_toNat_emod, leNat_leBytes, Nat.mod_eq_of_lt]
  exact (Int.toNat_lt hnonneg).mpr (by exact_mod_cast hlt)

/-- The bytes a value puts into its field are no more than the field has. -/
theorem valueBytes_length_le {d : Desc} {v : Value} (h : Fits d v) : (valueBytes d v).length ≤ d.size := by
  cases v with
  | scalar x =>
    obtain ⟨hn, _⟩ := h
    rw [Desc.size_of_scalar hn, valueBytes, scalarBytes_length]
  | text t =>
    obtain ⟨hn, hk⟩ := h
    rw [Desc.size_of_text hn hk, valueBytes]
    exact List.length_take_le _ _
  | list xs =>
    obtain ⟨hn, _, _⟩ := h
    rw [Desc.size_of_array hn, valueBytes, flatMap_scalarBytes_length]
    exact Nat.mul_le_mul_left _ (List.length_take_le _ _)

theorem fieldImage_length {d : Desc} {v : Value} (h : Fits d v) : (fieldImage d v).length = d.size := by
  have hle := valueBytes_length_le h
  rw [fieldImage, List.length_append, List.length_replicate]
  omega

/-! ### Reading the image of a value (R193) -/

/-- Two's complement of a reduced integer, and the reduction into the signed range, are the same number. -/
theorem signedOf_toNat_emod {W : Nat} (hW : 0 < W) (v : Int) :
    signedOf W (v % 2 ^ W).toNat = (v + 2 ^ (W - 1)) % 2 ^ W - 2 ^ (W - 1) := by
  obtain ⟨n, rfl⟩ : ∃ n, W = n + 1 := ⟨W - 1, by omega⟩
  have hnonneg : 0 ≤ v % 2 ^ (n + 1) := Int.emod_nonneg v (by positivity)
  have hlt : v % 2 ^ (n + 1) < 2 ^ (n + 1) := Int.emod_lt_of_pos v (by positivity)
  have hpos : (0 : Int) < 2 ^ n := by positivity
  have hcond : (v % 2 ^ (n + 1)).toNat < 2 ^ n ↔ v % 2 ^ (n + 1) < 2 ^ n := by
    rw [Int.toNat_lt hnonneg]
    norm_cast
  have hreduce : (v + 2 ^ n) % 2 ^ (n + 1) = (v % 2 ^ (n + 1) + 2 ^ n) % 2 ^ (n + 1) := by
    rw [Int.emod_add_emod]
  rw [signedOf, Nat.add_sub_cancel, Int.toNat_of_nonneg hnonneg, hreduce]
  generalize v % 2 ^ (n + 1) = r at hnonneg hlt hcond
  rw [pow_succ] at *
  generalize (2 : Int) ^ n = M at *
  simp only [hcond]
  split
  · rw [Int.emod_eq_of_lt (by omega) (by omega)]
    omega
  · rw [← Int.sub_emod_right, Int.emod_eq_of_lt (by omega) (by omega)]
    omega

theorem scalarOfNumber_intBytes {k : Kind} (v : Int) (h : ScalarOf k (.int v)) :
    scalarOfNumber k (leNat (intBytes k.width v)) = reduced k (.int v) := by
  have h256 (w : Nat) : (256 : Int) ^ w = 2 ^ (8 * w) := by rw [pow_mul]; norm_num
  have hnonneg (W : Nat) : 0 ≤ v % 2 ^ W := Int.emod_nonneg v (by positivity)
  rw [leNat_intBytes, h256]
  cases k
  case f32 | f64 | text => cases h
  case u8 | u16 | u32 | u64 => exact congrArg Scalar.int (Int.toNat_of_nonneg (hnonneg _))
  case i8 | i16 | i32 | i64 => exact congrArg Scalar.int (signedOf_toNat_emod (by decide) v)

/-- A scalar's bytes read back as the scalar reduced (R193 a, b). -/
theorem scalarOfNumber_scalarBytes {k : Kind} {x : Scalar} (h : ScalarOf k x) :
    scalarOfNumber k (leNat (scalarBytes k.width x)) = reduced k x := by
  cases x with
  | int v => exact scalarOfNumber_intBytes v h
  | b32 p =>
    cases k <;> cases h
    have hp : leNat (intBytes 4 p.toNat) = p.toNat := by
      rw [intBytes_natCast, leNat_leBytes, Nat.mod_eq_of_lt (by simpa using p.isLt)]
    simp [scalarOfNumber, scalarBytes, Kind.width, reduced, hp]
  | b64 p =>
    cases k <;> cases h
    have hp : leNat (intBytes 8 p.toNat) = p.toNat := by
      rw [intBytes_natCast, leNat_leBytes, Nat.mod_eq_of_lt (by simpa using p.isLt)]
    simp [scalarOfNumber, scalarBytes, Kind.width, reduced, hp]

theorem scalarOfNumber_zero (k : Kind) : scalarOfNumber k 0 = zeroOf k := by
  cases k <;> simp [scalarOfNumber, zeroOf, Kind.signed, signedOf]

/-- The elements of a kind in a field of `n` elements. -/
def readElements (k : Kind) (n : Nat) (F : Bytes) : List Scalar :=
  (List.range n).map fun i => scalarOfNumber k (leSum F (k.width * i) k.width)

theorem readElements_succ (k : Kind) (n : Nat) (F : Bytes) :
    readElements k (n + 1) F = scalarOfNumber k (leSum F 0 k.width) :: readElements k n (F.drop k.width) := by
  simp only [readElements, List.range_succ_eq_map, List.map_cons, List.map_map, Nat.mul_zero, leSum_drop,
    Function.comp_def, Nat.mul_succ, Nat.add_comm]

theorem readElements_zeros (k : Kind) (n : Nat) : readElements k n (zeros (k.width * n)) = List.replicate n (zeroOf k) := by
  induction n with
  | zero => rfl
  | succ n ih =>
    have hz : zeros (k.width * (n + 1)) = zeros k.width ++ zeros (k.width * n) := by
      rw [← zeros_add, Nat.mul_succ, Nat.add_comm]
    rw [readElements_succ, hz, leSum_append_left _ List.length_replicate, List.drop_left' List.length_replicate, ih,
      leNat_zeros, scalarOfNumber_zero, List.replicate_succ]

/-- The elements of an array, one after another and padded with zeros, read back (R193 d). -/
theorem readElements_flatMap {k : Kind} {xs : List Scalar} (h : ∀ x ∈ xs, ScalarOf k x) (n : Nat) :
    readElements k n ((xs.take n).flatMap (scalarBytes k.width) ++ zeros (k.width * n - k.width * (xs.take n).length)) =
      (xs.take n).map (reduced k) ++ List.replicate (n - xs.length) (zeroOf k) := by
  induction n generalizing xs with
  | zero => simp [readElements]
  | succ n ih =>
    cases xs with
    | nil => simpa using readElements_zeros k (n + 1)
    | cons x xs =>
      obtain ⟨hx, hxs⟩ := List.forall_mem_cons.mp h
      have hpad : k.width * (n + 1) - k.width * ((xs.take n).length + 1) =
          k.width * n - k.width * (xs.take n).length := by
        rw [Nat.mul_succ, Nat.mul_succ, Nat.add_sub_add_right]
      rw [List.take_succ_cons, List.flatMap_cons, List.length_cons, hpad, List.append_assoc, readElements_succ,
        leSum_append_left _ (scalarBytes_length _ x), List.drop_left' (scalarBytes_length _ x), ih hxs,
        scalarOfNumber_scalarBytes hx, List.map_cons, List.cons_append, List.length_cons, Nat.add_sub_add_right]

/-- The image of a value reads back as the value reduced to its field (R193). -/
theorem readValue_fieldImage {d : Desc} {v : Value} (h : Fits d v) : readValue d (fieldImage d v) = readBack d v := by
  cases v with
  | scalar x =>
    obtain ⟨hn, hx⟩ := h
    rw [readValue, if_pos hn, fieldImage, valueBytes, leSum_append_left _ (scalarBytes_length _ x),
      scalarOfNumber_scalarBytes hx, readBack]
  | text t =>
    obtain ⟨hn, hk⟩ := h
    rw [readValue, if_neg (Nat.ne_of_gt hn), if_pos hk, fieldImage, ← stripZeros_eq_trimmed, stripZeros_append_zeros,
      valueBytes, readBack, stripZeros_eq_trimmed]
  | list xs =>
    obtain ⟨hn, hk, hxs⟩ := h
    have helements := readElements_flatMap hxs d.arrayLength
    rw [readElements] at helements
    rw [readValue, if_neg (Nat.ne_of_gt hn), if_neg hk, fieldImage, valueBytes, flatMap_scalarBytes_length,
      Desc.size_of_array hn, helements, readBack]

/-- The fields of the images of values, one after another, read back in order. -/
theorem readFields_fieldImages {ds : List Desc} {vs : List Value} (h : List.Forall₂ Fits ds vs) :
    readFields ds (List.zipWith fieldImage ds vs).flatten = List.zipWith readBack ds vs := by
  induction h with
  | nil => rfl
  | cons hfit _ ih =>
    rw [List.zipWith_cons_cons, List.flatten_cons, readFields, List.take_left' (fieldImage_length hfit),
      List.drop_left' (fieldImage_length hfit), readValue_fieldImage hfit, ih, List.zipWith_cons_cons]

end Sys2Proof.Machine
end

section
/-! PROOFS. The field codec's operations over every descriptor (30_encoding.md R101, 41_field_codec_write.md,
42_field_codec_read.md): the one operation a descriptor selects, what it returns and when it is refused. -/

namespace Sys2Proof.Machine

open Claims

/-! ### What a field write answers, by the shape of its value -/

section
variable {d : Desc} {B : Bytes} {o : Nat} {v : Value}

theorem ne_text_of_scalarOf {k : Kind} {x : Scalar} (h : ScalarOf k x) : k ≠ .text := by
  rintro rfl
  cases x <;> cases h

theorem writeField_scalar {x : Scalar} (hn : d.arrayLength = 0) (hk : d.kind ≠ .text) :
    writeField d B o (.scalar x) = writeScalar d.kind B o x := by
  cases h : d.kind <;> simp_all [writeField]

theorem writeField_text {t : Bytes} (hn : 0 < d.arrayLength) (hk : d.kind = .text) :
    writeField d B o (.text t) = writeText B o d.arrayLength t := by
  simp [writeField, hk, Nat.ne_of_gt hn]

theorem writeField_list {xs : List Scalar} (hn : 0 < d.arrayLength) (hk : d.kind ≠ .text) :
    writeField d B o (.list xs) = writeArray d.kind B o d.arrayLength xs := by
  cases h : d.kind <;> simp_all [writeField, Nat.ne_of_gt hn]

/-- The label a write of a value raises (60_exceptions.md R296). -/
def valueLabel (d : Desc) : Value → List Anomaly
  | .scalar x => scalarLabel d.kind x
  | .text t => textLabel d.arrayLength t
  | .list xs => arrayLabel d.kind d.arrayLength xs

/-- A value of the descriptor's shape, written inside the buffer, stores its bytes and nothing else (R140). -/
theorem writeField_eq_written (h : Fits d v) (hr : o + d.size ≤ B.length) :
    writeField d B o v = .ok (written B o (valueBytes d v), valueLabel d v) := by
  cases v with
  | scalar x =>
    obtain ⟨hn, hx⟩ := h
    rw [Desc.size_of_scalar hn] at hr
    rw [writeField_scalar hn (ne_text_of_scalarOf hx), writeScalar_eq_written hx hr, valueBytes, valueLabel]
  | text t =>
    obtain ⟨hn, hk⟩ := h
    rw [Desc.size_of_text hn hk] at hr
    rw [writeField_text hn hk]
    exact writeText_ok.mpr ⟨hn, hr, rfl, rfl⟩
  | list xs =>
    obtain ⟨hn, hk, hxs⟩ := h
    rw [Desc.size_of_array hn] at hr
    rw [writeField_list hn hk, writeArray_eq_written hxs hn hr, valueBytes, valueLabel]

/-- A value of the descriptor's shape is refused only for the field's range (R140, D20). -/
theorem writeField_outside (h : Fits d v) (hr : B.length < o + d.size) :
    writeField d B o v = .error .rangeOutsideBuffer := by
  cases v with
  | scalar x =>
    obtain ⟨hn, hx⟩ := h
    obtain ⟨p, hp⟩ := exists_pattern_of_scalarOf hx
    rw [Desc.size_of_scalar hn] at hr
    rw [writeField_scalar hn (ne_text_of_scalarOf hx)]
    simp [writeScalar, hp, inside, hr]
  | text t =>
    obtain ⟨hn, hk⟩ := h
    rw [Desc.size_of_text hn hk] at hr
    rw [writeField_text hn hk]
    simp [writeText, inside, hr, Nat.ne_of_gt hn]
  | list xs =>
    obtain ⟨hn, hk, hxs⟩ := h
    obtain ⟨ps, hps⟩ := exists_patterns_of_scalarOf hxs
    rw [Desc.size_of_array hn] at hr
    rw [writeField_list hn hk]
    simp [writeArray, hps, inside, hr, Nat.ne_of_gt hn]

theorem scalarOf_of_patterns_eq_some {k : Kind} {xs : List Scalar} {ps : List Nat} (h : patterns k xs = some ps) :
    ∀ x ∈ xs, ScalarOf k x := by
  induction xs generalizing ps with
  | nil => simp
  | cons x xs ih =>
    simp only [patterns] at h
    split at h
    · rename_i p qs hp hqs
      exact List.forall_mem_cons.mpr ⟨pattern_isSome_iff.mp (by rw [hp]; rfl), ih hqs⟩
    · cases h

/-- A value that has not the descriptor's shape is refused for its shape (43_packer.md R211 c). -/
theorem writeField_of_not_fits (hd : d.wf = true) (h : ¬ Fits d v) : writeField d B o v = .error .valueShape := by
  have hwf : d.kind = .text → d.arrayLength ≠ 0 := by simpa [Desc.wf, imp_iff_not_or] using hd
  rcases Nat.eq_zero_or_pos d.arrayLength with hn | hn
  · have hk : d.kind ≠ .text := fun hk => hwf hk hn
    cases v with
    | scalar x =>
      have hp : d.kind.pattern x = none := by
        rw [← Option.not_isSome_iff_eq_none, pattern_isSome_iff]
        exact fun hx => h ⟨hn, hx⟩
      rw [writeField_scalar hn hk, writeScalar, hp]
    | text t => cases hkind : d.kind <;> simp_all [writeField]
    | list xs => cases hkind : d.kind <;> simp_all [writeField]
  · cases v with
    | scalar x => cases hkind : d.kind <;> simp [writeField, hkind, Nat.ne_of_gt hn]
    | text t =>
      have hk : d.kind ≠ .text := fun hk => h ⟨hn, hk⟩
      cases hkind : d.kind <;> simp_all [writeField, Nat.ne_of_gt hn]
    | list xs =>
      by_cases hk : d.kind = .text
      · simp [writeField, hk, Nat.ne_of_gt hn]
      · have hps : patterns d.kind xs = none := by
          rw [Option.eq_none_iff_forall_not_mem]
          exact fun ps hps => h ⟨hn, hk, scalarOf_of_patterns_eq_some hps⟩
        rw [writeField_list hn hk, writeArray, hps]

end

/-! ### The operation a descriptor selects (R101) -/

/-- The scalar writes of the ten kinds are well-formed; an array write is where its array length is greater than 0. -/
theorem wellFormed_scalarWriteInstr {k : Kind} {B : Bytes} {o : Nat} {x : Scalar} {i : Instr}
    (h : scalarWriteInstr k B o x = some i) : WellFormed i := by
  cases x <;> cases k <;> cases h <;> rfl

theorem wellFormed_arrayWriteInstr {k : Kind} {B : Bytes} {o n : Nat} {xs : List Scalar} {i : Instr} (hn : 0 < n)
    (h : arrayWriteInstr k B o n xs = some i) : WellFormed i := by
  cases k <;> simp only [arrayWriteInstr, Option.map_eq_some_iff, reduceCtorEq] at h <;> obtain ⟨_, _, rfl⟩ := h <;>
    exact decide_eq_true hn

theorem exists_scalarWriteInstr {k : Kind} {x : Scalar} (B : Bytes) (o : Nat) (h : ScalarOf k x) :
    ∃ i, scalarWriteInstr k B o x = some i := by
  cases x <;> cases k <;> cases h <;> exact ⟨_, rfl⟩

/-- Scalars that are all of one form are the images of a list of contents. -/
theorem exists_eq_map_of_forall {α : Type} {f : α → Scalar} {xs : List Scalar} (h : ∀ x ∈ xs, ∃ a, f a = x) :
    ∃ as : List α, xs = as.map f := by
  have hrange : xs ∈ Set.range (List.map f) := by
    rw [Set.range_list_map]
    exact h
  obtain ⟨as, has⟩ := hrange
  exact ⟨as, has.symm⟩

theorem map_b32sOf_map_b32 {β : Type} (g : List (BitVec 32) → β) (ps : List (BitVec 32)) :
    (b32sOf (ps.map Scalar.b32)).map g = some (g ps) := by
  rw [b32sOf_eq_some.mpr rfl, Option.map_some]

theorem map_b64sOf_map_b64 {β : Type} (g : List (BitVec 64) → β) (ps : List (BitVec 64)) :
    (b64sOf (ps.map Scalar.b64)).map g = some (g ps) := by
  rw [b64sOf_eq_some.mpr rfl, Option.map_some]

theorem exists_arrayWriteInstr {k : Kind} {xs : List Scalar} (B : Bytes) (o n : Nat) (hk : k ≠ .text)
    (h : ∀ x ∈ xs, ScalarOf k x) : ∃ i, arrayWriteInstr k B o n xs = some i := by
  cases k
  case text => exact absurd rfl hk
  case f32 =>
    obtain ⟨ps, rfl⟩ := exists_eq_map_of_forall (f := .b32) (xs := xs) fun x hx => by
      cases x <;> cases h _ hx
      exact ⟨_, rfl⟩
    exact ⟨_, map_b32sOf_map_b32 _ ps⟩
  case f64 =>
    obtain ⟨ps, rfl⟩ := exists_eq_map_of_forall (f := .b64) (xs := xs) fun x hx => by
      cases x <;> cases h _ hx
      exact ⟨_, rfl⟩
    exact ⟨_, map_b64sOf_map_b64 _ ps⟩
  all_goals
    obtain ⟨vs, rfl⟩ := exists_eq_map_of_forall (f := .int) (xs := xs) fun x hx => by
      cases x <;> cases h _ hx
      exact ⟨_, rfl⟩
    exact ⟨_, map_intsOf_map_int _ vs⟩

/-- Everything an expansion of `FC.WRITE` says: the value has the descriptor's shape, and the operation has the code and
the meaning the descriptor selects (R101). -/
theorem fcWrite_some {d : Desc} {B : Bytes} {o : Nat} {v : Value} {i : Instr} (h : fcWrite d B o v = some i) :
    Fits d v ∧ WellFormed i ∧
      i.op = BitVec.ofNat 8 ((if 0 < d.arrayLength ∧ d.kind ≠ .text then 0x20 else 0) + d.kind.code) ∧
      ∀ s, exec i s = answer .buffer s (writeField d B o v) := by
  cases v with
  | scalar x =>
    obtain ⟨hn, hi⟩ := Option.ite_none_right_eq_some.mp h
    obtain ⟨hop, hx, hexec⟩ := scalarWriteInstr_some hi
    refine ⟨⟨hn, hx⟩, wellFormed_scalarWriteInstr hi, ?_, fun s => ?_⟩
    · simp [hop, hn]
    · rw [hexec, writeField_scalar hn (ne_text_of_scalarOf hx)]
  | text t =>
    obtain ⟨⟨hk, hn⟩, hi⟩ := Option.ite_none_right_eq_some.mp h
    cases hi
    refine ⟨⟨hn, hk⟩, decide_eq_true hn, ?_, fun s => ?_⟩
    · simp [Instr.op, hk, Kind.code]
    · rw [writeField_text hn hk]
      rfl
  | list xs =>
    obtain ⟨hn, hi⟩ := Option.ite_none_right_eq_some.mp h
    obtain ⟨hop, hxs, hexec⟩ := arrayWriteInstr_some hi
    have hk : d.kind ≠ .text := fun hk => by simp [hk, arrayWriteInstr] at hi
    refine ⟨⟨hn, hk, hxs⟩, wellFormed_arrayWriteInstr hn hi, ?_, fun s => ?_⟩
    · simp only [hop, hn, hk, ne_eq, not_false_eq_true, and_self, if_true]
    · rw [hexec, writeField_list hn hk]

theorem exists_fcWrite {d : Desc} {v : Value} (B : Bytes) (o : Nat) (h : Fits d v) : ∃ i, fcWrite d B o v = some i := by
  cases v with
  | scalar x =>
    obtain ⟨hn, hx⟩ := h
    simpa [fcWrite, hn] using exists_scalarWriteInstr B o hx
  | text t =>
    obtain ⟨hn, hk⟩ := h
    exact ⟨_, if_pos ⟨hk, hn⟩⟩
  | list xs =>
    obtain ⟨hn, hk, hxs⟩ := h
    simpa [fcWrite, hn] using exists_arrayWriteInstr B o d.arrayLength hk hxs

/-- The one read the descriptor selects, as a function of the buffer (R101, R103). -/
def readField (d : Desc) (B : Bytes) (o : Nat) : Except Refusal (Value × List Anomaly) :=
  if d.arrayLength = 0 then readScalar d.kind B o
  else if d.kind = .text then readText B o d.arrayLength else readArray d.kind B o d.arrayLength

/-- Everything an expansion of `FC.READ` says (R101). -/
theorem fcRead_some {d : Desc} {B : Bytes} {o : Nat} {i : Instr} (h : fcRead d B o = some i) :
    ¬ (d.kind = .text ∧ d.arrayLength = 0) ∧ WellFormed i ∧
      i.op = BitVec.ofNat 8 ((if 0 < d.arrayLength ∧ d.kind ≠ .text then 0x30 else 0x10) + d.kind.code) ∧
      ∀ s, exec i s = answer .value s (readField d B o) := by
  obtain ⟨name, k, ext, n⟩ := d
  unfold fcRead at h
  unfold readField
  rcases Nat.eq_zero_or_pos n with rfl | hn
  · cases k <;> cases h <;> exact ⟨by simp, rfl, rfl, fun _ => rfl⟩
  · rw [if_neg (Nat.ne_of_gt hn)] at h
    simp only [if_neg (Nat.ne_of_gt hn)]
    cases k <;> cases h
    all_goals
      refine ⟨by simp [Nat.ne_of_gt hn], decide_eq_true hn, ?_, fun _ => rfl⟩
      simp [hn, Instr.op, Kind.code]

theorem exists_fcRead {d : Desc} (B : Bytes) (o : Nat) (h : ¬ (d.kind = .text ∧ d.arrayLength = 0)) :
    ∃ i, fcRead d B o = some i := by
  obtain ⟨name, k, ext, n⟩ := d
  by_cases hn : n = 0
  · cases k <;> simp_all [fcRead]
  · cases k <;> simp [fcRead, hn]

/-- A read inside the buffer returns the field's value (42_field_codec_read.md R170). -/
theorem readField_inside {d : Desc} {B : Bytes} {o : Nat} (hr : o + d.size ≤ B.length) :
    readField d B o = .ok (fieldAt d B o, []) := by
  unfold readField fieldAt
  by_cases hn : d.arrayLength = 0
  · rw [Desc.size_of_scalar hn] at hr
    rw [if_pos hn, if_pos hn]
    exact readScalar_ok.mpr ⟨hr, rfl, rfl⟩
  · have hpos := Nat.pos_of_ne_zero hn
    rw [if_neg hn, if_neg hn]
    by_cases hk : d.kind = .text
    · rw [Desc.size_of_text hpos hk] at hr
      rw [if_pos hk, if_pos hk]
      exact readText_ok.mpr ⟨hpos, hr, rfl, rfl⟩
    · rw [Desc.size_of_array hpos] at hr
      rw [if_neg hk, if_neg hk]
      exact readArray_ok.mpr ⟨hpos, hr, rfl, rfl⟩

theorem readField_outside {d : Desc} {B : Bytes} {o : Nat} (hr : B.length < o + d.size) :
    readField d B o = .error .rangeOutsideBuffer := by
  unfold readField
  by_cases hn : d.arrayLength = 0
  · rw [Desc.size_of_scalar hn] at hr
    simp [hn, readScalar, inside, hr]
  · have hpos := Nat.pos_of_ne_zero hn
    by_cases hk : d.kind = .text
    · rw [Desc.size_of_text hpos hk] at hr
      simp [hn, hk, readText, inside, hr]
    · rw [Desc.size_of_array hpos] at hr
      simp [hn, hk, readArray, inside, hr]

/-! ### The range of a value (30_encoding.md R87, 60_exceptions.md R296) -/

theorem holds_iff_scalarInRange {k : Kind} {x : Scalar} : k.holds x = true ↔ ScalarInRange k x := by
  cases x with
  | int v => cases hs : k.signed <;> simp [Kind.holds, ScalarInRange, hs]
  | b32 p => simp [Kind.holds, ScalarInRange]
  | b64 p => simp [Kind.holds, ScalarInRange]

theorem rangeLabel_eq {fits : Bool} {P : Prop} (h : fits = true ↔ P) :
    (P → rangeLabel fits = []) ∧ (¬ P → rangeLabel fits = [.valueRange]) := by
  cases fits <;> simp_all [rangeLabel]

/-- A write of a value raises one label where the value does not fit, and none where it does. -/
theorem valueLabel_eq (d : Desc) (v : Value) :
    (ValueInRange d v → valueLabel d v = []) ∧ (¬ ValueInRange d v → valueLabel d v = [.valueRange]) := by
  cases v with
  | scalar x => exact rangeLabel_eq holds_iff_scalarInRange
  | text t => exact rangeLabel_eq decide_eq_true_iff
  | list xs => exact rangeLabel_eq (by simp [ValueInRange, holds_iff_scalarInRange])

/-! ### The bytes of a field after its write -/

theorem written_length {B : Bytes} {o : Nat} {t : Bytes} (h : o + t.length ≤ B.length) :
    (written B o t).length = B.length := putBytes_length h

/-- A value written on zeros leaves its image in the field. -/
theorem take_drop_written {B : Bytes} {o n : Nat} {t : Bytes} (ht : t.length ≤ n) (hr : o + n ≤ B.length)
    (hz : (B.drop o).take n = zeros n) : ((written B o t).drop o).take n = t ++ zeros (n - t.length) := by
  have ho : (B.take o).length = o := List.length_take_of_le (by omega)
  have hsplit : B = B.take o ++ zeros n ++ B.drop (o + n) := by
    rw [← hz, List.append_assoc, ← List.drop_drop, List.take_append_drop, List.take_append_drop]
  have hput := putBytes_zeros (A := B.take o) (C := B.drop (o + n)) ht
  rw [← hsplit, ho] at hput
  rw [← putBytes_eq_written, hput, List.append_assoc, List.drop_left' ho, List.take_left' (by simp; omega)]

/-! ### What the operations of every descriptor do -/

/-- Settles O40, by cases on the value and induction along the elements of an array: the write leaves the image of the
value in the field, and the read of an image is the value reduced. -/
theorem readAfterWriteGivesTheReducedValue : Obligations.ReadAfterWriteGivesTheReducedValue := by
  intro d B B' o v i j s tr hi hz hexec hj
  obtain ⟨hfit, _, _, hwrite⟩ := fcWrite_some hi
  obtain ⟨_, _, _, hread⟩ := fcRead_some hj
  have hlen := valueBytes_length_le hfit
  rcases Nat.lt_or_ge B.length (o + d.size) with hr | hr
  · rw [hwrite, writeField_outside hfit hr] at hexec
    cases hexec
  · obtain ⟨_, _, hok, hanswer⟩ := answer_next ((hwrite s).symm.trans hexec)
    obtain rfl : B' = written B o (valueBytes d v) := by
      rw [writeField_eq_written hfit hr] at hok
      cases hok
      simpa using congrArg State.results hanswer
    have hinside : o + d.size ≤ (written B o (valueBytes d v)).length := by
      rw [written_length (by omega)]
      exact hr
    refine ⟨rfl, [], ?_⟩
    rw [hread, readField_inside hinside, fieldAt_eq_readValue, take_drop_written hlen hr hz, ← fieldImage,
      readValue_fieldImage hfit, answer]

/-- Settles O10: FC.WRITE and FC.READ expand by the descriptor's shape and to the code its kind selects. -/
theorem descriptorSelectsTheOperation : Obligations.DescriptorSelectsTheOperation := by
  refine ⟨fun d B o v => ⟨exists_fcWrite B o, fun ⟨i, hi⟩ => (fcWrite_some hi).1⟩, fun d B o v i hi => ?_,
    fun d B o => ⟨exists_fcRead B o, fun ⟨i, hi⟩ => (fcRead_some hi).1⟩, fun d B o i hi => ?_⟩
  · obtain ⟨_, hwf, hop, _⟩ := fcWrite_some hi
    refine ⟨hwf, hop.trans ?_⟩
    cases d.kind <;> split <;> rfl
  · obtain ⟨_, hwf, hop, _⟩ := fcRead_some hi
    refine ⟨hwf, hop.trans ?_⟩
    cases d.kind <;> split <;> rfl

/-- Settles O26: an accepted write puts no more bytes than the field has at the field's offset. -/
theorem writesStayInsideTheField : Obligations.WritesStayInsideTheField := by
  intro d B o v i s t hi ht
  obtain ⟨_, _, _, hwrite⟩ := fcWrite_some hi
  obtain ⟨B', tr, hok, rfl⟩ := answer_next ((hwrite s).symm.trans ht)
  obtain ⟨u, hu, hr, rfl, _⟩ := writeField_ok hok
  refine ⟨_, tr, rfl, putBytes_length (by omega), fun j hj => ?_⟩
  rcases hj with hj | hj
  · exact putBytes_get_before (by omega) hj
  · exact putBytes_get_after (by omega) (by omega)

/-- Settles O27: both orders put the same bytes into disjoint ranges. -/
theorem disjointWritesCommute : Obligations.DisjointWritesCommute := by
  intro d e B B₁ B₁₂ o q v w tr tr' hdisjoint hd he
  obtain ⟨t, ht, hdr, rfl, hd'⟩ := writeField_ok hd
  have hlen : (putBytes B o t).length = B.length := putBytes_length (by omega)
  obtain ⟨u, hu, her, rfl, he'⟩ := writeField_ok he
  rw [hlen] at her
  refine ⟨putBytes B q u, he' B q her, ?_⟩
  rw [putBytes_comm (by omega) (by omega) (by omega)]
  exact hd' _ o (by rw [putBytes_length (by omega)]; exact hdr)

/-- Settles O28: the packer's field step and the parser's are the meanings of the selected operations. -/
theorem packerWritesAreTheOperations : Obligations.PackerWritesAreTheOperations := by
  refine ⟨fun d B o v i s hi => ?_, fun d B o i s hi hr => ?_⟩
  · obtain ⟨_, _, _, hwrite⟩ := fcWrite_some hi
    exact hwrite s
  · obtain ⟨_, _, _, hread⟩ := fcRead_some hi
    rw [hread, readField_inside hr, answer]

/-- Settles O30: the label of a write says whether the value lies in its field's range. -/
theorem valueRangeLabelsMarkValuesThatDoNotFit : Obligations.ValueRangeLabelsMarkValuesThatDoNotFit := by
  intro d B o v i s t hi ht
  obtain ⟨hfit, _, _, hwrite⟩ := fcWrite_some hi
  obtain ⟨B', tr, hok, rfl⟩ := answer_next ((hwrite s).symm.trans ht)
  obtain ⟨u, hu, hr, _, _⟩ := writeField_ok hok
  rw [writeField_eq_written hfit hr] at hok
  cases hok
  obtain ⟨hin, hout⟩ := valueLabel_eq d v
  exact ⟨fun h => by simp [hin h], fun h => by simp [hout h]⟩

/-- Settles O31: with a value of the right shape, a field operation is refused only for the field's range. -/
theorem fieldsOutsideTheBufferAreRefused : Obligations.FieldsOutsideTheBufferAreRefused := by
  refine ⟨fun d B o v i s hi hr => ?_, fun d B o i s hi hr => ?_⟩
  · obtain ⟨hfit, _, _, hwrite⟩ := fcWrite_some hi
    rw [hwrite, writeField_outside hfit hr, answer]
  · obtain ⟨_, _, _, hread⟩ := fcRead_some hi
    rw [hread, readField_outside hr, answer]

end Sys2Proof.Machine
end

section
/-! PROOFS. The field codec's signed and text operations, the two halves of a 64-bit write, and array lengths of 0
(41_field_codec_write.md, 42_field_codec_read.md). -/

namespace Sys2Proof.Machine

open Claims

/-- Settles O20: the scalar writes of the four signed kinds. -/
theorem signedScalarWritesAreLittleEndian : Obligations.SignedScalarWritesAreLittleEndian := by
  refine ⟨fun B o v s hr => ?_, fun B o v s hr => ?_, fun B o v s hr => ?_, fun B o v s hr => ?_⟩
  · exact scalarWrite_completes (k := .i8) (x := .int v) s rfl hr
  · exact scalarWrite_completes (k := .i16) (x := .int v) s rfl hr
  · exact scalarWrite_completes (k := .i32) (x := .int v) s rfl hr
  · exact scalarWrite_completes (k := .i64) (x := .int v) s rfl hr

/-- Settles O24: the array writes of the four signed kinds. -/
theorem signedArrayWritesStoreTheFirstElements : Obligations.SignedArrayWritesStoreTheFirstElements := by
  refine ⟨fun B o n vs s hn hr => ?_, fun B o n vs s hn hr => ?_, fun B o n vs s hn hr => ?_, fun B o n vs s hn hr => ?_⟩
  · exact arrayWrite_completes (k := .i8) s (map_intsOf_map_int _ vs) hn hr
  · exact arrayWrite_completes (k := .i16) s (map_intsOf_map_int _ vs) hn hr
  · exact arrayWrite_completes (k := .i32) s (map_intsOf_map_int _ vs) hn hr
  · exact arrayWrite_completes (k := .i64) s (map_intsOf_map_int _ vs) hn hr

/-- Settles O34: the scalar reads of the four signed kinds. -/
theorem signedScalarReadsAreTwosComplement : Obligations.SignedScalarReadsAreTwosComplement := by
  refine ⟨fun B o s hr => ?_, fun B o s hr => ?_, fun B o s hr => ?_, fun B o s hr => ?_⟩
  · exact scalarRead_completes (k := .i8) rfl rfl hr
  · exact scalarRead_completes (k := .i16) rfl rfl hr
  · exact scalarRead_completes (k := .i32) rfl rfl hr
  · exact scalarRead_completes (k := .i64) rfl rfl hr

/-- Settles O38: the array reads of the four signed kinds. -/
theorem signedArrayReadsHaveEveryElement : Obligations.SignedArrayReadsHaveEveryElement := by
  refine ⟨fun B o n s hn hr => ?_, fun B o n s hn hr => ?_, fun B o n s hn hr => ?_, fun B o n s hn hr => ?_⟩
  · exact arrayRead_completes (k := .i8) rfl rfl hn hr
  · exact arrayRead_completes (k := .i16) rfl rfl hn hr
  · exact arrayRead_completes (k := .i32) rfl rfl hn hr
  · exact arrayRead_completes (k := .i64) rfl rfl hn hr

/-! ### Text fields (R152, R182) -/

theorem exec_fcWrTEXT (B : Bytes) (o N : Nat) (t : Bytes) (s : State) :
    exec (.fcWrTEXT B o N t) s = answer .buffer s (writeText B o N t) := rfl

theorem exec_fcRdTEXT (B : Bytes) (o N : Nat) (s : State) :
    exec (.fcRdTEXT B o N) s = answer .value s (readText B o N) := rfl

/-- Settles O22: the text write puts its first bytes at the offset and nothing behind them. -/
theorem textWriteStoresTheFirstBytes : Obligations.TextWriteStoresTheFirstBytes := by
  intro B o N t s hN hr
  have hwrite : writeText B o N t = .ok (written B o (t.take N), textLabel N t) :=
    writeText_ok.mpr ⟨hN, hr, rfl, rfl⟩
  exact ⟨rfl, _, by rw [exec_fcWrTEXT, hwrite, answer]⟩

/-- Settles O36: the text returned is the field without its trailing zeros. -/
theorem textReadStripsTrailingZeros : Obligations.TextReadStripsTrailingZeros := by
  intro B o N s hN hr
  obtain ⟨k, hsplit, hlast⟩ := stripZeros_spec ((B.drop o).take N)
  have hread : readText B o N = .ok (.text (stripZeros ((B.drop o).take N)), []) := by
    rw [← slice_eq_take_drop]
    exact readText_ok.mpr ⟨hN, hr, rfl, rfl⟩
  exact ⟨_, k, ⟨rfl, [], by rw [exec_fcRdTEXT, hread, answer]⟩, hsplit, hlast⟩

/-! ### The halves of a 64-bit number (20_memory.md R54) -/

/-- The bytes of an integer are those of its low part and then those of what stands above. -/
theorem intBytes_add (a b : Nat) (v : Int) : intBytes (a + b) v = intBytes a v ++ intBytes b (v / 256 ^ a) := by
  have hdiv (j : Nat) : v / 256 ^ (a + j) = v / 256 ^ a / 256 ^ j := by
    rw [pow_add, Int.ediv_ediv_of_nonneg (by positivity)]
  simp [intBytes, List.range_add, hdiv, Function.comp_def]

/-- What a completed scalar write returned. -/
theorem buffer_eq_of_completes {op : Byte} {i : Instr} {s : State} {B₁ B₂ : Bytes} {tr : List Anomaly}
    (h : Completes op i s (.buffer B₁)) (hexec : exec i s = .next (s.answer (.buffer B₂) tr)) : B₂ = B₁ := by
  obtain ⟨_, tr', hnext⟩ := h
  have hsame : s.answer (.buffer B₁) tr' = s.answer (.buffer B₂) tr := by
    rw [hnext] at hexec
    injection hexec
  simpa using (congrArg State.results hsame).symm

/-- Settles O29: the two 32-bit writes touch, so they are one write of eight bytes. -/
theorem sixtyFourBitWriteIsTwoHalves : Obligations.SixtyFourBitWriteIsTwoHalves := by
  intro B B₁ B₂ o v s tr tr' hr hlow hhigh
  have hr₁ : o + 4 ≤ B.length := by omega
  obtain rfl := buffer_eq_of_completes
    (scalarWrite_completes (k := .u32) (x := .int v) (i := .fcWrU32 B o v) s rfl hr₁) hlow
  have hr₂ : o + 4 + 4 ≤ (written B o (intBytes 4 v)).length := by
    rw [written_length (by simpa using hr₁)]
    exact hr
  obtain rfl := buffer_eq_of_completes
    (scalarWrite_completes (k := .u32) (x := .int (v / 2 ^ 32)) s rfl hr₂) hhigh
  have hhalves : written (written B o (intBytes 4 v)) (o + 4) (intBytes 4 (v / 2 ^ 32)) = written B o (intBytes 8 v) := by
    have htouch := putBytes_putBytes (B := B) (o := o) (t := intBytes 4 v) (u := intBytes 4 (v / 2 ^ 32)) (by simpa using hr)
    rw [intBytes_length] at htouch
    rw [intBytes_add 4 4 v]
    exact htouch
  refine ⟨?_, ?_⟩
  · exact hhalves ▸ scalarWrite_completes (k := .u64) (x := .int v) s rfl hr
  · exact hhalves ▸ scalarWrite_completes (k := .i64) (x := .int v) s rfl hr

/-! ### Array lengths of 0 (log 10) -/

/-- An array write over no elements is refused, whatever its values. -/
theorem arrayWrite_zero {α : Type} {f : α → Scalar} {k : Kind} {B : Bytes} {o : Nat} {vs : List α} {i : Instr} (s : State)
    (h : arrayWriteInstr k B o 0 (vs.map f) = some i) : exec i s = .refused .arrayLengthZero := by
  obtain ⟨_, hxs, hexec⟩ := arrayWriteInstr_some h
  obtain ⟨ps, hps⟩ := exists_patterns_of_scalarOf hxs
  simp [hexec, writeArray, hps, answer]

/-- Settles O32: the array length is looked at before the field's range. -/
theorem zeroArrayLengthIsRefused : Obligations.ZeroArrayLengthIsRefused := by
  intro B o t vs ps qs s
  refine ⟨rfl, rfl, ?_, ?_, ?_, ?_, ?_, ?_, ?_, ?_, ?_, ?_, rfl, rfl, rfl, rfl, rfl, rfl, rfl, rfl, rfl, rfl⟩
  · exact arrayWrite_zero (k := .u8) s (map_intsOf_map_int _ vs)
  · exact arrayWrite_zero (k := .i8) s (map_intsOf_map_int _ vs)
  · exact arrayWrite_zero (k := .u16) s (map_intsOf_map_int _ vs)
  · exact arrayWrite_zero (k := .i16) s (map_intsOf_map_int _ vs)
  · exact arrayWrite_zero (k := .u32) s (map_intsOf_map_int _ vs)
  · exact arrayWrite_zero (k := .i32) s (map_intsOf_map_int _ vs)
  · exact arrayWrite_zero (k := .u64) s (map_intsOf_map_int _ vs)
  · exact arrayWrite_zero (k := .i64) s (map_intsOf_map_int _ vs)
  · exact arrayWrite_zero (k := .f32) s (map_b32sOf_map_b32 _ ps)
  · exact arrayWrite_zero (k := .f64) s (map_b64sOf_map_b64 _ qs)

end Sys2Proof.Machine
end

section
/-! PROOFS. The parser (44_parser.md): the passes of a known candidate, the invariant of a scan, chunking, garbage and
latches. -/

namespace Sys2Proof.Machine

open Claims

/-! ### A known candidate (R238) and the labels of a pass (60_exceptions.md R291 to R295) -/

/-- The message a candidate decodes to, with its fields read from the payload cut or extended to the entry's length. -/
theorem decodeMessage_values (e : Entry) {p : Parser} (h : 10 + p.len.toNat ≤ p.buf.length) :
    (decodeMessage e p).values = readFields e.descs
      (((p.buf.drop 10).take p.len.toNat).take e.maxlen ++ zeros (e.maxlen - p.len.toNat)) := by
  have hlen : (slice p.buf 10 (10 + p.len.toNat)).length = p.len.toNat := by
    rw [slice_length h, Nat.add_sub_cancel_left]
  show decodeFields _ _ 0 = _
  rw [decodeFields_eq_readFields, List.drop_zero, payloadImage, hlen, slice_eq_take_drop]

/-- Settles O49: an ill-formed entry refuses; a matching candidate is decoded as its rule writes it out. -/
theorem matchingCandidateIsDecodedAndEmitted : Obligations.MatchingCandidateIsDecodedAndEmitted := by
  intro cat p e hst hlen he
  refine ⟨scanPass_illFormed hst hlen he, fun hwf hcrc => ⟨[], ?_⟩⟩
  rw [← receivedCrc_eq_leSum] at hcrc
  rw [scanPass_emit hst hlen he hwf hcrc, ← decodeMessage_values e (by omega)]
  rfl

/-- The label of a candidate's judgement: the id is asked before the checksum (60_exceptions.md R294, R295). -/
theorem scanPass_checksum_go_labels {cat : Catalog} {p q : Parser} {out : List Msg} {tr : List Anomaly}
    (hst : p.st = .checksum) (h : scanPass cat p = .go q out tr) :
    tr = if cat.lookup p.msgid = none then [.unknownId] else if out = [] then [.crcMismatch] else [] := by
  rcases Nat.lt_or_ge p.buf.length (12 + p.len.toNat) with hl | hl
  · rw [scanPass_checksum_stop hst hl] at h
    cases h
  cases he : cat.lookup p.msgid with
  | none =>
    rw [scanPass_unknownId hst hl he] at h
    cases h
    rfl
  | some e =>
    cases hwf : e.wf with
    | false =>
      rw [scanPass_illFormed hst hl he hwf] at h
      cases h
    | true =>
      by_cases hcrc : (candidateCrc e.seed p).toNat = receivedCrc p
      · rw [scanPass_emit hst hl he hwf hcrc] at h
        cases h
        rfl
      · rw [scanPass_crcMismatch hst hl he hwf hcrc] at h
        cases h
        rfl

/-- Settles O50, by the state a pass starts in. -/
theorem anomalyLabelsOfEachPass : Obligations.AnomalyLabelsOfEachPass := by
  refine ⟨fun cat p q out tr h => ?_, fun cat p q tr h => ?_, rfl⟩
  · refine ⟨fun hst => ?_, fun hst => ?_, fun hst => scanPass_checksum_go_labels hst h⟩
    · cases hB : fromMagic p.buf with
      | nil =>
        rw [scanPass_magic_stop hst hB] at h
        cases h
      | cons b bs =>
        rw [scanPass_magic_go hst hB] at h
        cases h
        rfl
    · rcases scanPass_go h with ⟨hst', _⟩ | ⟨hst', hl, _⟩ | ⟨hst', hl, _⟩ | ⟨hst', _⟩ | ⟨hst', _⟩
      · simp [hst'] at hst
      · rw [scanPass_header_go hst' hl] at h
        cases h
        rfl
      · rw [scanPass_payload_go hst' hl] at h
        cases h
        rfl
      · simp [hst'] at hst
      · simp [hst'] at hst
  · rcases scanPass_stop h with ⟨hst, hB, _⟩ | ⟨_, hwait⟩
    · rw [scanPass_magic_stop hst hB] at h
      cases h
      exact ⟨fun _ => rfl, fun hne => absurd hst hne⟩
    · rcases hwait with ⟨hst, hl⟩ | ⟨hst, hl⟩ | ⟨hst, hl⟩
      · rw [scanPass_header_stop hst hl] at h
        cases h
        simp [hst]
      · rw [scanPass_payload_stop hst hl] at h
        cases h
        simp [hst]
      · rw [scanPass_checksum_stop hst hl] at h
        cases h
        simp [hst]

/-! ### Chunks (R242) -/

section
variable {cat : Catalog} {p q : Parser} {r : Refusal} {out : List Msg} {tr : List Anomaly}

/-- What a refused pass looks at stands at the front of the buffer: more bytes behind do not save it. -/
theorem scanPass_refuse_append (B : Bytes) (h : scanPass cat p = .refuse r) :
    scanPass cat (appendChunk p B) = .refuse r := by
  obtain ⟨hst, hl, rfl, e, he, hwf⟩ := scanPass_refuse h
  exact scanPass_illFormed (p := appendChunk p B) hst (by simp; omega) he hwf

/-- The state and the messages of a scan, without its labels. -/
def emitted (x : Except Refusal (Parser × List Msg × List Anomaly)) : Except Refusal (Parser × List Msg) :=
  x.map fun r => (r.1, r.2.1)

theorem emitted_scan_go (h : scanPass cat p = .go q out tr) :
    emitted (scan cat p) = (emitted (scan cat q)).map fun r => (r.1, out ++ r.2) := by
  rw [scan_go h]
  cases scan cat q <;> rfl

/-- Every scan that ends well is a run of passes. -/
theorem scanRun_of_scan (h : scan cat p = .ok (q, out, tr)) : ScanRun cat p q out tr := by
  induction p using scan_induction cat generalizing q out tr with
  | stop p q' tr' hpass =>
    rw [scan_stop hpass] at h
    cases h
    exact .stop hpass
  | refuse p r hpass =>
    rw [scan_refuse hpass] at h
    cases h
  | go p q' out' tr' hpass ih =>
    rw [scan_go hpass] at h
    cases hscan : scan cat q' with
    | error r =>
      rw [hscan] at h
      cases h
    | ok r =>
      rw [hscan] at h
      cases h
      exact .go hpass (ih hscan)

/-- A scan with more bytes behind goes on from where the scan without them ended (R242). -/
theorem emitted_scan_appendChunk (cat : Catalog) (p : Parser) (B : Bytes) :
    emitted (scan cat (appendChunk p B)) =
      (scan cat p).bind fun r => (emitted (scan cat (appendChunk r.1 B))).map fun r' => (r'.1, r.2.1 ++ r'.2) := by
  induction p using scan_induction cat with
  | stop p q tr h =>
    rw [scan_stop h, emitted, scan_appendChunk_of_stop B h]
    cases hs : scan cat (appendChunk q B) <;> simp [hs, emitted, Except.bind, Except.map]
  | refuse p r h =>
    rw [scan_refuse h, scan_refuse (scanPass_refuse_append B h)]
    rfl
  | go p q out tr h ih =>
    rw [emitted_scan_go (scanPass_go_append B h), ih, scan_go h]
    cases scan cat q with
    | error r => rfl
    | ok r => cases hs : scan cat (appendChunk r.1 B) <;> simp [hs, emitted, Except.bind, Except.map]

end

theorem appendChunk_append (p : Parser) (A B : Bytes) : appendChunk p (A ++ B) = appendChunk (appendChunk p A) B := by
  simp [appendChunk]

theorem appendChunk_nil (p : Parser) : appendChunk p [] = p := by simp [appendChunk]

/-- Feeding two chunks joined is feeding the one and then the other. -/
theorem emitted_feed_append (cat : Catalog) (p : Parser) (A B : Bytes) :
    emitted (feed cat p (A ++ B)) =
      (feed cat p A).bind fun r => (emitted (feed cat r.1 B)).map fun r' => (r'.1, r.2.1 ++ r'.2) := by
  rw [feed_eq_scan, appendChunk_append, emitted_scan_appendChunk]
  rfl

/-- Feeding no bytes to a quiescent parser does nothing. -/
theorem emitted_feed_nil {cat : Catalog} {p : Parser} (h : Quiescent cat p) : emitted (feed cat p []) = .ok (p, []) := by
  obtain ⟨tr, hstop⟩ := h
  rw [feed_eq_scan, appendChunk_nil, scan_stop hstop]
  rfl

/-- Settles O53, by induction along the chunks: the parser is quiescent again after each, and the passes of a chunk are
the first passes of the whole. -/
theorem chunkingDoesNotMatter : Obligations.ChunkingDoesNotMatter := by
  intro cat p hq chunks
  show feedAll cat p chunks = emitted (feed cat p chunks.flatten)
  induction chunks generalizing p with
  | nil => rw [List.flatten_nil, emitted_feed_nil hq, feedAll]
  | cons c cs ih =>
    rw [List.flatten_cons, emitted_feed_append, feedAll]
    cases hfeed : feed cat p c with
    | error r => rfl
    | ok r =>
      obtain ⟨q, out, tr⟩ := r
      have hrest := ih q (quiescent_of_scanRun (scanRun_of_scan hfeed))
      show _ = (emitted (feed cat q cs.flatten)).map _
      rw [← hrest]
      cases hall : feedAll cat q cs <;> simp [hall, Except.map]

/-- Settles O54: one byte is a chunk, and single bytes are one way of cutting a chunk. -/
theorem pushingEveryByteIsFeedingTheChunk : Obligations.PushingEveryByteIsFeedingTheChunk := by
  refine ⟨fun b s => (exec_psPUSH b s).trans (exec_psFEED [b] s).symm, fun cat p chunk hq => ?_⟩
  have hjoin : (chunk.map fun b => [b]).flatten = chunk := by simp [← List.flatMap_def]
  rw [chunkingDoesNotMatter cat p hq, hjoin]

/-- Settles O57: the garbage is a chunk of its own, after which the parser is as it was. -/
theorem garbageBeforeAStreamIsForgotten : Obligations.GarbageBeforeAStreamIsForgotten := by
  intro cat p garbage S hst hbuf hgarbage
  have hstop : ∃ tr, feed cat p garbage = .ok (p, [], tr) := by
    have hB : fromMagic (appendChunk p garbage).buf = [] := by
      rw [appendChunk_buf, hbuf]
      exact fromMagic_eq_nil_iff.mpr hgarbage
    have hsame : ({ appendChunk p garbage with buf := [] } : Parser) = p := by
      rw [← hbuf]
      rfl
    exact ⟨_, by rw [feed_eq_scan, scan_stop (scanPass_magic_stop (p := appendChunk p garbage) hst hB), hsame]⟩
  refine ⟨hstop, ?_⟩
  obtain ⟨tr, hfeed⟩ := hstop
  show emitted (feed cat p (garbage ++ S)) = emitted (feed cat p S)
  rw [emitted_feed_append, hfeed]
  cases h : feed cat p S <;> simp [h, emitted, Except.bind, Except.map]

/-! ### The latches (R26, R27, D19) -/

/-- A scan without its latches: the scan state, the buffer, the messages and the labels. -/
def unlatched (x : Except Refusal (Parser × List Msg × List Anomaly)) :
    Except Refusal (ScanState × Bytes × List Msg × List Anomaly) := x.map fun r => (r.1.st, r.1.buf, r.2)

theorem unlatched_scan_go {cat : Catalog} {p q : Parser} {out : List Msg} {tr : List Anomaly}
    (h : scanPass cat p = .go q out tr) :
    unlatched (scan cat p) = (unlatched (scan cat q)).map fun r => (r.1, r.2.1, out ++ r.2.2.1, tr ++ r.2.2.2) := by
  rw [scan_go h]
  cases scan cat q <;> rfl

/-- In HEADER the latches are written before anything reads them. -/
theorem unlatched_scan_header (cat : Catalog) {p : Parser} (l : BitVec 8) (id : BitVec 24) (hst : p.st = .header) :
    unlatched (scan cat p) = unlatched (scan cat { p with len := l, msgid := id }) := by
  rcases Nat.lt_or_ge p.buf.length 10 with hl | hl
  · rw [scan_stop (scanPass_header_stop hst hl),
      scan_stop (scanPass_header_stop (p := { p with len := l, msgid := id }) hst hl)]
    rfl
  · rw [scan_go (scanPass_header_go hst hl),
      scan_go (scanPass_header_go (p := { p with len := l, msgid := id }) hst hl)]

/-- From MAGIC a scan stops or comes to HEADER. -/
theorem unlatched_scan_magic (cat : Catalog) {p : Parser} (l : BitVec 8) (id : BitVec 24) (hst : p.st = .magic) :
    unlatched (scan cat p) = unlatched (scan cat { p with len := l, msgid := id }) := by
  cases hB : fromMagic p.buf with
  | nil =>
    rw [scan_stop (scanPass_magic_stop hst hB),
      scan_stop (scanPass_magic_stop (p := { p with len := l, msgid := id }) hst hB)]
    rfl
  | cons b bs =>
    rw [unlatched_scan_go (scanPass_magic_go hst hB),
      unlatched_scan_go (scanPass_magic_go (p := { p with len := l, msgid := id }) hst hB),
      unlatched_scan_header cat l id rfl]

/-- Settles O56, by the state the scan starts in. -/
theorem latchesAreNeverReadBeforeWritten : Obligations.LatchesAreNeverReadBeforeWritten := by
  intro cat p l id chunk hst
  rcases hst with hst | hst
  · exact unlatched_scan_magic cat (p := appendChunk p chunk) l id hst
  · exact unlatched_scan_header cat (p := appendChunk p chunk) l id hst

/-- Settles O58: the code of each of the four scan states. -/
theorem stateReadReturnsTheScanState : Obligations.StateReadReturnsTheScanState := by
  intro s
  have hexec : exec .psSTATE s = .next (s.answer (.scanCode s.ps.st.code) []) := rfl
  refine ⟨rfl, fun hst => ?_, fun hst => ?_, fun hst => ?_, fun hst => ?_⟩ <;> rw [hexec, hst] <;> rfl

end Sys2Proof.Machine
end

section
/-! PROOFS. What any operation can do to a state (20_memory.md section 4), several states side by side (R61), and the catalog
(45_catalog_and_facade.md section 1). -/

namespace Sys2Proof.Machine

open Claims

/-! ### The two forms of an operation -/

/-- The operation computes a result and labels from the parser's tuple, the catalog and its operands, or refuses, and
does nothing else. -/
def OnlyAnswers (i : Instr) : Prop :=
  ∃ f : Parser → Catalog → Except Refusal (Result × List Anomaly), ∀ s, exec i s = answer id s (f s.ps s.cat)

/-- The operation feeds the parser a chunk. -/
def Feeds (i : Instr) (chunk : Bytes) : Prop :=
  (i = .psFEED chunk ∨ ∃ b, i = .psPUSH b ∧ chunk = [b]) ∧ ∀ s, exec i s = feedState chunk s

theorem onlyAnswers_of_answer {α : Type} {i : Instr} (f : α → Result)
    (g : Parser → Catalog → Except Refusal (α × List Anomaly)) (h : ∀ s, exec i s = answer f s (g s.ps s.cat)) :
    OnlyAnswers i := by
  refine ⟨fun p cat => (g p cat).map fun r => (f r.1, r.2), fun s => ?_⟩
  rw [h]
  show answer f s (g s.ps s.cat) = answer id s ((g s.ps s.cat).map _)
  cases g s.ps s.cat <;> rfl

theorem onlyAnswers_of_next {i : Instr} (f : Parser → Catalog → Result)
    (h : ∀ s, exec i s = .next (s.answer (f s.ps s.cat) [])) : OnlyAnswers i :=
  ⟨fun p cat => .ok (f p cat, []), h⟩

/-- Every operation but PS.FEED and PS.PUSH only answers, and those two only feed (10_state.md R20). -/
theorem onlyAnswers_or_feeds (i : Instr) : OnlyAnswers i ∨ ∃ chunk, Feeds i chunk := by
  cases i
  case psFEED chunk => exact .inr ⟨chunk, .inl rfl, exec_psFEED chunk⟩
  case psPUSH b => exact .inr ⟨[b], .inr ⟨b, rfl, rfl⟩, exec_psPUSH b⟩
  case psSTATE => exact .inl (onlyAnswers_of_next (fun p _ => .scanCode p.st.code) fun _ => rfl)
  case catLOOKUP id => exact .inl (onlyAnswers_of_next (fun _ cat => .entry (cat.lookup id)) fun _ => rfl)
  case pkPACK m => exact .inl (onlyAnswers_of_answer .frames (fun _ cat => pack cat m) fun _ => rfl)
  case pkBATCH ms => exact .inl (onlyAnswers_of_answer .frames (fun _ cat => packBatch cat ms) fun _ => rfl)
  case crcINIT | crcACC | crcBLOCK | crcFRAME => exact .inl (onlyAnswers_of_next (fun _ _ => .crc _) fun _ => rfl)
  case fcRdU8 | fcRdI8 | fcRdU16 | fcRdI16 | fcRdU32 | fcRdI32 | fcRdU64 | fcRdI64 | fcRdF32 | fcRdF64 | fcRdTEXT |
      fcRdaU8 | fcRdaI8 | fcRdaU16 | fcRdaI16 | fcRdaU32 | fcRdaI32 | fcRdaU64 | fcRdaI64 | fcRdaF32 | fcRdaF64 =>
    exact .inl (onlyAnswers_of_answer .value (fun _ _ => _) fun _ => rfl)
  all_goals exact .inl (onlyAnswers_of_answer .buffer (fun _ _ => _) fun _ => rfl)

theorem feedState_next {chunk : Bytes} {s t : State} (h : feedState chunk s = .next t) :
    withinCapacity s chunk = true ∧ ∃ p out tr, feed s.cat s.ps chunk = .ok (p, out, tr) ∧
      t = State.answer { s with ps := p } (.messages out) tr := by
  unfold feedState at h
  split at h
  · rename_i hcap
    cases hfeed : feed s.cat s.ps chunk with
    | error r => simp [hfeed] at h
    | ok r =>
      obtain ⟨p, out, tr⟩ := r
      simp only [hfeed, Host.Outcome.next.injEq] at h
      exact ⟨hcap, p, out, tr, rfl, h.symm⟩
  · cases h

/-- The frame of an operation (20_memory.md R57): a next state is the old one with another parser at most, one more
result and more labels; the parser changes by a feed only. -/
theorem exec_next {i : Instr} {s t : State} (h : exec i s = .next t) :
    ∃ p r tr, t = State.answer { s with ps := p } r tr ∧
      (p = s.ps ∨ ∃ chunk, Feeds i chunk ∧ ∃ out, feed s.cat s.ps chunk = .ok (p, out, tr)) := by
  rcases onlyAnswers_or_feeds i with ⟨f, hf⟩ | ⟨chunk, hfeeds⟩
  · obtain ⟨r, tr, _, rfl⟩ := answer_next ((hf s).symm.trans h)
    exact ⟨s.ps, r, tr, rfl, .inl rfl⟩
  · obtain ⟨_, p, out, tr, hfeed, rfl⟩ := feedState_next ((hfeeds.2 s).symm.trans h)
    exact ⟨p, _, tr, rfl, .inr ⟨chunk, hfeeds, out, hfeed⟩⟩

theorem exec_cat {i : Instr} {s t : State} (h : exec i s = .next t) : t.cat = s.cat := by
  obtain ⟨p, r, tr, rfl, _⟩ := exec_next h
  rfl

/-- Settles O12, from the two forms of an operation. -/
theorem operationsLeaveTheRestAlone : Obligations.OperationsLeaveTheRestAlone := by
  intro i s t h
  obtain ⟨p, r, tr, rfl, hps⟩ := exec_next h
  refine ⟨rfl, rfl, rfl, ⟨r, rfl⟩, ⟨tr, rfl⟩, fun hfeed hpush => ?_⟩
  rcases hps with hps | ⟨chunk, ⟨rfl | ⟨b, rfl, _⟩, _⟩, _⟩
  · exact hps
  · exact absurd rfl (hfeed chunk)
  · exact absurd rfl (hpush b)

/-- Settles O13: neither form of an operation reads the results or the trace. -/
theorem resultsAndTraceAreNeverRead : Obligations.ResultsAndTraceAreNeverRead := by
  intro i s t rs trc h
  rcases onlyAnswers_or_feeds i with ⟨f, hf⟩ | ⟨chunk, _, hexec⟩
  · obtain ⟨r, tr, hok, rfl⟩ := answer_next ((hf s).symm.trans h)
    refine ⟨r, tr, rfl, rfl, ?_⟩
    rw [hf]
    show answer id _ (f s.ps s.cat) = _
    rw [hok]
    rfl
  · obtain ⟨hcap, p, out, tr, hfeed, rfl⟩ := feedState_next ((hexec s).symm.trans h)
    refine ⟨_, tr, rfl, rfl, ?_⟩
    have hcap' : withinCapacity { s with results := rs, trace := trc } chunk = true := hcap
    rw [hexec, feedState, if_pos hcap']
    show (match feed s.cat s.ps chunk with | .error r => _ | .ok (p, out, tr) => _) = _
    rw [hfeed]
    rfl

/-! ### Steps -/

theorem step_eq_exec {s : State} {i : Instr} {rest : Bytes} (h : decode s.port = .ok (i, rest)) :
    step s = exec i { s with port := rest } := by
  cases hp : s.port with
  | nil =>
    rw [hp] at h
    cases h
  | cons op bs =>
    rw [hp] at h
    simp only [step, hp, h]

theorem step_nil {s : State} (h : s.port = []) : step s = .next s := by simp only [step, h]

theorem step_error {s : State} {op : Byte} {bs : Bytes} {e : DecodeError} (hp : s.port = op :: bs)
    (h : decode s.port = .error e) : step s = .refused (refusalOf e) := by
  rw [hp] at h
  simp only [step, hp, h]

/-- What a step that answers a next state did: nothing, or one operation. -/
theorem step_next {s t : State} (h : step s = .next t) :
    t = s ∨ ∃ i rest, decode s.port = .ok (i, rest) ∧ exec i { s with port := rest } = .next t := by
  cases hp : s.port with
  | nil =>
    rw [step_nil hp] at h
    cases h
    exact .inl rfl
  | cons op bs =>
    cases hd : decode s.port with
    | error e =>
      rw [step_error hp hd] at h
      cases h
    | ok r =>
      rw [step_eq_exec hd] at h
      exact .inr ⟨r.1, r.2, by rw [← hp, hd], h⟩

theorem step_cat {s t : State} (h : step s = .next t) : t.cat = s.cat := by
  rcases step_next h with rfl | ⟨i, rest, _, hexec⟩
  · rfl
  · exact exec_cat (s := { s with port := rest }) hexec

/-- Settles O11: the three cases of a step by what the port's bytes decode to. -/
theorem stepRunsTheDecodedOperation : Obligations.StepRunsTheDecodedOperation :=
  ⟨fun _ _ _ => step_eq_exec, fun _ => step_nil, fun _ _ _ hp hd => step_error hp hd⟩

/-! ### Several runs side by side (R61, log 17) -/

theorem runAlone_succ (n : Nat) (o : Outcome) : runAlone (n + 1) o = runAlone n (advance o) := rfl

/-- A schedule runs each entry of the list by the steps it gives that entry, and by no other. -/
theorem runSchedule_get (sched : List Nat) (sys : List Outcome) (k : Nat) :
    (runSchedule sched sys)[k]? = sys[k]?.map (runAlone (sched.count k)) := by
  induction sched generalizing sys with
  | nil => simp [runSchedule, show runAlone 0 = id from rfl]
  | cons j ks ih =>
    rw [runSchedule, ih]
    by_cases hj : j = k
    · subst hj
      rw [stepInstance_self, List.count_cons_self, Option.map_map]
      rfl
    · rw [stepInstance_other hj, List.count_cons_of_ne hj]

theorem core_run_next {n : Nat} {s t : State} (h : step s = .next t) : core.run (n + 1) s = core.run n t := by
  have hstep : core.step s = .next t := h
  simp only [Host.Core.run, hstep]

theorem core_run_refused {n : Nat} {s : State} {r : Refusal} (h : step s = .refused r) :
    core.run (n + 1) s = .refused r := by
  have hstep : core.step s = .refused r := h
  simp only [Host.Core.run, hstep]

/-- A run alone is the machine's run. -/
theorem runAlone_next_eq_run (n : Nat) (s : State) : runAlone n (.next s) = core.run n s := by
  induction n generalizing s with
  | zero => rfl
  | succ n ih =>
    rw [runAlone_succ, advance_next]
    cases hstep : step s with
    | next t => exact (ih t).trans (core_run_next hstep).symm
    | fault f => cases f
    | refused r => exact (runAlone_refused n r).trans (core_run_refused hstep).symm

/-- A run that has not ended holds the catalog it began with (45_catalog_and_facade.md R271). -/
theorem runAlone_cat {n : Nat} {s t : State} (h : runAlone n (.next s) = .next t) : t.cat = s.cat := by
  induction n generalizing s with
  | zero =>
    cases h
    rfl
  | succ n ih =>
    rw [runAlone_succ, advance_next] at h
    cases hstep : step s with
    | next u =>
      rw [hstep] at h
      exact (ih h).trans (step_cat hstep)
    | fault f => cases f
    | refused r =>
      rw [hstep, runAlone_refused] at h
      cases h

/-- Settles O60, by induction along the schedule and along one run. -/
theorem instancesShareNothing : Obligations.InstancesShareNothing := by
  refine ⟨runSchedule_get, runAlone_next_eq_run, fun sched sys k s t hs ht => ?_⟩
  rw [runSchedule_get, hs, Option.map_some, Option.some.injEq] at ht
  exact runAlone_cat ht

/-! ### The catalog (R270, R271) and the state at creation (10_state.md R36) -/

/-- In a list with rising ids an id names one entry. -/
theorem find?_eq_some_iff_mem {cat : Catalog} (h : cat.Pairwise fun a b => a.1 < b.1) (id : Nat) (e : Entry) :
    (cat.find? (·.1 == id)).map (·.2) = some e ↔ (id, e) ∈ cat := by
  induction cat with
  | nil => simp
  | cons a cat ih =>
    obtain ⟨ha, hcat⟩ := List.pairwise_cons.mp h
    by_cases hid : a.1 = id
    · have hnot : (id, e) ∉ cat := fun hmem => absurd (ha _ hmem) (by simp [hid])
      rw [List.find?_cons_of_pos (by simpa using hid), List.mem_cons, or_iff_left hnot, Option.map_some,
        Option.some.injEq, Prod.ext_iff, hid]
      exact ⟨fun he => ⟨rfl, he.symm⟩, fun he => he.2.symm⟩
    · have hne : (id, e) ≠ a := fun he => hid (congrArg Prod.fst he).symm
      rw [List.find?_cons_of_neg (by simpa using hid), ih hcat, List.mem_cons, or_iff_right hne]

/-- The lookup in a catalog in canonical form (log 7). -/
theorem lookup_eq_some_iff {cat : Catalog} (h : cat.wf = true) (id : BitVec 24) (e : Entry) :
    cat.lookup id = some e ↔ (id.toNat, e) ∈ cat := by
  simp only [Catalog.wf, Bool.and_eq_true, decide_eq_true_eq] at h
  exact find?_eq_some_iff_mem h.1 id.toNat e

/-- Settles O59: the lookup answers the first entry listed under the id, and rising ids list no other. -/
theorem catalogLookupReturnsTheEntry : Obligations.CatalogLookupReturnsTheEntry := by
  intro id s
  exact ⟨s.cat.lookup id, rfl, rfl, fun h e => lookup_eq_some_iff h id e⟩

/-- Settles O1: every field as the creation sets it. -/
theorem resetIsAnEmptyParser : Obligations.ResetIsAnEmptyParser := by
  refine ⟨fun cat => ?_, rfl⟩
  simp

/-- Settles O2: a new parser scans for the magic byte with nothing buffered. -/
theorem resetMeetsTheInvariant : Obligations.ResetMeetsTheInvariant := by
  have hcreate (cat : Catalog) (h : cat.wf = true) : (State.create cat).Inv := ⟨rfl, h⟩
  exact ⟨hcreate, hcreate [] rfl⟩

end Sys2Proof.Machine
end

section
/-! PROOFS. The parser's invariant (10_state.md R28): what holds in the middle of a feed, what is left of it between
operations, and the frames that the messages emitted come from (44_parser.md R244). -/

namespace Sys2Proof.Machine

open Claims

/-! ### In the middle of a feed -/

/-- R28 without its bounds on the buffer from above, and without item 1: what holds before and after every pass. -/
def Parser.Scanning (p : Parser) : Prop :=
  match p.st with
  | .magic => True
  | .header => p.buf.head? = some Config.magic
  | .payload => p.buf.head? = some Config.magic ∧ p.latched ∧ 10 ≤ p.buf.length
  | .checksum => p.buf.head? = some Config.magic ∧ p.latched ∧ 10 + p.len.toNat ≤ p.buf.length

section
variable {cat : Catalog} {p q : Parser} {out : List Msg} {tr : List Anomaly}

theorem scanning_magic (hst : p.st = .magic) : p.Scanning := by simp only [Parser.Scanning, hst]

theorem scanning_header (hst : p.st = .header) : p.Scanning ↔ p.buf.head? = some Config.magic := by
  simp only [Parser.Scanning, hst]

theorem scanning_payload (hst : p.st = .payload) :
    p.Scanning ↔ p.buf.head? = some Config.magic ∧ p.latched ∧ 10 ≤ p.buf.length := by
  simp only [Parser.Scanning, hst]

theorem scanning_checksum (hst : p.st = .checksum) :
    p.Scanning ↔ p.buf.head? = some Config.magic ∧ p.latched ∧ 10 + p.len.toNat ≤ p.buf.length := by
  simp only [Parser.Scanning, hst]

theorem inv_magic (hst : p.st = .magic) : p.Inv ↔ p.buf = [] := by simp only [Parser.Inv, hst]

theorem inv_header (hst : p.st = .header) : p.Inv ↔ p.buf.head? = some Config.magic ∧ p.buf.length ≤ 9 := by
  simp only [Parser.Inv, hst]

theorem inv_payload (hst : p.st = .payload) :
    p.Inv ↔ p.buf.head? = some Config.magic ∧ p.latched ∧ 1 ≤ p.len.toNat ∧ 10 ≤ p.buf.length ∧
      p.buf.length < 10 + p.len.toNat := by
  simp only [Parser.Inv, hst]

theorem inv_checksum (hst : p.st = .checksum) :
    p.Inv ↔ p.buf.head? = some Config.magic ∧ p.latched ∧ 10 + p.len.toNat ≤ p.buf.length ∧
      p.buf.length < 12 + p.len.toNat := by
  simp only [Parser.Inv, hst]

/-- Latches read from ten bytes stay right with more bytes behind. -/
theorem latched_appendChunk (B : Bytes) (hlen : 10 ≤ p.buf.length) (h : p.latched) : (appendChunk p B).latched := by
  obtain ⟨hl, hid⟩ := h
  refine ⟨?_, ?_⟩
  · rw [appendChunk_len, appendChunk_buf, getD_append (by omega), hl]
  · rw [appendChunk_msgid, appendChunk_buf, memRead_append (by omega), hid]

theorem head?_append_of_head? {A : Bytes} {b : Byte} (B : Bytes) (h : A.head? = some b) : (A ++ B).head? = some b := by
  rw [List.head?_append, h, Option.some_or]

/-- A feed starts from the invariant with the chunk behind the buffer. -/
theorem scanning_appendChunk (B : Bytes) (h : p.Inv) : (appendChunk p B).Scanning := by
  cases hst : p.st with
  | magic => exact scanning_magic hst
  | header =>
    obtain ⟨hhead, _⟩ := (inv_header hst).mp h
    exact (scanning_header (p := appendChunk p B) hst).mpr (head?_append_of_head? B hhead)
  | payload =>
    obtain ⟨hhead, hlatched, _, hlen, _⟩ := (inv_payload hst).mp h
    exact (scanning_payload (p := appendChunk p B) hst).mpr
      ⟨head?_append_of_head? B hhead, latched_appendChunk B hlen hlatched, by simp; omega⟩
  | checksum =>
    obtain ⟨hhead, hlatched, hlen, _⟩ := (inv_checksum hst).mp h
    exact (scanning_checksum (p := appendChunk p B) hst).mpr
      ⟨head?_append_of_head? B hhead, latched_appendChunk B (by omega) hlatched, by simp; omega⟩

theorem memRead_lt (B : Bytes) (o n : Nat) : memRead B o n < 256 ^ n := by
  have hlen : (slice B o (o + n)).length ≤ n := by
    rw [slice_eq_take_drop]
    exact List.length_take_le _ _
  exact (leNat_lt _).trans_le (Nat.pow_le_pow_right (by decide) hlen)

/-- A pass that goes on keeps what holds in the middle of a feed. -/
theorem scanPass_go_scanning (h : scanPass cat p = .go q out tr) (hp : p.Scanning) : q.Scanning := by
  rcases scanPass_go h with ⟨_, ⟨b, bs, hB⟩, _, rfl⟩ | ⟨hst, hlen, _, rfl⟩ | ⟨hst, hlen, _, rfl⟩ | ⟨_, _, _, rfl⟩ |
    ⟨_, _, _, _, _, _, _, rfl⟩
  · refine (scanning_header rfl).mpr ?_
    show (fromMagic p.buf).head? = _
    rw [hB, fromMagic_head hB, List.head?_cons]
  · have hid : (BitVec.ofNat 24 (memRead p.buf 7 3)).toNat = memRead p.buf 7 3 := by
      rw [BitVec.toNat_ofNat, Nat.mod_eq_of_lt]
      exact memRead_lt p.buf 7 3
    exact (scanning_payload rfl).mpr ⟨(scanning_header hst).mp hp, ⟨rfl, hid⟩, hlen⟩
  · obtain ⟨hhead, hlatched, _⟩ := (scanning_payload hst).mp hp
    exact (scanning_checksum rfl).mpr ⟨hhead, hlatched, hlen⟩
  · exact scanning_magic rfl
  · exact scanning_magic rfl

/-- Where a pass stops, what is missing bounds the buffer. -/
theorem inv_of_stop (h : scanPass cat p = .stop q tr) (hp : p.Scanning) : q.Inv := by
  rcases scanPass_stop h with ⟨hst, _, rfl⟩ | ⟨rfl, ⟨hst, hlen⟩ | ⟨hst, hlen⟩ | ⟨hst, hlen⟩⟩
  · exact (inv_magic (p := { p with buf := [] }) hst).mpr rfl
  · exact (inv_header hst).mpr ⟨(scanning_header hst).mp hp, by omega⟩
  · obtain ⟨hhead, hlatched, hten⟩ := (scanning_payload hst).mp hp
    exact (inv_payload hst).mpr ⟨hhead, hlatched, by omega, hten, hlen⟩
  · obtain ⟨hhead, hlatched, hbody⟩ := (scanning_checksum hst).mp hp
    exact (inv_checksum hst).mpr ⟨hhead, hlatched, hbody, hlen⟩

theorem scanRun_inv (h : ScanRun cat p q out tr) (hp : p.Scanning) : q.Inv := by
  induction h with
  | stop hstop => exact inv_of_stop hstop hp
  | go hgo _ ih => exact ih (scanPass_go_scanning hgo hp)

/-- A feed keeps the invariant of the parser. -/
theorem feed_inv {chunk : Bytes} (h : feed cat p chunk = .ok (q, out, tr)) (hp : p.Inv) : q.Inv :=
  scanRun_inv (scanRun_of_scan h) (scanning_appendChunk chunk hp)

end

/-- Settles O3: the parser changes by a feed only, and the catalog not at all. -/
theorem stepKeepsTheInvariant : Obligations.StepKeepsTheInvariant := by
  intro s t hs hstep
  obtain ⟨hps, hcat⟩ := hs
  rcases step_next hstep with rfl | ⟨i, rest, _, hexec⟩
  · exact ⟨hps, hcat⟩
  · obtain ⟨p, r, tr, rfl, hp⟩ := exec_next hexec
    refine ⟨?_, hcat⟩
    rcases hp with hp | ⟨chunk, _, out, hfeed⟩
    · exact hp ▸ hps
    · exact feed_inv hfeed hps

/-! ### The bound of the buffer (10_state.md R28, item 6) -/

theorem inv_length_le {p : Parser} (h : p.Inv) : p.buf.length ≤ 266 := by
  have hbyte : p.len.toNat < 256 := p.len.isLt
  cases hst : p.st with
  | magic => simp [(inv_magic hst).mp h]
  | header =>
    obtain ⟨_, hlen⟩ := (inv_header hst).mp h
    omega
  | payload =>
    obtain ⟨_, _, _, _, hlen⟩ := (inv_payload hst).mp h
    omega
  | checksum =>
    obtain ⟨_, _, _, hlen⟩ := (inv_checksum hst).mp h
    omega

/-- The longest candidate, with its last byte missing. -/
def fullestParser : Parser := { st := .checksum, buf := 0xFD :: 0xFF :: zeros 264, len := 0xFF, msgid := 0 }

theorem fullestParser_inv : fullestParser.Inv := by
  have hid : memRead fullestParser.buf 7 3 = 0 := by decide
  have hlen : fullestParser.buf.length = 266 := by simp [fullestParser]
  exact (inv_checksum rfl).mpr ⟨rfl, ⟨rfl, hid.symm⟩, by rw [hlen]; decide, by rw [hlen]; decide⟩

/-! ### The refusals of a feed (R240, U4) -/

section
variable {cat : Catalog} {p q : Parser}

/-- A scan is refused at a complete candidate with an ill-formed entry that passes lead to, and nowhere else. -/
theorem scan_refused {r : Refusal} (h : scan cat p = .error r) : r = .entryNotWellFormed ∧ ReachesIllFormed cat p := by
  induction p using scan_induction cat with
  | stop p q tr hpass =>
    rw [scan_stop hpass] at h
    cases h
  | refuse p r' hpass =>
    rw [scan_refuse hpass] at h
    cases h
    exact ⟨(scanPass_refuse hpass).2.2.1, reachesIllFormed_of_refuse hpass⟩
  | go p q out tr hpass ih =>
    rw [scan_go hpass] at h
    cases hscan : scan cat q with
    | ok r' =>
      rw [hscan] at h
      cases h
    | error r' =>
      rw [hscan] at h
      cases h
      obtain ⟨hr, hreach⟩ := ih hscan
      exact ⟨hr, reachesIllFormed_of_go hpass hreach⟩

theorem scan_of_reachesIllFormed (h : ReachesIllFormed cat p) : scan cat p = .error .entryNotWellFormed := by
  obtain ⟨c, e, hreach, hst, hlen, he, hwf⟩ := h
  induction hreach with
  | here p => exact scan_refuse (scanPass_illFormed hst hlen he hwf)
  | go hpass _ ih =>
    rw [scan_go hpass, ih hst hlen he]
    rfl

end

section
variable {i : Instr} {chunk : Bytes} {s : State}

/-- A feed with room answers as its scan does. -/
theorem feedState_of_room (h : HasRoom s chunk) :
    (∃ p out tr, scan s.cat (appendChunk s.ps chunk) = .ok (p, out, tr) ∧
      feedState chunk s = .next (State.answer { s with ps := p } (.messages out) tr)) ∨
    (∃ r, scan s.cat (appendChunk s.ps chunk) = .error r ∧ feedState chunk s = .refused r) := by
  rw [feedState, if_pos (withinCapacity_iff.mpr h), feed_eq_scan]
  cases hscan : scan s.cat (appendChunk s.ps chunk) with
  | error r => exact .inr ⟨r, rfl, rfl⟩
  | ok r => exact .inl ⟨r.1, r.2.1, r.2.2, rfl, rfl⟩

theorem feedState_without_room (h : ¬ HasRoom s chunk) : feedState chunk s = .refused .bufferOverCapacity := by
  rw [feedState, if_neg (mt withinCapacity_iff.mp h)]

/-- The refusals of a feed: over the capacity first, then at the first ill-formed entry, and no other. -/
theorem feedState_refused_iff {r : Refusal} :
    feedState chunk s = .refused r ↔
      (¬ HasRoom s chunk ∧ r = .bufferOverCapacity) ∨
      (HasRoom s chunk ∧ ReachesIllFormed s.cat (appendChunk s.ps chunk) ∧ r = .entryNotWellFormed) := by
  by_cases hroom : HasRoom s chunk
  · rcases feedState_of_room hroom with ⟨p, out, tr, hscan, hfeed⟩ | ⟨r', hscan, hfeed⟩
    · have hreach : ¬ ReachesIllFormed s.cat (appendChunk s.ps chunk) := fun h => by
        rw [scan_of_reachesIllFormed h] at hscan
        cases hscan
      simp [hfeed, hroom, hreach]
    · obtain ⟨rfl, hreach⟩ := scan_refused hscan
      simp [hfeed, hroom, hreach, eq_comm]
  · simp [feedState_without_room hroom, hroom, eq_comm]

/-- The refusals of an operation that is a feed. -/
theorem feed_refusals (hexec : exec i s = feedState chunk s) :
    (¬ HasRoom s chunk ↔ exec i s = .refused .bufferOverCapacity) ∧
    (HasRoom s chunk → (ReachesIllFormed s.cat (appendChunk s.ps chunk) ↔ exec i s = .refused .entryNotWellFormed)) ∧
    (∀ r, exec i s = .refused r → r = .bufferOverCapacity ∨ r = .entryNotWellFormed) := by
  simp only [hexec, feedState_refused_iff]
  refine ⟨by simp, fun hroom => by simp [hroom], ?_⟩
  rintro r (⟨_, hr⟩ | ⟨_, _, hr⟩)
  · exact .inl hr
  · exact .inr hr

end

/-- Settles O52: both feeds are refused by their room and by their scan alone. -/
theorem feedRefusesOverCapacityAndIllFormedEntries : Obligations.FeedRefusesOverCapacityAndIllFormedEntries :=
  ⟨fun chunk s => feed_refusals (exec_psFEED chunk s), fun b s => feed_refusals (exec_psPUSH b s)⟩

/-- Settles O4: the bound, the parser that meets it, and the capacity that it asks for (D13). -/
theorem carryOverBufferIsBounded : Obligations.CarryOverBufferIsBounded := by
  refine ⟨fun p => inv_length_le, ⟨fullestParser, fullestParser_inv, by simp [fullestParser]⟩, ?_⟩
  intro s chunk cap hinv hcap hroom hrefused
  have hbuf := inv_length_le hinv
  have hfits : HasRoom s chunk := fun cap' hcap' => by
    rw [hcap] at hcap'
    cases hcap'
    omega
  rcases feedState_refused_iff.mp hrefused with ⟨hnone, _⟩ | ⟨_, _, hr⟩
  · exact hnone hfits
  · cases hr

/-! ### The frames of the messages emitted (R244) -/

/-- Bytes behind a frame do not change what is read from it. -/
theorem leSum_append {A : Bytes} (B : Bytes) {o n : Nat} (h : o + n ≤ A.length) : leSum (A ++ B) o n = leSum A o n := by
  rw [← memRead_eq_leSum, ← memRead_eq_leSum, memRead_append h]

/-- A candidate that passes all judgements is a valid frame, and decodes to the frame's message. -/
theorem validFrame_of_emit {cat : Catalog} {p : Parser} {e : Entry} {C after : Bytes} (hst : p.st = .checksum)
    (hp : p.Scanning) (hbuf : p.buf = C ++ after) (hlen : C.length = 12 + p.len.toNat)
    (he : cat.lookup p.msgid = some e) (hwf : e.wf = true) (hcrc : (candidateCrc e.seed p).toNat = receivedCrc p) :
    ValidFrame cat C e ∧ decodeMessage e p = messageOf e C := by
  obtain ⟨hhead, ⟨hl, hid⟩, hbody⟩ := (scanning_checksum hst).mp hp
  have hlen1 : p.len = C.getD 1 0 := by rw [hl, hbuf, getD_append (by omega)]
  have hid7 : p.msgid.toNat = leSum C 7 3 := by rw [hid, memRead_eq_leSum, hbuf, leSum_append _ (by omega)]
  have hmsgid : BitVec.ofNat 24 (leSum C 7 3) = p.msgid := by rw [← hid7, BitVec.ofNat_toNat, BitVec.setWidth_eq]
  have hhead' : C.head? = some Config.magic := by
    cases C with
    | nil =>
      rw [List.length_nil] at hlen
      omega
    | cons b bs => simpa [hbuf] using hhead
  have hcrc' : (crcFrame e.seed ((C.take (10 + p.len.toNat)).drop 1)).toNat = leSum C (10 + p.len.toNat) 2 := by
    rw [receivedCrc_eq_leSum, hbuf, leSum_append _ (by omega), candidateCrc, hbuf] at hcrc
    rwa [slice_append (show 10 + p.len.toNat ≤ C.length by omega)] at hcrc
  refine ⟨⟨hhead', by rw [hlen, hlen1], by rw [hmsgid, he], hwf, by rw [← hlen1]; exact hcrc'⟩, ?_⟩
  have hvalues := decodeMessage_values e hbody
  rw [hbuf, List.drop_append_of_le_length (by omega), List.take_append_of_le_length (by simp; omega)] at hvalues
  have hget (k : Nat) (hk : k < 12) : p.buf.getD k 0 = C.getD k 0 := by rw [hbuf, getD_append (by omega)]
  simp only [messageOf, ← hid7, ← hlen1, ← hget 4 (by decide), ← hget 5 (by decide), ← hget 6 (by decide), ← hvalues]
  rfl

/-- A pass that goes on keeps a rear part of the buffer (44_parser.md R243). -/
theorem scanPass_go_suffix {cat : Catalog} {p q : Parser} {out : List Msg} {tr : List Anomaly}
    (h : scanPass cat p = .go q out tr) : q.buf <:+ p.buf := by
  rcases scanPass_go h with ⟨_, _, _, rfl⟩ | ⟨_, _, _, rfl⟩ | ⟨_, _, _, rfl⟩ | ⟨_, _, _, rfl⟩ | ⟨_, _, _, _, _, _, _, rfl⟩
  · exact fromMagic_suffix p.buf
  · exact List.suffix_rfl
  · exact List.suffix_rfl
  · exact List.drop_suffix 1 p.buf
  · exact List.drop_suffix _ p.buf

/-- A message that a pass emits is that of the frame at the front of the buffer. -/
theorem scanPass_go_frame {cat : Catalog} {p q : Parser} {out : List Msg} {tr : List Anomaly}
    (h : scanPass cat p = .go q out tr) (hp : p.Scanning) {m : Msg} (hm : m ∈ out) :
    ∃ C after e, p.buf = C ++ after ∧ ValidFrame cat C e ∧ m = messageOf e C := by
  rcases scanPass_go h with ⟨_, _, rfl, _⟩ | ⟨_, _, rfl, _⟩ | ⟨_, _, rfl, _⟩ | ⟨_, _, rfl, _⟩ |
    ⟨hst, hlen, e, he, hwf, hcrc, rfl, _⟩
  case inr.inr.inr.inr =>
    have hbuf := (List.take_append_drop (12 + p.len.toNat) p.buf).symm
    obtain ⟨hvalid, hmsg⟩ := validFrame_of_emit hst hp hbuf (List.length_take_of_le hlen) he hwf hcrc
    exact ⟨_, _, e, hbuf, hvalid, (List.mem_singleton.mp hm).trans hmsg⟩
  all_goals cases hm

/-- Every message of a run of passes comes from a frame in the buffer it started with. -/
theorem scanRun_frames {cat : Catalog} {p q : Parser} {out : List Msg} {tr : List Anomaly} (h : ScanRun cat p q out tr)
    (hp : p.Scanning) {m : Msg} (hm : m ∈ out) :
    ∃ before C after e, p.buf = before ++ C ++ after ∧ ValidFrame cat C e ∧ m = messageOf e C := by
  induction h with
  | stop _ => cases hm
  | @go p q r out out' tr tr' hgo _ ih =>
    rcases List.mem_append.mp hm with hm | hm
    · obtain ⟨C, after, e, hbuf, hframe⟩ := scanPass_go_frame hgo hp hm
      exact ⟨[], C, after, e, hbuf, hframe⟩
    · obtain ⟨before, C, after, e, hbuf, hframe⟩ := ih (scanPass_go_scanning hgo hp) hm
      obtain ⟨front, hfront⟩ := scanPass_go_suffix hgo
      exact ⟨front ++ before, C, after, e, by rw [← hfront, hbuf]; simp, hframe⟩

/-- Settles O55, by induction along the passes: each keeps a rear part of the buffer, and a pass that emits has a valid
frame at its front. -/
theorem emittedMessagesAreFramesOfTheStream : Obligations.EmittedMessagesAreFramesOfTheStream := by
  intro cat p p' chunk out tr m hinv hfeed hm
  exact scanRun_frames (scanRun_of_scan hfeed) (scanning_appendChunk chunk hinv) hm

end Sys2Proof.Machine
end

section
/-! PROOFS. The decoder (30_encoding.md R86 to R101; the operand layout is the model's own, log 1 and 2): encoded
operations come back, what is decoded is well-formed, and the codes that name no operation. -/

namespace Sys2Proof

open Machine Claims

/-! ### Encoded operations come back -/

theorem decode_encode_of_take {i : Instr} {rest : Bytes} {t : Take Instr} (ht : takeOperands i.op.toNat = some t)
    (h : t (i.operands ++ rest) = some (i, rest)) : decode (encode i ++ rest) = .ok (i, rest) := by
  simp only [encode, List.cons_append, decode, ht, h]

section
variable {α β γ : Type} {a : α} {b : β} {c : γ} {ea : α → Bytes} {eb : β → Bytes} {ec : γ → Bytes} {ta : Take α}
  {tb : Take β} {tc : Take γ} (rest : Bytes)

/-- Two operands, one after the other. -/
theorem take_pair (ha : Agrees ea ta) (hb : tb (eb b ++ rest) = some (b, rest)) (f : α → β → Instr) :
    (takeThen ta fun x => take1 (f x) tb) ((ea a ++ eb b) ++ rest) = some (f a b, rest) := by
  rw [List.append_assoc, takeThen_of_agrees ha, take1, hb]

/-- A buffer, an offset and one more operand. -/
theorem take_field (B : Bytes) (o : Nat) (hc : tc (ec c ++ rest) = some (c, rest)) (f : Bytes → Nat → γ → Instr) :
    (takeThen takeBuffer fun x => takeThen takeNat fun y => take1 (f x y) tc)
      ((encodeBuffer B ++ (encodeNat o ++ ec c)) ++ rest) = some (f B o c, rest) := by
  rw [List.append_assoc, takeThen_of_agrees agrees_buffer, take_pair rest agrees_nat hc]

/-- A buffer, an offset, an array length greater than 0 and the values. -/
theorem take_array (B : Bytes) (o : Nat) {n : Nat} (hn : 0 < n) (hc : Agrees ec tc) (f : Bytes → Nat → Nat → γ → Instr) :
    (takeThen takeBuffer fun x => takeThen takeNat fun y => takeThen takeCount fun z => take1 (f x y z) tc)
      ((encodeBuffer B ++ (encodeNat o ++ (encodeCount n ++ ec c))) ++ rest) = some (f B o n c, rest) := by
  rw [List.append_assoc, takeThen_of_agrees agrees_buffer, List.append_assoc, takeThen_of_agrees agrees_nat,
    List.append_assoc]
  simp only [takeThen, takeCount_encodeCount hn, take1, hc c rest]

end

/-- Settles O5, by cases on the operation: each is one of a few forms of operands. -/
theorem decodeOfEncodeIsTheOperation : Obligations.DecodeOfEncodeIsTheOperation := by
  intro i rest hwf
  cases i
  case fcWrU8 B o v | fcWrI8 B o v | fcWrU16 B o v | fcWrI16 B o v | fcWrU32 B o v | fcWrI32 B o v | fcWrU64 B o v |
      fcWrI64 B o v =>
    exact decode_encode_of_take rfl (take_field rest B o (agrees_int v rest) _)
  case fcWrF32 B o v => exact decode_encode_of_take rfl (take_field rest B o (agrees_bits32 v rest) _)
  case fcWrF64 B o v => exact decode_encode_of_take rfl (take_field rest B o (agrees_bits64 v rest) _)
  case fcWrTEXT B o N t => exact decode_encode_of_take rfl (take_array rest B o (of_decide_eq_true hwf) agrees_bytes _)
  case fcRdU8 B o | fcRdI8 B o | fcRdU16 B o | fcRdI16 B o | fcRdU32 B o | fcRdI32 B o | fcRdU64 B o | fcRdI64 B o |
      fcRdF32 B o | fcRdF64 B o =>
    exact decode_encode_of_take rfl (take_pair rest agrees_buffer (agrees_nat o rest) _)
  case fcWraU8 B o n vs | fcWraI8 B o n vs | fcWraU16 B o n vs | fcWraI16 B o n vs | fcWraU32 B o n vs |
      fcWraI32 B o n vs | fcWraU64 B o n vs | fcWraI64 B o n vs =>
    exact decode_encode_of_take rfl (take_array rest B o (of_decide_eq_true hwf) (agrees_list agrees_int) _)
  case fcWraF32 B o n vs =>
    exact decode_encode_of_take rfl (take_array rest B o (of_decide_eq_true hwf) (agrees_list agrees_bits32) _)
  case fcWraF64 B o n vs =>
    exact decode_encode_of_take rfl (take_array rest B o (of_decide_eq_true hwf) (agrees_list agrees_bits64) _)
  case fcRdTEXT B o n | fcRdaU8 B o n | fcRdaI8 B o n | fcRdaU16 B o n | fcRdaI16 B o n | fcRdaU32 B o n |
      fcRdaI32 B o n | fcRdaU64 B o n | fcRdaI64 B o n | fcRdaF32 B o n | fcRdaF64 B o n =>
    exact decode_encode_of_take rfl (take_field rest B o (takeCount_encodeCount (of_decide_eq_true hwf) rest) _)
  case crcINIT | psSTATE => exact decode_encode_of_take rfl rfl
  case crcACC acc b => exact decode_encode_of_take rfl (take_pair (eb := fun x => [x]) rest agrees_bits16 (agrees_byte b rest) _)
  case crcBLOCK acc B => exact decode_encode_of_take rfl (take_pair rest agrees_bits16 (agrees_bytes B rest) _)
  case crcFRAME seed B => exact decode_encode_of_take rfl (take_pair rest agrees_nat (agrees_bytes B rest) _)
  case pkPACK m => exact decode_encode_of_take rfl (take1_of_agrees agrees_msg _ m rest)
  case pkBATCH ms => exact decode_encode_of_take rfl (take1_of_agrees (agrees_list agrees_msg) _ ms rest)
  case psFEED chunk => exact decode_encode_of_take rfl (take1_of_agrees agrees_bytes _ chunk rest)
  case psPUSH b => exact decode_encode_of_take rfl (take1_of_agrees agrees_byte _ b rest)
  case catLOOKUP id => exact decode_encode_of_take rfl (take1_of_agrees agrees_bits24 _ id rest)

/-! ### What is decoded -/

section
variable {α : Type} {t : Take α} {P : α → Prop} {Q : Instr → Prop}

theorem takesFront_field {f : Bytes → Nat → α → Instr} (h : TakesFront t P) (hf : ∀ B o x, P x → Q (f B o x)) :
    TakesFront (takeThen takeBuffer fun B => takeThen takeNat fun o => take1 (f B o) t) Q :=
  takesFront_takeThen takesFront_buffer fun B _ => takesFront_takeThen takesFront_nat fun o _ =>
    takesFront_take1 h (hf B o)

theorem takesFront_array {f : Bytes → Nat → Nat → α → Instr} (h : TakesFront t Anything)
    (hf : ∀ B o n x, 0 < n → Q (f B o n x)) :
    TakesFront (takeThen takeBuffer fun B => takeThen takeNat fun o => takeThen takeCount fun n => take1 (f B o n) t) Q :=
  takesFront_takeThen takesFront_buffer fun B _ => takesFront_takeThen takesFront_nat fun o _ =>
    takesFront_takeThen takesFront_count fun n hn => takesFront_take1 h fun x _ => hf B o n x hn

end

/-- The operation has the code it was read from and is well-formed. -/
def ReadFrom (op : Byte) (j : Instr) : Prop := j.op = op ∧ WellFormed j

/-- The operand reader of every operation's code takes a front part of the bytes and gives an operation of that code. -/
theorem takesFront_operands (i : Instr) : ∃ t, takeOperands i.op.toNat = some t ∧ TakesFront t (ReadFrom i.op) := by
  cases i
  case fcWrU8 | fcWrI8 | fcWrU16 | fcWrI16 | fcWrU32 | fcWrI32 | fcWrU64 | fcWrI64 =>
    exact ⟨_, rfl, takesFront_field takesFront_int fun _ _ _ _ => ⟨rfl, rfl⟩⟩
  case fcWrF32 => exact ⟨_, rfl, takesFront_field takesFront_bits32 fun _ _ _ _ => ⟨rfl, rfl⟩⟩
  case fcWrF64 => exact ⟨_, rfl, takesFront_field takesFront_bits64 fun _ _ _ _ => ⟨rfl, rfl⟩⟩
  case fcWrTEXT => exact ⟨_, rfl, takesFront_array takesFront_bytes fun _ _ _ _ hn => ⟨rfl, decide_eq_true hn⟩⟩
  case fcRdU8 | fcRdI8 | fcRdU16 | fcRdI16 | fcRdU32 | fcRdI32 | fcRdU64 | fcRdI64 | fcRdF32 | fcRdF64 =>
    exact ⟨_, rfl, takesFront_takeThen takesFront_buffer fun _ _ => takesFront_take1 takesFront_nat fun _ _ => ⟨rfl, rfl⟩⟩
  case fcWraU8 | fcWraI8 | fcWraU16 | fcWraI16 | fcWraU32 | fcWraI32 | fcWraU64 | fcWraI64 =>
    exact ⟨_, rfl, takesFront_array (takesFront_list takesFront_int) fun _ _ _ _ hn => ⟨rfl, decide_eq_true hn⟩⟩
  case fcWraF32 =>
    exact ⟨_, rfl, takesFront_array (takesFront_list takesFront_bits32) fun _ _ _ _ hn => ⟨rfl, decide_eq_true hn⟩⟩
  case fcWraF64 =>
    exact ⟨_, rfl, takesFront_array (takesFront_list takesFront_bits64) fun _ _ _ _ hn => ⟨rfl, decide_eq_true hn⟩⟩
  case fcRdTEXT | fcRdaU8 | fcRdaI8 | fcRdaU16 | fcRdaI16 | fcRdaU32 | fcRdaI32 | fcRdaU64 | fcRdaI64 | fcRdaF32 |
      fcRdaF64 =>
    exact ⟨_, rfl, takesFront_field takesFront_count fun _ _ _ hn => ⟨rfl, decide_eq_true hn⟩⟩
  case crcINIT | psSTATE => exact ⟨_, rfl, takesFront_some ⟨rfl, rfl⟩⟩
  case crcACC =>
    exact ⟨_, rfl, takesFront_takeThen takesFront_bits16 fun _ _ => takesFront_take1 takesFront_byte fun _ _ => ⟨rfl, rfl⟩⟩
  case crcBLOCK =>
    exact ⟨_, rfl, takesFront_takeThen takesFront_bits16 fun _ _ => takesFront_take1 takesFront_bytes fun _ _ => ⟨rfl, rfl⟩⟩
  case crcFRAME =>
    exact ⟨_, rfl, takesFront_takeThen takesFront_nat fun _ _ => takesFront_take1 takesFront_bytes fun _ _ => ⟨rfl, rfl⟩⟩
  case pkPACK => exact ⟨_, rfl, takesFront_take1 takesFront_msg fun _ _ => ⟨rfl, rfl⟩⟩
  case pkBATCH => exact ⟨_, rfl, takesFront_take1 (takesFront_list takesFront_msg) fun _ _ => ⟨rfl, rfl⟩⟩
  case psFEED => exact ⟨_, rfl, takesFront_take1 takesFront_bytes fun _ _ => ⟨rfl, rfl⟩⟩
  case psPUSH => exact ⟨_, rfl, takesFront_take1 takesFront_byte fun _ _ => ⟨rfl, rfl⟩⟩
  case catLOOKUP => exact ⟨_, rfl, takesFront_take1 takesFront_bits24 fun _ _ => ⟨rfl, rfl⟩⟩

/-! ### The codes of the operations (R100) -/

/-- The map of codes has an operand reader for the codes of the table and for no other, byte by byte. -/
theorem takeOperands_isSome_iff : ∀ op : Byte, (takeOperands op.toNat).isSome = true ↔ CodeInTable op := by
  unfold CodeInTable
  decide +kernel

/-- Operand bytes of zeros are operands of every code of the table, byte by byte. -/
theorem decodeTableWord_op : ∀ op : Byte, CodeInTable op → (decodeTableWord 8 op.toNat).map Instr.op = some op := by
  unfold CodeInTable
  decide +kernel

theorem exists_decodeTableWord {op : Byte} (h : CodeInTable op) :
    ∃ i, decodeTableWord 8 op.toNat = some i ∧ i.op = op := Option.map_eq_some_iff.mp (decodeTableWord_op op h)

/-- Settles O6: a code with operands is some operation's, and its reader takes a front part. -/
theorem decodedOperationsAreWellFormed : Obligations.DecodedOperationsAreWellFormed := by
  intro bs rest i h
  cases bs with
  | nil => cases h
  | cons op bs =>
    obtain ⟨t, ht, hread⟩ := decode_ok h
    have hcode : CodeInTable op := (takeOperands_isSome_iff op).mp (by rw [ht, Option.isSome_some])
    obtain ⟨j, _, rfl⟩ := exists_decodeTableWord hcode
    obtain ⟨t', ht', hfront⟩ := takesFront_operands j
    obtain rfl : t = t' := Option.some.inj (ht.symm.trans ht')
    obtain ⟨⟨hop, hwf⟩, used, rfl⟩ := hfront _ _ _ hread
    exact ⟨congrArg some hop.symm, hwf, j.op :: used, List.cons_ne_nil _ _, rfl⟩

/-- Settles O7: the code alone decides whether there is an operand reader. -/
theorem otherCodesNameNoOperation : Obligations.OtherCodesNameNoOperation := by
  refine ⟨fun op bs s hop => ?_, fun op => exists_decodeTableWord⟩
  have hnone : takeOperands op.toNat = none := by
    rw [← Option.not_isSome_iff_eq_none, takeOperands_isSome_iff]
    exact hop
  have hdecode : decode (op :: bs) = .error (.noOperation op) := by simp only [decode, hnone]
  exact ⟨hdecode, fun hp => step_error (e := .noOperation op) hp (by rw [hp, hdecode])⟩

/-- Settles O8, by decoding the words. -/
theorem tableCodesDecode : Obligations.TableCodesDecode := by
  unfold Obligations.TableCodesDecode
  decide +kernel

/-! ### The descriptor word (R95) -/

theorem Kind.code_le (k : Kind) : k.code ≤ 10 := by cases k <;> decide

theorem Kind.ofCode_code (k : Kind) : Kind.ofCode k.code = some k := by cases k <;> rfl

/-- Codes 0 to 10 name a kind, each its own (R86, R96 a). -/
theorem Kind.exists_ofCode {c : Nat} (h : c ≤ 10) : ∃ k, Kind.ofCode c = some k ∧ k.code = c := by
  interval_cases c <;> exact ⟨_, rfl, rfl⟩

theorem Kind.ofCode_eq_none {c : Nat} (h : 10 < c) : Kind.ofCode c = none := by
  obtain ⟨n, rfl⟩ := Nat.exists_eq_add_of_lt h
  rw [show 10 + n + 1 = n + 11 by omega]
  rfl

/-- The number whose low 16 bits are the descriptor's word. -/
def Desc.wordNumber (d : Desc) : Nat := d.kind.code + 16 * d.isExtension.toNat + 256 * d.arrayLength

theorem Desc.ofWord_wordNumber {d : Desc} (h : d.arrayLength < 256) :
    Desc.ofWord d.name (BitVec.ofNat 16 d.wordNumber) = some d := by
  have hcode := d.kind.code_le
  have hext := Bool.toNat_le d.isExtension
  have hnum : (BitVec.ofNat 16 d.wordNumber).toNat = d.wordNumber := by
    rw [BitVec.toNat_ofNat, Nat.mod_eq_of_lt]
    unfold Desc.wordNumber
    omega
  have hmid : d.wordNumber / 32 % 8 = 0 := by
    unfold Desc.wordNumber
    omega
  have hkind : d.wordNumber % 16 = d.kind.code := by
    unfold Desc.wordNumber
    omega
  have hbit : d.wordNumber / 16 % 2 = d.isExtension.toNat := by
    unfold Desc.wordNumber
    omega
  have hlength : d.wordNumber / 256 = d.arrayLength := by
    unfold Desc.wordNumber
    omega
  have hflag : (d.isExtension.toNat == 1) = d.isExtension := by cases d.isExtension <;> rfl
  simp only [Desc.ofWord, hnum, hmid, hkind, hbit, hlength, hflag, Kind.ofCode_code, if_true, Option.map_some]

/-- A word of R95 is the word of the descriptor it stands for. -/
theorem Desc.word_of_ofWord {name : String} {w : BitVec 16} {k : Kind} (hk : k.code = w.toNat % 16)
    (hmid : w.toNat / 32 % 8 = 0) :
    Desc.word { name := name, kind := k, isExtension := w.toNat / 16 % 2 == 1, arrayLength := w.toNat / 256 } = some w := by
  have hw : w.toNat < 65536 := w.isLt
  have hflag : (w.toNat / 16 % 2 == 1).toNat = w.toNat / 16 % 2 := by
    rcases Nat.mod_two_eq_zero_or_one (w.toNat / 16) with h | h <;> rw [h] <;> rfl
  have hnum : w.toNat % 16 + 16 * (w.toNat / 16 % 2) + 256 * (w.toNat / 256) = w.toNat := by omega
  rw [Desc.word, if_pos (show w.toNat / 256 < 256 by omega), hk, hflag, hnum, BitVec.ofNat_toNat, BitVec.setWidth_eq]

theorem middle_eq_zero_iff (w : BitVec 16) : w.extractLsb' 5 3 = 0 ↔ w.toNat / 32 % 8 = 0 := by
  rw [← BitVec.toNat_inj]
  simp [Nat.shiftRight_eq_div_pow]

theorem kindCode_eq (w : BitVec 16) : (w.extractLsb' 0 4).toNat = w.toNat % 16 := by simp

/-- Settles O9: the fields of the word stand apart, and the middle one is zero. -/
theorem descriptorWordRoundTrips : Obligations.DescriptorWordRoundTrips := by
  refine ⟨fun d h => ⟨_, if_pos h, Desc.ofWord_wordNumber h⟩, fun name w => ?_⟩
  rw [middle_eq_zero_iff, kindCode_eq]
  refine ⟨fun ⟨hcode, hmid⟩ => ?_, fun hnot => ?_⟩
  · obtain ⟨k, hk, hkc⟩ := Kind.exists_ofCode hcode
    exact ⟨_, by rw [Desc.ofWord, if_pos hmid, hk, Option.map_some], Desc.word_of_ofWord hkc hmid⟩
  · by_cases hmid : w.toNat / 32 % 8 = 0
    · have hcode : 10 < w.toNat % 16 := by omega
      rw [Desc.ofWord, if_pos hmid, Kind.ofCode_eq_none hcode, Option.map_none]
    · rw [Desc.ofWord, if_neg hmid]

end Sys2Proof
end

section
/-! PROOFS. The checksum unit (40_checksum.md): the two forms of a step, the fold over a block, and the seed. -/

namespace Sys2Proof.Machine

open Claims

theorem exec_crcACC (acc : BitVec 16) (b : Byte) (s : State) :
    exec (.crcACC acc b) s = .next (s.answer (.crc (crcAcc acc b)) []) := rfl

theorem exec_crcBLOCK (acc : BitVec 16) (B : Bytes) (s : State) :
    exec (.crcBLOCK acc B) s = .next (s.answer (.crc (crcBlock acc B)) []) := rfl

theorem exec_crcFRAME (seed : Nat) (B : Bytes) (s : State) :
    exec (.crcFRAME seed B) s = .next (s.answer (.crc (crcFrame (BitVec.ofNat 8 seed) B)) []) := rfl

/-! ### One byte (R121, R122) -/

/-- A byte on bits 7:0 of the register. -/
theorem setWidth_eq_zero_append (b : Byte) : b.setWidth 16 = 0#8 ++ b := by
  have hb : b.toNat < 256 := b.isLt
  apply BitVec.eq_of_toNat_eq
  rw [BitVec.toNat_append, BitVec.toNat_setWidth, BitVec.toNat_ofNat, Nat.zero_mod, Nat.zero_shiftLeft, Nat.zero_or]
  omega

/-- Settles O15: the eight shifts of R121, written out. -/
theorem crcAccIsEightReflectedShifts : Obligations.CrcAccIsEightReflectedShifts := by
  intro acc b s
  refine ⟨rfl, ?_⟩
  rw [exec_crcACC, crcAcc, setWidth_eq_zero_append]
  rfl

/-- Eight shifts of a byte on bits 15:8 move it to bits 7:0, byte by byte. -/
theorem repeat_crcShift_high : ∀ b : Byte, Nat.repeat crcShift 8 (b.setWidth 16 <<< 8) = b.setWidth 16 := by
  decide +kernel

/-- Eight shifts of a byte on bits 7:0 are three lines on bytes (R122), byte by byte. -/
theorem repeat_crcShift_low : ∀ b : Byte, Nat.repeat crcShift 8 (b.setWidth 16) =
    ((b ^^^ b <<< 4).setWidth 16 <<< 8) ^^^ ((b ^^^ b <<< 4).setWidth 16 <<< 3) ^^^ ((b ^^^ b <<< 4).setWidth 16 >>> 4) := by
  decide +kernel

/-- A register is its high byte and its low byte. -/
theorem eq_high_xor_low (x : BitVec 16) : x = (x.extractLsb' 8 8).setWidth 16 <<< 8 ^^^ (x.setWidth 8).setWidth 16 := by
  ext i hi
  by_cases h : i < 8
  · simp [h, BitVec.getLsbD_eq_getElem, hi]
  · simp [h, show 8 + (i - 8) = i by omega, show i - 8 < 8 by omega, BitVec.getLsbD_eq_getElem, hi]

/-- The byte taken in leaves the high byte of the register as it is. -/
theorem high_xor_byte (acc : BitVec 16) (b : Byte) :
    ((acc ^^^ b.setWidth 16).extractLsb' 8 8).setWidth 16 = acc >>> 8 := by
  ext i hi
  by_cases h : i < 8
  · simp [h]
  · simp [h, BitVec.getLsbD_of_ge acc (8 + i) (by omega)]

theorem low_xor_byte (acc : BitVec 16) (b : Byte) : (acc ^^^ b.setWidth 16).setWidth 8 = b ^^^ acc.setWidth 8 := by
  rw [BitVec.setWidth_xor, BitVec.setWidth_setWidth_of_le b (by decide), BitVec.setWidth_eq, BitVec.xor_comm]

/-- Settles O18: the shifts are linear, so the high and the low byte of the register can be shifted apart. -/
theorem crcTableFreeFormAgrees : Obligations.CrcTableFreeFormAgrees := by
  intro acc b
  rw [crcAcc, eq_high_xor_low (acc ^^^ b.setWidth 16), repeat_crcShift_xor, repeat_crcShift_high, repeat_crcShift_low,
    high_xor_byte, low_xor_byte]
  simp only [crcAccRotate, BitVec.xor_assoc]

/-! ### A block and a frame (R124 to R126) -/

theorem crcBlock_append (acc : BitVec 16) (A B : Bytes) : crcBlock acc (A ++ B) = crcBlock (crcBlock acc A) B := by
  induction A generalizing acc with
  | nil => rfl
  | cons b A ih => simp [ih]

theorem crc_eq_of_answer {s : State} {c d : BitVec 16}
    (h : (Host.Outcome.next (s.answer (.crc c) []) : Outcome) = .next (s.answer (.crc d) [])) : c = d := by
  simp only [Host.Outcome.next.injEq] at h
  simpa using congrArg State.results h

/-- Settles O16: the clauses follow from the fold over two sequences joined. -/
theorem crcBlockFoldsLeftToRight : Obligations.CrcBlockFoldsLeftToRight := by
  refine ⟨fun acc B s => ⟨rfl, _, exec_crcBLOCK acc B s⟩, fun acc s => exec_crcBLOCK acc [] s, fun acc c B b s h => ?_,
    fun acc c A B s h => ?_⟩
  · obtain rfl := crc_eq_of_answer ((exec_crcBLOCK acc B s).symm.trans h)
    rw [exec_crcBLOCK, exec_crcACC, crcBlock_append, crcBlock_cons, crcBlock_nil]
  · obtain rfl := crc_eq_of_answer ((exec_crcBLOCK acc A s).symm.trans h)
    rw [exec_crcBLOCK, exec_crcBLOCK, crcBlock_append]

/-- Settles O17: a frame's checksum is a block and one byte more. -/
theorem crcFrameTakesTheSeedLast : Obligations.CrcFrameTakesTheSeedLast := by
  intro seed B c s
  refine ⟨rfl, ⟨_, exec_crcFRAME seed B s⟩, fun h => ?_⟩
  obtain rfl := crc_eq_of_answer ((exec_crcBLOCK 0xFFFF B s).symm.trans h)
  rw [exec_crcFRAME, exec_crcACC, crcFrame]

end Sys2Proof.Machine
end

section
/-! PROOFS. The packer (43_packer.md): the six steps of PK.PACK leave the frame, what is refused, and the batch. -/

namespace Sys2Proof.Machine

open Claims

/-! ### The parts of a frame (30_encoding.md R80 to R83) -/

/-- The ten header bytes with a payload length. -/
def frameHeader (len : Nat) (m : Msg) : Bytes :=
  [0xFD, BitVec.ofNat 8 len, 0, 0, BitVec.ofNat 8 m.sequence, BitVec.ofNat 8 m.systemId, BitVec.ofNat 8 m.componentId] ++
    intBytes 3 m.messageId

/-- The payload before its trailing zeros are cut. -/
def fieldImages (e : Entry) (m : Msg) : Bytes := (List.zipWith fieldImage e.descs m.values).flatten

/-- The header and the payload, which stand before the checksum. -/
def frameFront (e : Entry) (m : Msg) : Bytes :=
  frameHeader (trimmed (fieldImages e m)).length m ++ trimmed (fieldImages e m)

theorem frameOf_eq (e : Entry) (m : Msg) :
    frameOf e m = frameFront e m ++ intBytes 2 (crcFrame e.seed ((frameFront e m).drop 1)).toNat := rfl

@[simp] theorem frameHeader_length (len : Nat) (m : Msg) : (frameHeader len m).length = 10 := by simp [frameHeader]

theorem zipWith_fieldImage_length {ds : List Desc} {vs : List Value} (h : List.Forall₂ Fits ds vs) :
    (List.zipWith fieldImage ds vs).flatten.length = sizes ds := by
  induction h with
  | nil => rfl
  | cons hfit _ ih => rw [List.zipWith_cons_cons, List.flatten_cons, List.length_append, fieldImage_length hfit, ih, sizes]

/-- Cut trailing zeros and the zeros put behind again are the bytes there were. -/
theorem trimmed_append_zeros (P : Bytes) : trimmed P ++ zeros (P.length - (trimmed P).length) = P := by
  obtain ⟨k, hsplit, _⟩ := stripZeros_spec P
  rw [stripZeros_eq_trimmed] at hsplit
  have hlen := congrArg List.length hsplit
  rw [List.length_append, List.length_replicate] at hlen
  rw [show P.length - (trimmed P).length = k by omega, ← hsplit]

theorem trimmed_length_le (P : Bytes) : (trimmed P).length ≤ P.length := by
  have hlen := congrArg List.length (trimmed_append_zeros P)
  rw [List.length_append] at hlen
  omega

/-! ### The steps of PK.PACK (R202 to R207) -/

/-- The header is put on the zeros of the allocated buffer (R202, R203). -/
theorem packHeader_packAllocate (e : Entry) (m : Msg) :
    packHeader e m (packAllocate e) = frameHeader e.maxlen m ++ zeros e.maxlen ++ zeros 2 := by
  have hid : leBytes 3 (m.messageId % Config.msgIdSpace) = intBytes 3 m.messageId := by
    rw [intBytes_natCast, ← leBytes_mod 3 m.messageId]
    rfl
  have hseven (t : Bytes) (ht : t.length = 7) : putBytes (zeros (12 + e.maxlen)) 0 t = t ++ zeros (5 + e.maxlen) := by
    have hput := putBytes_zeros (A := []) (C := []) (n := 12 + e.maxlen) (t := t) (by omega)
    rw [List.append_nil, List.nil_append, List.append_nil, List.nil_append, List.length_nil, ht] at hput
    rw [hput, show 12 + e.maxlen - 7 = 5 + e.maxlen by omega]
  have hthree (A t : Bytes) (hA : A.length = 7) (ht : t.length = 3) :
      putBytes (A ++ zeros (5 + e.maxlen)) 7 t = (A ++ t) ++ zeros e.maxlen ++ zeros 2 := by
    have hput := putBytes_zeros (A := A) (C := []) (n := 5 + e.maxlen) (t := t) (by omega)
    rw [List.append_nil, List.append_nil, hA, ht] at hput
    rw [hput, show 5 + e.maxlen - 3 = e.maxlen + 2 by omega, zeros_add]
    simp only [List.append_assoc]
  show memWrite (putBytes (zeros (12 + e.maxlen)) 0 _) 7 3 _ = _
  rw [memWrite_eq_putBytes, hid, hseven _ rfl, hthree _ _ rfl (intBytes_length 3 _)]
  rfl

/-- The field walk leaves the images of the values one after another (R204). -/
theorem packFields_eq {ds : List Desc} {vs : List Value} (h : List.Forall₂ Fits ds vs) {A : Bytes} (C : Bytes) {off : Nat}
    (hA : A.length = 10 + off) :
    ∃ tr, packFields ds vs (A ++ zeros (sizes ds) ++ C) off =
      .ok (A ++ (List.zipWith fieldImage ds vs).flatten ++ C, tr) := by
  induction h generalizing A off with
  | nil => exact ⟨[], rfl⟩
  | @cons d v ds vs hfit _ ih =>
    have hsplit : A ++ zeros (sizes (d :: ds)) ++ C = A ++ zeros d.size ++ (zeros (sizes ds) ++ C) := by
      rw [sizes, zeros_add, ← List.append_assoc A, List.append_assoc _ _ C]
    have hwrite : writeField d (A ++ zeros (sizes (d :: ds)) ++ C) (10 + off) v =
        .ok ((A ++ fieldImage d v) ++ zeros (sizes ds) ++ C, valueLabel d v) := by
      rw [writeField_eq_written hfit (by simp [sizes]; omega), ← putBytes_eq_written, hsplit, ← hA,
        putBytes_zeros (valueBytes_length_le hfit), ← fieldImage]
      simp only [List.append_assoc]
    obtain ⟨tr, hrest⟩ := ih (A := A ++ fieldImage d v) (off := off + d.size)
      (by rw [List.length_append, fieldImage_length hfit, hA, Nat.add_assoc])
    refine ⟨valueLabel d v ++ tr, ?_⟩
    simp only [packFields, hwrite, hrest]
    simp

/-- Re-slicing cuts the buffer two bytes behind the payload and writes the payload's length (R206). -/
theorem packSlice_eq (m : Msg) (len : Nat) (T D : Bytes) :
    packSlice (frameHeader len m ++ T ++ D) T.length = frameHeader T.length m ++ T ++ D.take 2 := by
  have htake : (frameHeader len m ++ T ++ D).take (12 + T.length) = frameHeader len m ++ T ++ D.take 2 := by
    rw [show 12 + T.length = (frameHeader len m ++ T).length + 2 by simp; omega, List.take_length_add_append]
  show putBytes ((frameHeader len m ++ T ++ D).take (12 + T.length)) 1 _ = _
  rw [htake]
  rfl

/-- Sealing writes the checksum of all but the first byte behind the payload (R207). -/
theorem packSeal_eq (seed : Byte) {A D : Bytes} {len : Nat} (hA : A.length = 10 + len) (hD : D.length = 2) :
    packSeal seed (A ++ D) len = A ++ intBytes 2 (crcFrame seed (A.drop 1)).toNat := by
  have hbody : slice (A ++ D) 1 (10 + len) = A.drop 1 := by rw [slice, ← hA, List.take_left]
  show memWrite (A ++ D) (10 + len) 2 (crcFrame seed (slice (A ++ D) 1 (10 + len))).toNat = _
  have hend : (A ++ D).drop (A.length + 2) = [] := List.drop_of_length_le (by rw [List.length_append, hD])
  rw [hbody, memWrite, ← hA, List.take_left, hend, List.append_nil, intBytes_natCast]

/-- Steps 4 to 6 on the images of the values. -/
theorem packFinish_eq {e : Entry} {m : Msg} (h : (fieldImages e m).length = e.maxlen) :
    packFinish e (frameHeader e.maxlen m ++ fieldImages e m ++ zeros 2) = frameOf e m := by
  have hsplit := trimmed_append_zeros (fieldImages e m)
  have hlen : packTruncate (frameHeader e.maxlen m ++ fieldImages e m ++ zeros 2) e.maxlen =
      (trimmed (fieldImages e m)).length := by
    rw [packTruncate_eq (frameHeader_length _ m) _ (by omega), List.take_of_length_le (by omega), stripZeros_eq_trimmed]
  have hslice := packSlice_eq m e.maxlen (trimmed (fieldImages e m))
    (zeros ((fieldImages e m).length - (trimmed (fieldImages e m)).length) ++ zeros 2)
  rw [← List.append_assoc, List.append_assoc _ (trimmed _), hsplit] at hslice
  show packSeal e.seed (packSlice _ (packTruncate _ _)) (packTruncate _ _) = _
  rw [hlen, hslice, packSeal_eq e.seed (by simp) (by simp), frameOf_eq, frameFront]

/-! ### PK.PACK (R208) -/

theorem exec_pkPACK (m : Msg) (s : State) : exec (.pkPACK m) s = answer .frames s (pack s.cat m) := rfl

section
variable {cat : Catalog} {m : Msg} {e : Entry}

/-- A message whose values fit its known and well-formed entry is packed into its frame. -/
theorem pack_eq_frameOf (he : cat.lookup (BitVec.ofNat 24 m.messageId) = some e) (hwf : e.wf = true)
    (hfit : List.Forall₂ Fits e.descs m.values) : ∃ tr, pack cat m = .ok (frameOf e m, tr) := by
  obtain ⟨tr, hfields⟩ := packFields_eq hfit (A := frameHeader e.maxlen m) (zeros 2) (off := 0) (frameHeader_length _ m)
  have hwalk : packFields e.descs m.values (packHeader e m (packAllocate e)) 0 =
      .ok (frameHeader e.maxlen m ++ fieldImages e m ++ zeros 2, tr) := by
    rw [packHeader_packAllocate]
    exact hfields
  refine ⟨tr, ?_⟩
  simp only [pack, he, hwf, hfit.length_eq, hwalk, packFinish_eq (zipWith_fieldImage_length hfit)]
  simp

/-- The field walk stops at the first value that has not its descriptor's shape (R211 c, log 13). -/
theorem packFields_valueShape {ds : List Desc} {vs : List Value} {F : Bytes} {off : Nat} (hwf : ds.all Desc.wf = true)
    (hlen : vs.length = ds.length) (hroom : 10 + off + sizes ds ≤ F.length) (h : ¬ List.Forall₂ Fits ds vs) :
    packFields ds vs F off = .error .valueShape := by
  induction ds generalizing vs F off with
  | nil =>
    obtain rfl := List.eq_nil_of_length_eq_zero hlen
    exact absurd .nil h
  | cons d ds ih =>
    obtain ⟨v, vs, rfl⟩ := List.exists_cons_of_length_eq_add_one hlen
    rw [List.all_cons, Bool.and_eq_true] at hwf
    obtain ⟨hd, hds⟩ := hwf
    rw [sizes] at hroom
    by_cases hfit : Fits d v
    · have hwrite := writeField_eq_written (B := F) (o := 10 + off) hfit (by omega)
      have hbytes := valueBytes_length_le hfit
      have hrest := ih (vs := vs) (F := written F (10 + off) (valueBytes d v)) (off := off + d.size) hds
        (by simpa using hlen) (by rw [written_length (by omega)]; omega) fun hvs => h (.cons hfit hvs)
      simp only [packFields, hwrite, hrest]
    · simp only [packFields, writeField_of_not_fits hd hfit]

/-- The buffer the field walk starts on has room for every field and the checksum. -/
theorem packHeader_length (e : Entry) (m : Msg) : (packHeader e m (packAllocate e)).length = 12 + e.maxlen := by
  rw [packHeader_packAllocate]
  simp
  omega

theorem entry_wf_descs (hwf : e.wf = true) : e.descs.all Desc.wf = true := ((Bool.and_eq_true _ _).mp hwf).1

theorem entry_wf_maxlen (hwf : e.wf = true) : e.maxlen ≤ 255 := of_decide_eq_true ((Bool.and_eq_true _ _).mp hwf).2

theorem pack_valueShape (he : cat.lookup (BitVec.ofNat 24 m.messageId) = some e) (hwf : e.wf = true)
    (hlen : m.values.length = e.descs.length) (hfit : ¬ List.Forall₂ Fits e.descs m.values) :
    pack cat m = .error .valueShape := by
  have hroom : 10 + 0 + sizes e.descs ≤ (packHeader e m (packAllocate e)).length := by
    rw [packHeader_length, Entry.maxlen]
    omega
  simp [pack, he, hwf, hlen, packFields_valueShape (entry_wf_descs hwf) hlen hroom hfit]

/-- An accepted PK.PACK returns the frame of its message (R208). -/
theorem pack_ok_frameOf {F : Bytes} {tr : List Anomaly} (h : pack cat m = .ok (F, tr)) :
    ∃ e, cat.lookup (BitVec.ofNat 24 m.messageId) = some e ∧ e.wf = true ∧ List.Forall₂ Fits e.descs m.values ∧
      F = frameOf e m := by
  obtain ⟨e, _, he, hwf, hlen, _⟩ := pack_ok h
  have hfit : List.Forall₂ Fits e.descs m.values := by
    by_contra hnot
    rw [pack_valueShape he hwf hlen hnot] at h
    cases h
  obtain ⟨tr', hpack⟩ := pack_eq_frameOf he hwf hfit
  rw [hpack] at h
  cases h
  exact ⟨e, he, hwf, hfit, rfl⟩

end

/-- A PK.PACK that completes is an accepted one. -/
theorem pack_of_completes {m : Msg} {F : Bytes} {s : State} (h : Completes 0x50 (.pkPACK m) s (.frames F)) :
    ∃ tr, pack s.cat m = .ok (F, tr) := by
  obtain ⟨_, tr, hexec⟩ := h
  obtain ⟨F', tr', hok, hanswer⟩ := answer_next ((exec_pkPACK m s).symm.trans hexec)
  obtain rfl : F = F' := by simpa using congrArg State.results hanswer
  exact ⟨tr', hok⟩

theorem completes_of_pack {m : Msg} {F : Bytes} {tr : List Anomaly} {s : State} (h : pack s.cat m = .ok (F, tr)) :
    Completes 0x50 (.pkPACK m) s (.frames F) := ⟨rfl, tr, by rw [exec_pkPACK, h, answer]⟩

/-- Settles O41, by induction along the descriptors: the field walk leaves the images of the values one after another, and
the last steps cut, count and seal them. -/
theorem packProducesTheFrame : Obligations.PackProducesTheFrame := by
  intro m e s he hwf hfit
  obtain ⟨tr, hpack⟩ := pack_eq_frameOf he hwf hfit
  exact completes_of_pack hpack

/-- Settles O43: the four refusals in the order they are met. -/
theorem packRefusesWhatHasNoMeaning : Obligations.PackRefusesWhatHasNoMeaning := by
  intro m s
  refine ⟨fun he => ?_, fun e he => ⟨fun hwf => ?_, fun hwf hlen => ?_, fun hwf hlen hfit => ?_⟩⟩
  · simp [exec_pkPACK, pack, he, answer]
  · simp [exec_pkPACK, pack, he, hwf, answer]
  · simp [exec_pkPACK, pack, he, hwf, hlen, answer]
  · rw [exec_pkPACK, pack_valueShape he hwf hlen hfit, answer]

/-! ### PK.BATCH (R209) -/

theorem exec_pkBATCH (ms : List Msg) (s : State) : exec (.pkBATCH ms) s = answer .frames s (packBatch s.cat ms) := rfl

/-- A batch of messages that are packed is their frames, one after another. -/
theorem packBatch_eq {cat : Catalog} {ms : List Msg} {Fs : List Bytes}
    (h : List.Forall₂ (fun m F => ∃ tr, pack cat m = .ok (F, tr)) ms Fs) : ∃ tr, packBatch cat ms = .ok (Fs.flatten, tr) := by
  induction h with
  | nil => exact ⟨[], rfl⟩
  | cons hm _ ih =>
    obtain ⟨tr, hpack⟩ := hm
    obtain ⟨tr', hbatch⟩ := ih
    exact ⟨tr ++ tr', by simp only [packBatch, hpack, hbatch, List.flatten_cons]⟩

/-- A batch gives the refusal of its first refused message (D18, log 13). -/
theorem packBatch_error {cat : Catalog} {ms : List Msg} (ms' : List Msg) {m : Msg} {r : Refusal}
    (hms : ∀ x ∈ ms, ∃ F tr, pack cat x = .ok (F, tr)) (hm : pack cat m = .error r) :
    packBatch cat (ms ++ m :: ms') = .error r := by
  induction ms with
  | nil => simp only [List.nil_append, packBatch, hm]
  | cons x ms ih =>
    obtain ⟨⟨F, tr, hx⟩, hrest⟩ := List.forall_mem_cons.mp hms
    simp only [List.cons_append, packBatch, hx, ih hrest]

theorem answer_refused {α : Type} {f : α → Result} {s : State} {x : Except Refusal (α × List Anomaly)} {r : Refusal}
    (h : answer f s x = .refused r) : x = .error r := by
  cases x with
  | ok a => cases h
  | error r' =>
    cases h
    rfl

theorem batch_completes {ms : List Msg} {Fs : List Bytes} {s : State}
    (h : List.Forall₂ (fun m F => ∃ tr, pack s.cat m = .ok (F, tr)) ms Fs) :
    Completes 0x51 (.pkBATCH ms) s (.frames Fs.flatten) := by
  obtain ⟨tr, hbatch⟩ := packBatch_eq h
  exact ⟨rfl, tr, by rw [exec_pkBATCH, hbatch, answer]⟩

/-- Messages that fit their entries are packed into their frames, one by one. -/
theorem forall₂_pack_frameOf {cat : Catalog} {ms : List Msg} {es : List Entry}
    (h : List.Forall₂ (fun m e => cat.lookup (BitVec.ofNat 24 m.messageId) = some e ∧ e.wf = true ∧
      List.Forall₂ Fits e.descs m.values) ms es) :
    List.Forall₂ (fun m F => ∃ tr, pack cat m = .ok (F, tr)) ms (List.zipWith frameOf es ms) := by
  induction h with
  | nil => exact .nil
  | cons hm _ ih =>
    obtain ⟨he, hwf, hfit⟩ := hm
    exact .cons (pack_eq_frameOf he hwf hfit) ih

/-- Settles O44, by induction along the messages. -/
theorem batchConcatenatesTheFrames : Obligations.BatchConcatenatesTheFrames := by
  refine ⟨fun ms es s h => batch_completes (forall₂_pack_frameOf h),
    fun ms Fs s h => batch_completes (h.imp fun _ _ => pack_of_completes), fun ms ms' m r s hms hm => ?_⟩
  have hrefused := packBatch_error ms' (fun x hx => (hms x hx).imp fun _ => pack_of_completes)
    (answer_refused ((exec_pkPACK m s).symm.trans hm))
  rw [exec_pkBATCH, hrefused, answer]

end Sys2Proof.Machine
end

section
/-! PROOFS. A packed frame read back (43_packer.md R212): its shape, that the parser accepts it, and that the parser
decodes it to the message packed. -/

namespace Sys2Proof.Machine

open Claims

/-! ### What stands where in a frame -/

section
variable {cat : Catalog} {e : Entry} {m : Msg}

theorem frameFront_length (e : Entry) (m : Msg) : (frameFront e m).length = 10 + (trimmed (fieldImages e m)).length := by
  rw [frameFront, List.length_append, frameHeader_length]

theorem frameOf_length (e : Entry) (m : Msg) : (frameOf e m).length = 12 + (trimmed (fieldImages e m)).length := by
  rw [frameOf_eq, List.length_append, frameFront_length, intBytes_length]
  omega

/-- The payload is no longer than the entry says, and its length fits one byte (30_encoding.md R93). -/
theorem payload_length_le (hwf : e.wf = true) (hfit : List.Forall₂ Fits e.descs m.values) :
    (trimmed (fieldImages e m)).length ≤ e.maxlen ∧ (trimmed (fieldImages e m)).length ≤ 255 := by
  have hle := trimmed_length_le (fieldImages e m)
  have hlen : (fieldImages e m).length = e.maxlen := zipWith_fieldImage_length hfit
  have hmax := entry_wf_maxlen hwf
  omega

/-- The length byte tells the payload's length. -/
theorem frameOf_lengthByte (hwf : e.wf = true) (hfit : List.Forall₂ Fits e.descs m.values) :
    ((frameOf e m).getD 1 0).toNat = (trimmed (fieldImages e m)).length := by
  obtain ⟨_, hbyte⟩ := payload_length_le hwf hfit
  show (BitVec.ofNat 8 (trimmed (fieldImages e m)).length).toNat = _
  rw [BitVec.toNat_ofNat]
  omega

/-- The header and the payload are the bytes before the checksum. -/
theorem frameOf_take_front {n : Nat} (h : n = (trimmed (fieldImages e m)).length) :
    (frameOf e m).take (10 + n) = frameFront e m := by
  rw [frameOf_eq, h, ← frameFront_length, List.take_left]

/-- The number some bytes spell behind others. -/
theorem leSum_append_right {A : Bytes} (T C : Bytes) {o w : Nat} (hA : A.length = o) (hT : T.length = w) :
    leSum (A ++ (T ++ C)) o w = leNat T := by
  rw [← leNat_take_drop, List.drop_left' hA, List.take_left' hT]

/-- The last two bytes spell the checksum. -/
theorem frameOf_crc {n : Nat} (h : n = (trimmed (fieldImages e m)).length) :
    leSum (frameOf e m) (10 + n) 2 = (crcFrame e.seed ((frameFront e m).drop 1)).toNat := by
  have hlt := (crcFrame e.seed ((frameFront e m).drop 1)).isLt
  rw [frameOf_eq, ← List.append_nil (intBytes 2 _),
    leSum_append_right _ _ ((frameFront_length e m).trans (by rw [h])) (intBytes_length 2 _), intBytes_natCast,
    leNat_leBytes, Nat.mod_eq_of_lt (by simpa using hlt)]

/-- Bytes 7 to 9 spell the id of 24 bits. -/
theorem frameOf_id (e : Entry) (m : Msg) : leSum (frameOf e m) 7 3 = m.messageId % 2 ^ 24 := by
  have hsplit : frameOf e m = (frameOf e m).take 7 ++ (intBytes 3 m.messageId ++ (frameOf e m).drop 10) := rfl
  rw [hsplit, leSum_append_right _ _ (List.length_take_of_le (by rw [frameOf_length]; omega)) (intBytes_length 3 _),
    intBytes_natCast, leNat_leBytes]
  norm_num

theorem lookup_frameOf_id (he : cat.lookup (BitVec.ofNat 24 m.messageId) = some e) :
    cat.lookup (BitVec.ofNat 24 (leSum (frameOf e m) 7 3)) = some e := by
  have hid : BitVec.ofNat 24 (leSum (frameOf e m) 7 3) = BitVec.ofNat 24 m.messageId := by
    rw [frameOf_id]
    apply BitVec.eq_of_toNat_eq
    simp
  rw [hid, he]

/-- The parser accepts a packed frame (R244). -/
theorem validFrame_frameOf (he : cat.lookup (BitVec.ofNat 24 m.messageId) = some e) (hwf : e.wf = true)
    (hfit : List.Forall₂ Fits e.descs m.values) : ValidFrame cat (frameOf e m) e := by
  have hlen := frameOf_lengthByte hwf hfit
  refine ⟨rfl, by rw [frameOf_length, hlen], lookup_frameOf_id he, hwf, ?_⟩
  rw [frameOf_take_front hlen, frameOf_crc hlen]

/-- The last payload byte is no zero (43_packer.md R205). -/
theorem frameOf_lastByte (e : Entry) (m : Msg) : (trimmed (fieldImages e m)).length = 0 ∨
    (frameOf e m).getD (9 + (trimmed (fieldImages e m)).length) 0 ≠ 0 := by
  obtain ⟨_, _, hlast⟩ := stripZeros_spec (fieldImages e m)
  rw [stripZeros_eq_trimmed, List.getLast?_eq_getElem?] at hlast
  rcases Nat.eq_zero_or_pos (trimmed (fieldImages e m)).length with hzero | hpos
  · exact .inl hzero
  · have hbyte : (frameOf e m)[9 + (trimmed (fieldImages e m)).length]? =
        (trimmed (fieldImages e m))[(trimmed (fieldImages e m)).length - 1]? := by
      rw [frameOf_eq, List.getElem?_append_left (by rw [frameFront_length]; omega), frameFront,
        List.getElem?_append_right (by rw [frameHeader_length]; omega), frameHeader_length]
      congr 1
      omega
    refine .inr fun hget => hlast ?_
    rw [List.getD_eq_getElem?_getD, hbyte, List.getElem?_eq_getElem (by omega), Option.getD_some] at hget
    rw [List.getElem?_eq_getElem (by omega), hget]

/-- Settles O42: the shape of the frame that PK.PACK returns, part by part. -/
theorem packedFramesHaveTheFrameShape : Obligations.PackedFramesHaveTheFrameShape := by
  intro m s t h
  obtain ⟨F, tr, hok, rfl⟩ := answer_next ((exec_pkPACK m s).symm.trans h)
  obtain ⟨e, he, hwf, hfit, rfl⟩ := pack_ok_frameOf hok
  have hlen := frameOf_lengthByte hwf hfit
  have htotal := frameOf_length e m
  obtain ⟨hmax, hbyte⟩ := payload_length_le hwf hfit
  refine ⟨_, tr, e, rfl, he, ?_, ?_, ?_, ?_, rfl, rfl, rfl, ?_, ?_⟩
  · rw [htotal, hlen]
  · omega
  · omega
  · omega
  · rw [hlen]
    exact frameOf_lastByte e m
  · rw [frameOf_take_front hlen, frameOf_crc hlen]

/-! ### The message of a frame -/

/-- The values of a packed frame read back: the payload with its zeros again is the images of the values. -/
theorem messageOf_frameOf (hwf : e.wf = true) (hfit : List.Forall₂ Fits e.descs m.values) :
    messageOf e (frameOf e m) =
      { messageId := m.messageId % 2 ^ 24, systemId := m.systemId % 256, componentId := m.componentId % 256,
        sequence := m.sequence % 256, values := List.zipWith readBack e.descs m.values } := by
  obtain ⟨hmax, _⟩ := payload_length_le hwf hfit
  have hlen := frameOf_lengthByte hwf hfit
  have himages : (fieldImages e m).length = e.maxlen := zipWith_fieldImage_length hfit
  have hpayload : ((frameOf e m).drop 10).take (trimmed (fieldImages e m)).length = trimmed (fieldImages e m) := by
    rw [frameOf_eq, frameFront, List.append_assoc, List.drop_left' (frameHeader_length _ m), List.take_left]
  have hzeros := trimmed_append_zeros (fieldImages e m)
  rw [himages] at hzeros
  have hvalues : readFields e.descs (fieldImages e m) = List.zipWith readBack e.descs m.values :=
    readFields_fieldImages hfit
  have hbyte (n : Nat) : (BitVec.ofNat 8 n).toNat = n % 256 := BitVec.toNat_ofNat n 8
  rw [messageOf, hlen, hpayload, List.take_of_length_le hmax, hzeros, hvalues, frameOf_id]
  show Msg.mk _ _ _ _ _ = _
  rw [← hbyte, ← hbyte, ← hbyte]
  rfl

/-! ### A frame fed to the parser (R232 to R238) -/

/-- The parser in a state, with the latches read from its buffer (R233). -/
def latchedAt (st : ScanState) (C : Bytes) : Parser :=
  { st := st, buf := C, len := C.getD 1 0, msgid := BitVec.ofNat 24 (memRead C 7 3) }

/-- With a valid frame in its buffer, a parser in CHECKSUM emits the frame's message and has no bytes left. -/
theorem scanRun_candidate {C : Bytes} (h : ValidFrame cat C e) :
    ScanRun cat (latchedAt .checksum C) { latchedAt .magic C with buf := [] } [messageOf e C] [] := by
  obtain ⟨hhead, hlen, he, hwf, hcrc⟩ := h
  have hcrc' : (candidateCrc e.seed (latchedAt .checksum C)).toNat = receivedCrc (latchedAt .checksum C) := by
    rw [receivedCrc_eq_leSum]
    exact hcrc
  have hid : (BitVec.ofNat 24 (memRead C 7 3)).toNat = memRead C 7 3 := by
    rw [BitVec.toNat_ofNat, Nat.mod_eq_of_lt]
    exact memRead_lt C 7 3
  have hscanning : (latchedAt .checksum C).Scanning :=
    (scanning_checksum rfl).mpr ⟨hhead, ⟨rfl, hid⟩, show 10 + (C.getD 1 0).toNat ≤ C.length by omega⟩
  have he' : cat.lookup (latchedAt .checksum C).msgid = some e := by
    rw [← memRead_eq_leSum] at he
    exact he
  obtain ⟨_, hmsg⟩ := validFrame_of_emit rfl hscanning (List.append_nil C).symm hlen he' hwf hcrc'
  have hemit := scanPass_emit rfl hlen.ge he' hwf hcrc'
  have hempty : (latchedAt .checksum C).buf.drop (12 + (latchedAt .checksum C).len.toNat) = [] :=
    List.drop_of_length_le hlen.le
  have hstop : scanPass cat { latchedAt .magic C with buf := [] } = .stop { latchedAt .magic C with buf := [] } [] :=
    scanPass_magic_stop rfl rfl
  rw [hmsg, hempty] at hemit
  exact .go hemit (.stop hstop)

/-- A parser that scans for the magic byte with a valid frame in its buffer comes to CHECKSUM with the latches read. -/
theorem scanRun_validFrame {p : Parser} (hst : p.st = .magic) (h : ValidFrame cat p.buf e) :
    ∃ q tr, ScanRun cat p q [messageOf e p.buf] tr ∧ q.st = .magic ∧ q.buf = [] := by
  have hrun := scanRun_candidate h
  obtain ⟨hhead, hlen, _⟩ := h
  obtain ⟨bs, hcons⟩ := List.head?_eq_some_iff.mp hhead
  have hmagic : fromMagic p.buf = 0xFD :: bs := by
    rw [hcons]
    exact fromMagic_cons_magic bs
  have hsame : fromMagic p.buf = p.buf := hmagic.trans hcons.symm
  have hgo := scanPass_magic_go (cat := cat) hst hmagic
  rw [hsame] at hgo
  have hheader : scanPass cat { p with st := .header } = .go (latchedAt .payload p.buf) [] [] :=
    scanPass_header_go rfl (show 10 ≤ p.buf.length by omega)
  have hpayload : scanPass cat (latchedAt .payload p.buf) = .go (latchedAt .checksum p.buf) [] [] :=
    scanPass_payload_go rfl (show 10 + (p.buf.getD 1 0).toNat ≤ p.buf.length by omega)
  exact ⟨_, _, .go hgo (.go hheader (.go hpayload hrun)), rfl, rfl⟩

/-- Settles O45: the frame is one the parser accepts, and its message is the one packed, read back. -/
theorem packThenFeedGivesTheMessageBack : Obligations.PackThenFeedGivesTheMessageBack := by
  intro m F e s s' hpack he hcat hst hbuf hroom
  obtain ⟨tr, hok⟩ := pack_of_completes hpack
  obtain ⟨e', he', hwf, hfit, rfl⟩ := pack_ok_frameOf hok
  obtain rfl : e = e' := Option.some.inj (he.symm.trans he')
  have hvalid : ValidFrame s'.cat (frameOf e m) e := validFrame_frameOf (hcat ▸ he) hwf hfit
  have hwhole : (appendChunk s'.ps (frameOf e m)).buf = frameOf e m := by simp [hbuf]
  obtain ⟨q, tr', hrun, hq, hempty⟩ :=
    scanRun_validFrame (p := appendChunk s'.ps (frameOf e m)) hst (by rw [hwhole]; exact hvalid)
  rw [hwhole, messageOf_frameOf hwf hfit] at hrun
  exact ⟨_, (exec_psFEED _ _).trans (feedState_of_scanRun hroom hrun), hq, hempty, rfl⟩

end

end Sys2Proof.Machine
end
